-- ==== Sys2Proof/Word.lean ====
section
/-! DEFINITION. Word.lean: the words of the GCM engine core (00_scope.md R5, R6; 30_encoding.md R40). -/

namespace Sys2Proof

/-- R5: a byte, an integer in 0..255. -/
abbrev Byte := BitVec 8

/-- R6: a Block in its integer view, a 128-bit unsigned integer with byte 0 most significant. The bit-string view is
`getMsbD` (bit 0 is the most significant bit of byte 0); the byte-string view is in Machine/Operands.lean. -/
abbrev Block := BitVec 128

/-- R40: a command header, one 64-bit word. -/
abbrev Header := BitVec 64

/-- R8, R24: a key as the core passes it to the cipher, the raw key bytes. -/
abbrev Key := List Byte

end Sys2Proof
end

