-- ==== Sys2Proof/Config.lean ====
section
/-! DEFINITION. Config.lean: the implementation parameters of 00_scope.md R4 and the block cipher of R8. -/

namespace Sys2Proof

/-- R4, R75: MAXDATA, the largest total data length of one session in bytes, 16 * (2^32 - 2). Fixed. -/
def Config.maxData : Nat := 16 * (2 ^ 32 - 2)

/-- R4, R21: TAG_MAX, the largest tag length in bytes. Fixed. -/
def Config.tagMax : Nat := 16

/-- R4, R48: TAG_DEFAULT, the tag length the assembler puts where the operand is omitted. Fixed. -/
def Config.tagDefault : Nat := 16

/-- R8, R141: the block cipher bound to the CIPH port, `E : Key -> Block -> Block`. It has no body: nothing can be
proved of it but that it is a function of the key and the Block, so a claim holds for every cipher (log 2). -/
opaque Config.blockCipher : Key → Block → Block

/-- R4: the parameters a model takes. Fixed for a run (R152), never part of State. -/
structure Config where
  /-- R8: the cipher capability `E`. -/
  cipher : Key → Block → Block
  /-- KEYLENS: the key lengths in bytes the cipher's key set-up accepts (D14). -/
  keyLens : List Nat
  /-- TAG_MIN: the smallest tag length INIT accepts (D12). -/
  tagMin : Nat
  /-- MAXAAD: the largest total AAD length of one session in bytes (D16). -/
  maxAad : Nat
  /-- HOLD_CAP: the capacity of the plaintext hold buffer in bytes (D19). -/
  holdCap : Nat

/-- R4: what the spec asks of the parameters: TAG_MIN is in 1..16, HOLD_CAP is at most MAXDATA, MAXAAD is below 2^61 so
that the AAD bit length fits 64 bits (R17, R95), and no cipher accepts a key of no bytes (R90). -/
structure Config.Legal (c : Config) : Prop where
  tagMin_pos : 1 ≤ c.tagMin
  tagMin_le : c.tagMin ≤ Config.tagMax
  holdCap_le : c.holdCap ≤ Config.maxData
  maxAad_lt : c.maxAad < 2 ^ 61
  no_empty_key : 0 ∉ c.keyLens

/-- R4: any cipher with the default parameters: KEYLENS = {16, 24, 32}, TAG_MIN = 12, MAXAAD = 2^61 - 1,
HOLD_CAP = MAXDATA. DESIGN CHOICE (log 6): the spec leaves these four open and gives the defaults. -/
def Config.withCipher (e : Key → Block → Block) : Config where
  cipher := e
  keyLens := [16, 24, 32]
  tagMin := 12
  maxAad := 2 ^ 61 - 1
  holdCap := Config.maxData

/-- The configuration `exec` and `step` run: the unknown cipher, the default parameters (log 2, log 6). -/
def Config.chip : Config := Config.withCipher Config.blockCipher

end Sys2Proof
end

