-- ==== Sys2Proof/Syntax.lean ====
section
/-! DEFINITION. Syntax.lean: the six commands of the opcode table (30_encoding.md R42, R44) with their operands. -/

namespace Sys2Proof

/-- R19: the direction of a session. -/
inductive Dir where
  | enc
  | dec
  deriving DecidableEq, Repr

/-- R42, R44: one constructor per row of the opcode table, with the operands of that row. The payload is the operand
itself; LEN is its length. -/
inductive Instr where
  /-- R90: `INIT dir, taglen, key`. -/
  | init (dir : Dir) (taglen : BitVec 5) (key : List Byte)
  /-- R92: `SET_IV iv`. -/
  | setIv (iv : List Byte)
  /-- R94: `ADD_AAD aad`. -/
  | addAad (aad : List Byte)
  /-- R96: `FINISH_AAD`. -/
  | finishAad
  /-- R98: `PROCESS data`. -/
  | process (data : List Byte)
  /-- R100: `FINISH [expected_tag]`. -/
  | finish (expected : List Byte)
  deriving DecidableEq, Repr

/-- R31, R42: the payload a command carries on DIN. -/
def Instr.payload : Instr → List Byte
  | .init _ _ key => key
  | .setIv iv => iv
  | .addAad aad => aad
  | .finishAad => []
  | .process data => data
  | .finish expected => expected

end Sys2Proof
end

