-- ==== Sys2Proof/Machine/State.lean ====
section
/-! DEFINITION. Machine/State.lean: the whole state of one core (10_state.md R10), its ports (20_memory.md R30), and
what the core holds after reset (R28). -/

namespace Sys2Proof.Machine

/-- R20: the seven values of PHASE (code 6 is never held, U20). -/
inductive Phase where
  | idle
  | created
  | ivSet
  | aadDone
  | dataDone
  | finished
  | failed
  deriving DecidableEq, Repr

/-- R130: the eight status codes. ERR holds one of them too (R22). -/
inductive Status where
  | ok
  | invalidKeyLength
  | invalidIvLength
  | invalidTagLength
  | sequenceError
  | capacityExceeded
  | authenticationError
  | illegalCommand
  deriving DecidableEq, Repr

/-- R9, R47: the response of one command. -/
structure Response where
  status : Status
  phase : Phase
  dout : List Byte
  tag : List Byte
  deriving DecidableEq, Repr

/-- R30, R35: one request on the CIPH port. -/
inductive CipherRequest where
  /-- Key set-up with the raw key bytes. -/
  | keySetup (key : List Byte)
  /-- Encrypt one Block under the session's key. -/
  | encrypt (x : Block)
  deriving DecidableEq, Repr

/-- R40, R150: what the host does to the core: present a command (CMD and DIN), or apply hardware reset. -/
inductive HostEvent where
  | command (header : Header) (payload : List Byte)
  | reset
  deriving DecidableEq, Repr

/-- R10: the state elements a rule can read and that can hold no value. -/
inductive Reg where
  | keyctx
  | h
  | acc
  | ctr
  | ek0
  | ks
  | buf
  | alen
  | dlen
  | dir
  | taglen
  deriving DecidableEq, Repr

/-- Why the machine stops. -/
inductive Fault where
  /-- Raised by a meaning that reads the element `r` while it holds no value (R25, D22: such a read fails, it does not
  return zero). Safe: the model stops where the spec gives no value. No state reachable from reset raises it. -/
  | noValue (r : Reg)
  deriving DecidableEq, Repr

/-- Why a command has no meaning. -/
inductive Refusal where
  /-- Raised by `exec` alone, in the arm of a command that is not modelled. Safe. No arm of this model raises it. -/
  | notModelled (mnemonic : String)
  deriving DecidableEq, Repr

/-- R10: the state of one core. `none` is the spec's "no value" (R25, U7). BUFLEN is the length of `buf` and HOLDLEN the
length of `hold` (log 4). The last three fields are the ports of R30, the model's own (log 1). -/
structure State where
  /-- R24: KEYCTX, the key passed to `E`. -/
  keyctx : Option (List Byte)
  /-- R11: H, the Hash Subkey. -/
  h : Option Block
  /-- R12: ACC, the GHASH accumulator. -/
  acc : Option Block
  /-- R13: CTR, the working counter. -/
  ctr : Option Block
  /-- R14: EK0, the encrypted pre-counter block. -/
  ek0 : Option Block
  /-- R15: KS, the current keystream block. -/
  ks : Option Block
  /-- R16: BUF[0..BUFLEN), the pending partial block. -/
  buf : Option (List Byte)
  /-- R17: ALEN, the AAD byte counter. -/
  alen : Option (BitVec 64)
  /-- R18: DLEN, the data byte counter. -/
  dlen : Option (BitVec 64)
  /-- R19: DIR, the direction. -/
  dir : Option Dir
  /-- R21: TAGLEN, the configured tag length in bytes. -/
  taglen : Option (BitVec 5)
  /-- R20: PHASE. -/
  phase : Phase
  /-- R22: ERR, the sticky error register. -/
  err : Status
  /-- R23: HOLD, the plaintext hold buffer. -/
  hold : List Byte
  /-- CMD and DIN (and reset): what the host will still present, the next event first. -/
  host : List HostEvent
  /-- RSP and DOUT: the responses returned so far, oldest first. -/
  rsp : List Response
  /-- CIPH: the requests the cipher has been sent so far, oldest first. -/
  ciph : List CipherRequest
  deriving DecidableEq, Repr

/-- R28: PHASE = IDLE, ERR = 0, HOLD empty, every other element no value. The ports carry nothing yet: no command is
pending (log 1). -/
def State.reset : State where
  keyctx := none
  h := none
  acc := none
  ctr := none
  ek0 := none
  ks := none
  buf := none
  alen := none
  dlen := none
  dir := none
  taglen := none
  phase := .idle
  err := .ok
  hold := []
  host := []
  rsp := []
  ciph := []

end Sys2Proof.Machine
end

