-- ==== Sys2Proof/Machine/Operands.lean ====
section
/-! DEFINITION. Machine/Operands.lean: the operand forms: the byte-string view of a Block (00_scope.md R5, R6), the byte
order of 20_memory.md R32, padding and cutting into Blocks. -/

namespace Sys2Proof.Machine

/-- R6: byte `k` of a Block, byte 0 most significant: the bits of `int(B)` from 8(15-k) up. -/
def blockByte (b : Block) (k : Nat) : Byte := b.extractLsb' (8 * (15 - k)) 8

/-- R6: the byte string of a Block, 16 bytes. -/
def blockBytes (b : Block) : List Byte := (List.range 16).map (blockByte b)

/-- R6: the Block of a byte string, `int(B) = Σ B[k] 2^(8(15-k))`, read most significant byte first. Used on strings of
exactly 16 bytes. -/
def blockOfBytes (s : List Byte) : Block := s.foldl (fun n b => (n <<< 8) ||| b.setWidth 128) 0

/-- R5: `pad16(s)`, `s` followed by the fewest zero bytes that make its length a multiple of 16. -/
def pad16 (s : List Byte) : List Byte := s ++ List.replicate ((16 - s.length % 16) % 16) 0

/-- R5: `[n]_64`, the 8-byte big-endian encoding: byte `k` is `(n >> 8(7-k)) AND 0xFF`. -/
def bigEndian64 (n : Nat) : List Byte := (List.range 8).map fun k => BitVec.ofNat 8 (n >>> (8 * (7 - k)))

/-- R66: the Blocks `D_1, ..., D_m` of a byte string whose length is a multiple of 16: `D_j = D[16(j-1)..16j)`. -/
def blocksOf (d : List Byte) : List Block :=
  (List.range (d.length / 16)).map fun j => blockOfBytes ((d.drop (16 * j)).take 16)

/-- R63: the length block `[abits]_64 ‖ [dbits]_64`. -/
def lengthBlock (abits dbits : Nat) : Block := blockOfBytes (bigEndian64 abits ++ bigEndian64 dbits)

/-- R62: a short block, zero bytes appended at the high indices. -/
def paddedBlock (s : List Byte) : Block := blockOfBytes (s ++ List.replicate (16 - s.length) 0)

/-- R4, R48, R49: the tag length operand `[, taglen]`, 16 where it is omitted. -/
def taglenOrDefault (taglen : Option (BitVec 5)) : BitVec 5 := taglen.getD (BitVec.ofNat 5 Config.tagDefault)

/-- R16: BUFLEN, the number of bytes BUF holds (4 bits); no value when BUF has none. -/
def State.buflen (s : State) : Option (BitVec 4) := s.buf.map fun b => BitVec.ofNat 4 b.length

/-- R23: HOLDLEN, the number of bytes HOLD holds (64 bits). -/
def State.holdlen (s : State) : BitVec 64 := BitVec.ofNat 64 s.hold.length

end Sys2Proof.Machine
end

