-- ==== Sys2Proof/Machine/Multiplier.lean ====
section
/-! DEFINITION. Machine/Multiplier.lean: the GF(2^128) multiplier (40_gf128_multiplier.md): GFMUL by the shift-and-reduce
loop, and the three equal forms of the product: polynomial, Karatsuba, Mastrovito. -/

namespace Sys2Proof.Machine

/-- R52: R, the Block `E1 00 ... 00`, which is `x^7 + x^2 + x + 1`. -/
def reduction : Block := 0xE1000000000000000000000000000000

/-- R59: XTIME, multiplication by `x`: a shift toward the least significant end, and R for the bit shifted out. -/
def xtime (v : Block) : Block := (v >>> 1) ^^^ (if v.getLsbD 0 then reduction else 0)

/-- R52: `V` after `i` iterations of the loop: `XTIME^i(int(Y))`. -/
def xtimes (y : Block) : Nat → Block
  | 0 => y
  | i + 1 => xtime (xtimes y i)

/-- R52: `Z` after `i` iterations: V is added for every bit of X that is 1, bit 0 (the coefficient of `x^0`) first. -/
def gfmulLoop (x y : Block) : Nat → Block
  | 0 => 0
  | i + 1 => if x.getMsbD i then gfmulLoop x y i ^^^ xtimes y i else gfmulLoop x y i

/-- R50, R52: GFMUL, total on every pair of Blocks, 128 iterations. -/
def gfmul (x y : Block) : Block := gfmulLoop x y 128

/-- R53: ONE, the multiplicative identity `80 00 ... 00` (R33). -/
def gfOne : Block := 0x80000000000000000000000000000000

/-! ### The equal forms (aids of R51, R56, R57)

Here a polynomial over GF(2) is a bit vector whose bit `i` is the coefficient of `x^i`, so a Block is reversed on the way
in and out. -/

/-- R51: the carry-less product of the `n` low coefficients of `a` with `b`: coefficients add by XOR. -/
def clmul (a b : BitVec 256) : Nat → BitVec 256
  | 0 => 0
  | i + 1 => if a.getLsbD i then clmul a b i ^^^ (b <<< i) else clmul a b i

/-- R51: `P(x) = x^128 + x^7 + x^2 + x + 1`. -/
def fieldPoly : BitVec 256 := (1#256 <<< 128) ||| 0x87#256

/-- R56: the reduction: for `i` from 128 + n - 1 down to 128, if the coefficient of `x^i` is 1, add `P(x) x^(i-128)`. -/
def reduceFrom (p : BitVec 256) : Nat → BitVec 256
  | 0 => p
  | n + 1 => reduceFrom (if p.getLsbD (128 + n) then p ^^^ (fieldPoly <<< n) else p) n

/-- R6: the polynomial view of a Block, coefficient of `x^i` at bit `i`. -/
def polyOfBlock (b : Block) : BitVec 256 := b.reverse.setWidth 256

/-- R6: the Block of a polynomial of degree at most 127. -/
def blockOfPoly (p : BitVec 256) : Block := (p.setWidth 128).reverse

/-- R51: the product read literally: the polynomial product, degree at most 254, then the remainder modulo P. -/
def gfmulPoly (x y : Block) : Block :=
  blockOfPoly (reduceFrom (clmul (polyOfBlock x) (polyOfBlock y) 128) 127)

/-- R56: the coefficients of `x^0 .. x^63` of a Block, its bytes 0 to 7. -/
def lowHalf (b : Block) : BitVec 256 := (b.reverse.extractLsb' 0 64).setWidth 256

/-- R56: the coefficients of `x^64 .. x^127`, bytes 8 to 15. -/
def highHalf (b : Block) : BitVec 256 := (b.reverse.extractLsb' 64 64).setWidth 256

/-- R56: the product by three 64-by-64 products. -/
def karatsubaProduct (x y : Block) : BitVec 256 :=
  let lo := clmul (lowHalf x) (lowHalf y) 64
  let hi := clmul (highHalf x) (highHalf y) 64
  let mid := clmul (lowHalf x ^^^ highHalf x) (lowHalf y ^^^ highHalf y) 64 ^^^ lo ^^^ hi
  (hi <<< 128) ^^^ (mid <<< 64) ^^^ lo

/-- R56: one fold of the high half `T` by `x^128 = x^7 + x^2 + x + 1`: `low128 + T (x^7 + x^2 + x + 1)`. -/
def foldHigh (p : BitVec 256) : BitVec 256 :=
  let t := p >>> 128
  ((p.setWidth 128).setWidth 256) ^^^ (t <<< 7) ^^^ (t <<< 2) ^^^ (t <<< 1) ^^^ t

/-- R56: the Karatsuba form, reduced bit by bit from degree 254 down. -/
def gfmulKaratsuba (x y : Block) : Block := blockOfPoly (reduceFrom (karatsubaProduct x y) 127)

/-- R56: the Karatsuba form with the two folds in place of the bit-by-bit reduction. -/
def gfmulKaratsubaFold (x y : Block) : Block := blockOfPoly (foldHigh (foldHigh (karatsubaProduct x y)))

/-- R57: the entry `M(Y)[j][i] = bit_j(blk(XTIME^i(int(Y))))`. -/
def mastrovitoEntry (y : Block) (j i : Nat) : Bool := (xtimes y i).getMsbD j

/-- R57: bit `j` of the product, the XOR over `i` of `M(Y)[j][i] AND bit_i(X)`. -/
def mastrovitoBit (x y : Block) (j : Nat) : Bool :=
  (List.range 128).foldl (fun p i => p ^^ (mastrovitoEntry y j i && x.getMsbD i)) false

/-- R57: the Mastrovito form, bit 0 of the string first (most significant). -/
def gfmulMastrovito (x y : Block) : Block :=
  (List.range 128).foldl (fun z j => z.shiftConcat (mastrovitoBit x y j)) 0

end Sys2Proof.Machine
end

