-- ==== Sys2Proof/Machine/Ghash.lean ====
section
/-! DEFINITION. Machine/Ghash.lean: the GHASH accumulator (41_ghash_accumulator.md): its three micro-operations as
functions of H and ACC, the buffering of a byte stream into them, GHASH as a function, and DeriveJ0. -/

namespace Sys2Proof.Machine

/-- R61: GH_UPDATE, `ACC ← GFMUL(ACC ⊕ X, H)`. -/
def ghUpdate (h acc x : Block) : Block := gfmul (acc ^^^ x) h

/-- R62: GH_UPDATE_PARTIAL, a final short block zero-padded at the high indices. -/
def ghUpdatePartial (h acc : Block) (s : List Byte) : Block := ghUpdate h acc (paddedBlock s)

/-- R63: GH_LENBLOCK, the two 64-bit big-endian bit lengths. -/
def ghLenBlock (h acc : Block) (abits dbits : Nat) : Block := ghUpdate h acc (lengthBlock abits dbits)

/-- R66: the loop of GHASH continued from `y`. -/
def ghashFrom (h y : Block) (d : List Byte) : Block := (blocksOf d).foldl (ghUpdate h) y

/-- R66: `GHASH(H, D)`. -/
def ghash (h : Block) (d : List Byte) : Block := ghashFrom h 0 d

/-- R94: one byte into BUF; a full BUF is folded and emptied. The pair is (ACC, BUF[0..BUFLEN)). -/
def absorbByte (h : Block) (st : Block × List Byte) (b : Byte) : Block × List Byte :=
  let buf := st.2 ++ [b]
  if buf.length = 16 then (ghUpdate h st.1 (blockOfBytes buf), []) else (st.1, buf)

/-- R94: the byte loop of ADD_AAD. -/
def absorb (h : Block) (st : Block × List Byte) (bytes : List Byte) : Block × List Byte := bytes.foldl (absorbByte h) st

/-- R97: CloseAAD, and the first fold of FINISH (R100): ACC after a partial block, if there is one, is folded. BUFLEN is
0 after it. -/
def foldPartial (h acc : Block) (buf : List Byte) : Block := if buf = [] then acc else ghUpdatePartial h acc buf

/-- R93: DeriveJ0. The test is equality with 12 and nothing else (C2). -/
def deriveJ0 (h : Block) (iv : List Byte) : Block :=
  if iv.length = 12 then blockOfBytes (iv ++ [0x00, 0x00, 0x00, 0x01])
  else ghash h (pad16 iv ++ bigEndian64 0 ++ bigEndian64 (8 * iv.length))

end Sys2Proof.Machine
end

