-- ==== Sys2Proof/Machine/Keystream.lean ====
section
/-! DEFINITION. Machine/Keystream.lean: the counter-mode generator and the XOR datapath (42_ctr_keystream.md). -/

namespace Sys2Proof.Machine

/-- R71: inc32, addition of one on the last 32 bits modulo 2^32; the upper 96 bits are untouched. -/
def inc32 (x : Block) : Block := (x &&& ~~~(0xFFFFFFFF#128)) ||| ((x + 1) &&& 0xFFFFFFFF#128)

/-- R77: `inc32` applied `j` times. -/
def inc32Iter (x : Block) : Nat → Block
  | 0 => x
  | j + 1 => inc32 (inc32Iter x j)

/-- The registers PROCESS works on while it consumes its payload, the bytes it has produced and the cipher requests it has
made, oldest first. -/
structure Stream where
  acc : Block
  ctr : Block
  ks : Option Block
  buf : List Byte
  out : List Byte
  requests : List CipherRequest
  deriving DecidableEq, Repr

/-- R72: KS_NEXT, one request on the cipher port for CTR, then CTR ← inc32(CTR). -/
def ksNext (c : Config) (key : Key) (d : Stream) : Stream :=
  { d with ks := some (c.cipher key d.ctr), ctr := inc32 d.ctr, requests := d.requests ++ [.encrypt d.ctr] }

/-- R73: the ciphertext byte of a position, in both directions: the output when encrypting, the input when decrypting. -/
def cipherByte (dir : Dir) (input output : Byte) : Byte :=
  match dir with
  | .enc => output
  | .dec => input

/-- R73: the second half of XOR_BYTE, with KS[BUFLEN] at hand: the output byte, the ciphertext byte into BUF, and the fold
of a full BUF. After the fold KS holds no value (R15, R25; log 5). -/
def xorStore (h : Block) (dir : Dir) (d : Stream) (ks : Block) (b : Byte) : Stream :=
  let o := b ^^^ blockByte ks d.buf.length
  let buf := d.buf ++ [cipherByte dir b o]
  if buf.length = 16 then
    { d with acc := ghUpdate h d.acc (blockOfBytes buf), ks := none, buf := [], out := d.out ++ [o] }
  else { d with ks := some ks, buf := buf, out := d.out ++ [o] }

/-- R73: XOR_BYTE. At BUFLEN = 0 it starts a new block with KS_NEXT. PROCESS has checked that KS holds a value when
BUFLEN > 0, so the default is never read there. -/
def xorByte (c : Config) (key : Key) (h : Block) (dir : Dir) (d : Stream) (b : Byte) : Stream :=
  let d := if d.buf = [] then ksNext c key d else d
  xorStore h dir d (d.ks.getD 0) b

/-- R98: the byte loop of PROCESS. -/
def xorBytes (c : Config) (key : Key) (h : Block) (dir : Dir) (d : Stream) (bytes : List Byte) : Stream :=
  bytes.foldl (xorByte c key h dir) d

end Sys2Proof.Machine
end

