-- ==== Sys2Proof/Machine/Flags.lean ====
section
/-! DEFINITION. Machine/Flags.lean: this hardware has no arithmetic flags; its conditions are the checks a command makes
(43_session_commands.md R81), its status the codes of 60_exceptions.md R130. -/

namespace Sys2Proof.Machine

/-- R20: the phase codes. -/
def Phase.code : Phase → BitVec 3
  | .idle => 0
  | .created => 1
  | .ivSet => 2
  | .aadDone => 3
  | .dataDone => 4
  | .finished => 5
  | .failed => 7

/-- R130: the status codes. -/
def Status.code : Status → BitVec 3
  | .ok => 0
  | .invalidKeyLength => 1
  | .invalidIvLength => 2
  | .invalidTagLength => 3
  | .sequenceError => 4
  | .capacityExceeded => 5
  | .authenticationError => 6
  | .illegalCommand => 7

/-- R80: the phase after a successful command, `none` where the table says `Seq`: the command is not admitted. -/
def transition : Phase → Instr → Option Phase
  | _, .init _ _ _ => some .created
  | .created, .setIv _ => some .ivSet
  | .ivSet, .addAad _ => some .ivSet
  | .ivSet, .finishAad => some .aadDone
  | .ivSet, .process _ => some .dataDone
  | .aadDone, .process _ => some .dataDone
  | .dataDone, .process _ => some .dataDone
  | .dataDone, .finish _ => some .finished
  | _, _ => none

/-- R121: the cipher's answer to a key set-up request: it accepts the lengths of KEYLENS. -/
def keyLengthOk (c : Config) (len : Nat) : Bool := c.keyLens.contains len

/-- R123: TAG_MIN ≤ t ≤ 16. -/
def tagLengthOk (c : Config) (t : BitVec 5) : Bool := decide (c.tagMin ≤ t.toNat) && decide (t.toNat ≤ Config.tagMax)

/-- R122: an IV has at least one byte. -/
def ivLengthOk (len : Nat) : Bool := decide (1 ≤ len)

/-- R95: ALEN + LEN stays within MAXAAD. -/
def aadFits (c : Config) (alen : BitVec 64) (len : Nat) : Bool := decide (alen.toNat + len ≤ c.maxAad)

/-- R75: DLEN + LEN stays within MAXDATA. -/
def dataFits (dlen : BitVec 64) (len : Nat) : Bool := decide (dlen.toNat + len ≤ Config.maxData)

/-- R99: in a DEC session HOLDLEN + LEN stays within HOLD_CAP. -/
def holdFits (c : Config) (d : Dir) (held len : Nat) : Bool :=
  match d with
  | .enc => true
  | .dec => decide (held + len ≤ c.holdCap)

/-- R100: FINISH carries no expected tag in an ENC session and one of TAGLEN bytes in a DEC session. -/
def finishLengthOk (d : Dir) (taglen : BitVec 5) (len : Nat) : Bool :=
  match d with
  | .enc => decide (len = 0)
  | .dec => decide (len = taglen.toNat)

end Sys2Proof.Machine
end

