-- ==== Sys2Proof/Machine/Ops.lean ====
section
/-! DEFINITION. Machine/Ops.lean: the shared operations over the state: reading an element, responding, cipher requests,
raising an error (60_exceptions.md R133), ending a session, hardware reset (70_reset_and_hazards.md R150). -/

namespace Sys2Proof.Machine

/-- R25, D22: the read of an element. With a value it continues; with none it fails, it does not return zero
(log 3). -/
def readReg {α : Type} (r : Reg) (v : Option α) (k : α → Host.Outcome State Fault Refusal) :
    Host.Outcome State Fault Refusal :=
  match v with
  | some a => k a
  | none => .fault (.noValue r)

/-- R9, R47: the command ends: its response carries the status, PHASE as it now is, the emitted bytes and the tag. -/
def State.respond (s : State) (st : Status) (dout tag : List Byte) : State :=
  { s with rsp := s.rsp ++ [{ status := st, phase := s.phase, dout := dout, tag := tag }] }

/-- R35: requests sent on the CIPH port, in order. -/
def State.request (s : State) (rs : List CipherRequest) : State := { s with ciph := s.ciph ++ rs }

/-- R25: every element but PHASE and ERR holds no value, and HOLD is empty: the state of a core without a session. -/
def State.dropSession (s : State) : State :=
  { s with
    keyctx := none, h := none, acc := none, ctr := none, ek0 := none, ks := none, buf := none, alen := none,
    dlen := none, dir := none, taglen := none, hold := [] }

/-- R22: ERR after an error of status `st`: the first error since the last successful INIT or reset stays. -/
def State.stickyErr (s : State) (st : Status) : Status := if s.phase = .failed then s.err else st

/-- R133: `raise`, the one way a command fails: ERR, PHASE ← FAILED, HOLD empty, every other element no value, and the
response. There is no handler, no vector and no return (R134). -/
def State.raiseError (s : State) (st : Status) : State :=
  { s.dropSession with err := s.stickyErr st, phase := .failed }.respond st [] []

/-- R82, R100: the session is over after a successful FINISH; PHASE ← `p`, all datapath state holds no value. -/
def State.endSession (s : State) (p : Phase) : State := { s.dropSession with phase := p }

/-- R28, R150: hardware reset, an event between commands (log 8): PHASE = IDLE, ERR = 0, HOLD empty, every other element
no value. It has no response and does not touch what the ports have already carried. -/
def State.hardwareReset (s : State) : State := { s.dropSession with phase := .idle, err := .ok }

end Sys2Proof.Machine
end

