-- ==== Sys2Proof/Machine/Aad.lean ====
section
/-! DEFINITION. Machine/Aad.lean: the commands that absorb associated data: ADD_AAD and FINISH_AAD
(43_session_commands.md R94 to R97). -/

namespace Sys2Proof.Machine

/-- R94: ADD_AAD. PHASE stays IVSET; the capacity of R95 is checked before any byte is used. -/
def execAddAadIn (c : Config) (aad : List Byte) (s : State) : Host.Outcome State Fault Refusal :=
  match transition s.phase (.addAad aad) with
  | none => .next (s.raiseError .sequenceError)
  | some p =>
    readReg .alen s.alen fun alen =>
    if aadFits c alen aad.length = false then .next (s.raiseError .capacityExceeded)
    else
      readReg .h s.h fun h =>
      readReg .acc s.acc fun acc =>
      readReg .buf s.buf fun buf =>
      .next <|
        { s with
          acc := some (absorb h (acc, buf) aad).1, buf := some (absorb h (acc, buf) aad).2,
          alen := some (alen + BitVec.ofNat 64 aad.length), phase := p }.respond .ok [] []

/-- R94: ADD_AAD on the chip. -/
def execAddAad (aad : List Byte) (s : State) : Host.Outcome State Fault Refusal := execAddAadIn Config.chip aad s

/-- R96: FINISH_AAD: CloseAAD (R97), then PHASE ← AADDONE. It uses no parameter of the configuration. -/
def execFinishAad (s : State) : Host.Outcome State Fault Refusal :=
  match transition s.phase .finishAad with
  | none => .next (s.raiseError .sequenceError)
  | some p =>
    readReg .h s.h fun h =>
    readReg .acc s.acc fun acc =>
    readReg .buf s.buf fun buf =>
    .next <| { s with acc := some (foldPartial h acc buf), buf := some [], phase := p }.respond .ok [] []

end Sys2Proof.Machine
end

