-- ==== Sys2Proof/Machine/Data.lean ====
section
/-! DEFINITION. Machine/Data.lean: the commands that process data and finish a session: PROCESS and FINISH
(43_session_commands.md R98 to R103). -/

namespace Sys2Proof.Machine

/-- R97, R98: the registers PROCESS starts from. In IVSET it first closes the AAD; in AADDONE and DATADONE it continues. -/
def openStream (p : Phase) (h acc ctr : Block) (ks : Option Block) (buf : List Byte) : Stream :=
  if p = .ivSet then { acc := foldPartial h acc buf, ctr := ctr, ks := ks, buf := [], out := [], requests := [] }
  else { acc := acc, ctr := ctr, ks := ks, buf := buf, out := [], requests := [] }

/-- R15, R25: XOR_BYTE reads KS while BUFLEN > 0; the read fails where KS holds no value. -/
def readKs (d : Stream) (k : Host.Outcome State Fault Refusal) : Host.Outcome State Fault Refusal :=
  if d.buf = [] then k else readReg .ks d.ks fun _ => k

/-- R98, R99: where the output bytes go: emitted in an ENC session, held in a DEC session. -/
def emitted (dir : Dir) (out : List Byte) : List Byte :=
  match dir with
  | .enc => out
  | .dec => []

/-- R99: the bytes appended to HOLD. -/
def heldBack (dir : Dir) (out : List Byte) : List Byte :=
  match dir with
  | .enc => []
  | .dec => out

/-- R98: the state PROCESS leaves: the stream's registers written back, DLEN, HOLD, PHASE, the cipher requests and the
response. -/
def State.closeStream (s : State) (p : Phase) (dir : Dir) (dlen : BitVec 64) (len : Nat) (d : Stream) : State :=
  ({ s with
      acc := some d.acc, ctr := some d.ctr, ks := d.ks, buf := some d.buf,
      dlen := some (dlen + BitVec.ofNat 64 len), hold := s.hold ++ heldBack dir d.out,
      phase := p }.request d.requests).respond .ok (emitted dir d.out) []

/-- R98: PROCESS. Both capacity checks come before any byte is processed (D17). -/
def execProcessIn (c : Config) (data : List Byte) (s : State) : Host.Outcome State Fault Refusal :=
  match transition s.phase (.process data) with
  | none => .next (s.raiseError .sequenceError)
  | some p =>
    readReg .dlen s.dlen fun dlen =>
    if dataFits dlen data.length = false then .next (s.raiseError .capacityExceeded)
    else
      readReg .dir s.dir fun dir =>
      if holdFits c dir s.hold.length data.length = false then .next (s.raiseError .capacityExceeded)
      else
        readReg .keyctx s.keyctx fun key =>
        readReg .h s.h fun h =>
        readReg .acc s.acc fun acc =>
        readReg .ctr s.ctr fun ctr =>
        readReg .buf s.buf fun buf =>
        readKs (openStream s.phase h acc ctr s.ks buf) <|
        .next <|
          s.closeStream p dir dlen data.length
            (xorBytes c key h dir (openStream s.phase h acc ctr s.ks buf) data)

/-- R98: PROCESS on the chip. -/
def execProcess (data : List Byte) (s : State) : Host.Outcome State Fault Refusal := execProcessIn Config.chip data s

/-- R100: ACC after FINISH has folded the partial ciphertext block, if any, and the length block, in bits. -/
def finalAcc (h acc : Block) (buf : List Byte) (alen dlen : BitVec 64) : Block :=
  ghLenBlock h (foldPartial h acc buf) (8 * alen.toNat) (8 * dlen.toNat)

/-- R101: the tag, the first TAGLEN bytes of `EK0 ⊕ ACC`. -/
def sessionTag (ek0 acc : Block) (taglen : BitVec 5) : List Byte := (blockBytes (ek0 ^^^ acc)).take taglen.toNat

/-- R100, R102, R103: the end of a session once its tag `t` is computed. ENC emits it; DEC compares, and releases HOLD or
raises AuthenticationError. -/
def conclude (p : Phase) (dir : Dir) (t expected : List Byte) (s : State) : State :=
  match dir with
  | .enc => (s.endSession p).respond .ok [] t
  | .dec => if t = expected then (s.endSession p).respond .ok s.hold [] else s.raiseError .authenticationError

/-- R100: FINISH. The length of the expected tag is checked before the tag is computed (D20). It uses no parameter of the
configuration. -/
def execFinish (expected : List Byte) (s : State) : Host.Outcome State Fault Refusal :=
  match transition s.phase (.finish expected) with
  | none => .next (s.raiseError .sequenceError)
  | some p =>
    readReg .dir s.dir fun dir =>
    readReg .taglen s.taglen fun taglen =>
    if finishLengthOk dir taglen expected.length = false then .next (s.raiseError .invalidTagLength)
    else
      readReg .h s.h fun h =>
      readReg .acc s.acc fun acc =>
      readReg .buf s.buf fun buf =>
      readReg .alen s.alen fun alen =>
      readReg .dlen s.dlen fun dlen =>
      readReg .ek0 s.ek0 fun ek0 =>
      .next (conclude p dir (sessionTag ek0 (finalAcc h acc buf alen dlen) taglen) expected s)

end Sys2Proof.Machine
end

