-- ==== Sys2Proof/Machine/Setup.lean ====
section
/-! DEFINITION. Machine/Setup.lean: the commands that create a session and derive its initial counter: INIT and SET_IV
(43_session_commands.md R90 to R93). -/

namespace Sys2Proof.Machine

/-- R90: the registers of a session just created: no IV yet, nothing absorbed, HOLD empty, ERR cleared. -/
def State.createSession (s : State) (c : Config) (d : Dir) (t : BitVec 5) (key : Key) : State :=
  { s with
    keyctx := some key, h := some (c.cipher key 0), acc := some 0, alen := some 0, dlen := some 0, buf := some [],
    dir := some d, taglen := some t, hold := [], ctr := none, ek0 := none, ks := none, err := .ok, phase := .created }

/-- R90, R91: INIT. Admitted in every phase. The key set-up request goes out whatever the outcome (R35); the key length
is checked before the tag length. -/
def execInitIn (c : Config) (d : Dir) (t : BitVec 5) (key : Key) (s : State) : Host.Outcome State Fault Refusal :=
  .next <|
    if keyLengthOk c key.length = false then (s.request [.keySetup key]).raiseError .invalidKeyLength
    else if tagLengthOk c t = false then (s.request [.keySetup key]).raiseError .invalidTagLength
    else ((s.request [.keySetup key, .encrypt 0]).createSession c d t key).respond .ok [] []

/-- R90: INIT on the chip. -/
def execInit (d : Dir) (t : BitVec 5) (key : Key) (s : State) : Host.Outcome State Fault Refusal :=
  execInitIn Config.chip d t key s

/-- R92: SET_IV: EK0 = E(J0), CTR = inc32(J0), ACC = 0. -/
def execSetIvIn (c : Config) (iv : List Byte) (s : State) : Host.Outcome State Fault Refusal :=
  match transition s.phase (.setIv iv) with
  | none => .next (s.raiseError .sequenceError)
  | some p =>
    if ivLengthOk iv.length = false then .next (s.raiseError .invalidIvLength)
    else
      readReg .keyctx s.keyctx fun key =>
      readReg .h s.h fun h =>
      .next <|
        ({ s with
            ek0 := some (c.cipher key (deriveJ0 h iv)), ctr := some (inc32 (deriveJ0 h iv)), acc := some 0,
            phase := p }.request [.encrypt (deriveJ0 h iv)]).respond .ok [] []

/-- R92: SET_IV on the chip. -/
def execSetIv (iv : List Byte) (s : State) : Host.Outcome State Fault Refusal := execSetIvIn Config.chip iv s

end Sys2Proof.Machine
end

