-- ==== Sys2Proof/Machine/Dispatch.lean ====
section
/-! DEFINITION. Machine/Dispatch.lean: one arm per command of the opcode table. -/

namespace Sys2Proof.Machine

def exec (i : Instr) (s : State) : Host.Outcome State Fault Refusal :=
  match i with
  | .init dir taglen key => Sys2Proof.Machine.execInit dir taglen key s
  | .setIv iv => Sys2Proof.Machine.execSetIv iv s
  | .addAad aad => Sys2Proof.Machine.execAddAad aad s
  | .finishAad => Sys2Proof.Machine.execFinishAad s
  | .process data => Sys2Proof.Machine.execProcess data s
  | .finish expected => Sys2Proof.Machine.execFinish expected s

end Sys2Proof.Machine
end

