-- ==== Sys2Proof/WellFormed.lean ====
section
/-! DEFINITION. WellFormed.lean: the commands that a header can carry (00_scope.md R4 LEN_BITS, 30_encoding.md R41). -/

namespace Sys2Proof

/-- R41: LEN is a 32-bit field, so one command carries at most 2^32 - 1 payload bytes. Every other operand is held by
its type: DIR is one bit, TAGLEN five, and FINISH_AAD has no payload (log 10). -/
def Instr.wellFormed (i : Instr) : Bool := decide (i.payload.length < 2 ^ 32)

end Sys2Proof
end

