-- ==== Sys2Proof/Decode.lean ====
section
/-! DEFINITION. Decode.lean: the command encoding of 30_encoding.md, the decoder first and the encoder after it. -/

namespace Sys2Proof

/-- R43, R45, R46: why a (header, payload) pair is not a legal command. Every one of them raises IllegalCommand. -/
inductive Illegal where
  /-- Condition 1: OP is not one of 0x01 to 0x06. -/
  | reservedOp
  /-- Condition 2: RSV0 or RSV1 is not 0. -/
  | reservedBits
  /-- Condition 3: ARG is not 0 outside INIT. -/
  | argument
  /-- Condition 4: LEN is not 0 in FINISH_AAD. -/
  | finishAadLength
  /-- Condition 5: the payload has not LEN bytes. -/
  | payloadLength
  deriving DecidableEq, Repr

/-- R42: OP = header[63:56]. -/
def opField (h : Header) : BitVec 8 := h.extractLsb' 56 8

/-- R42: DIR = header[55]. -/
def dirField (h : Header) : Bool := h.getLsbD 55

/-- R41: RSV1 = header[54:53]. -/
def rsv1Field (h : Header) : BitVec 2 := h.extractLsb' 53 2

/-- R42: TAGLEN = header[52:48]. -/
def taglenField (h : Header) : BitVec 5 := h.extractLsb' 48 5

/-- R41: ARG = header[55:48], which is DIR, RSV1 and TAGLEN together. -/
def argField (h : Header) : BitVec 8 := h.extractLsb' 48 8

/-- R41: RSV0 = header[47:32]. -/
def rsv0Field (h : Header) : BitVec 16 := h.extractLsb' 32 16

/-- R42: LEN = header[31:0]. -/
def lenField (h : Header) : BitVec 32 := h.extractLsb' 0 32

/-- R19: the direction a DIR bit names, ENC = 0 and DEC = 1. -/
def Dir.ofBit (b : Bool) : Dir := if b then .dec else .enc

/-- R42, R44: the command whose OP is `op`, with its operands taken from the header and the payload. Read only for the
six OPs of R44, of which 0x06 is the last. -/
def instrOf (h : Header) (payload : List Byte) : Instr :=
  if opField h = 0x01 then .init (Dir.ofBit (dirField h)) (taglenField h) payload
  else if opField h = 0x02 then .setIv payload
  else if opField h = 0x03 then .addAad payload
  else if opField h = 0x04 then .finishAad
  else if opField h = 0x05 then .process payload
  else .finish payload

/-- R43: decoding, total on every (header, payload) pair; the five conditions in the order of the rule. -/
def decode (h : Header) (payload : List Byte) : Except Illegal Instr :=
  if opField h = 0 ∨ 6 < (opField h).toNat then .error .reservedOp
  else if rsv0Field h ≠ 0 ∨ rsv1Field h ≠ 0 then .error .reservedBits
  else if opField h ≠ 0x01 ∧ argField h ≠ 0 then .error .argument
  else if opField h = 0x04 ∧ lenField h ≠ 0 then .error .finishAadLength
  else if payload.length ≠ (lenField h).toNat then .error .payloadLength
  else .ok (instrOf h payload)

/-- R44: one row of the opcode map. -/
structure Row where
  mnemonic : String
  value : Header
  mask : Header
  deriving DecidableEq, Repr

/-- R44: the opcode map, row for row. -/
def opcodeRows : List Row :=
  [ ⟨"INIT",       0x0100000000000000, 0xFF60FFFF00000000⟩,
    ⟨"SET_IV",     0x0200000000000000, 0xFFFFFFFF00000000⟩,
    ⟨"ADD_AAD",    0x0300000000000000, 0xFFFFFFFF00000000⟩,
    ⟨"FINISH_AAD", 0x0400000000000000, 0xFFFFFFFFFFFFFFFF⟩,
    ⟨"PROCESS",    0x0500000000000000, 0xFFFFFFFF00000000⟩,
    ⟨"FINISH",     0x0600000000000000, 0xFFFFFFFF00000000⟩ ]

/-- R44: a header selects the row with `h AND mask = match`. -/
def Row.selects (r : Row) (h : Header) : Bool := h &&& r.mask == r.value

/-- R44: the mnemonic of a command's row. -/
def Instr.mnemonic : Instr → String
  | .init _ _ _ => "INIT"
  | .setIv _ => "SET_IV"
  | .addAad _ => "ADD_AAD"
  | .finishAad => "FINISH_AAD"
  | .process _ => "PROCESS"
  | .finish _ => "FINISH"

/-- The bits of an instruction numbered as the opcode table numbers them (bit 0 the header's least significant): the
header is the first 64, payload byte `i` the eight from bit 64 + 8 i on. -/
def tableHeader (nbits w : Nat) : Header := BitVec.ofNat 64 (w % 2 ^ nbits)

/-- The LEN payload bytes of that instruction; bits the table does not give are 0. -/
def tablePayload (nbits w : Nat) : List Byte :=
  (List.range (lenField (tableHeader nbits w)).toNat).map fun i => BitVec.ofNat 8 ((w % 2 ^ nbits) >>> (64 + 8 * i))

/-- What the decoder reads from an instruction whose bits are `w`. -/
def decodeTableWord (nbits w : Nat) : Option Instr :=
  match decode (tableHeader nbits w) (tablePayload nbits w) with
  | .ok i => some i
  | .error _ => none

/-! ### The encoder -/

/-- R19: the DIR bit. -/
def Dir.toBit : Dir → Bool
  | .enc => false
  | .dec => true

/-- R44: the OP of a command. -/
def Instr.op : Instr → BitVec 8
  | .init _ _ _ => 0x01
  | .setIv _ => 0x02
  | .addAad _ => 0x03
  | .finishAad => 0x04
  | .process _ => 0x05
  | .finish _ => 0x06

/-- R41: the ARG byte of a command: DIR, two zero bits and TAGLEN in INIT, zero elsewhere. -/
def Instr.arg : Instr → BitVec 8
  | .init d t _ => BitVec.ofBool d.toBit ++ (0 : BitVec 2) ++ t
  | _ => 0

/-- R41, R42: the header of a command: OP, ARG, RSV0 = 0 and LEN, the payload's length. -/
def encode (i : Instr) : Header := i.op ++ i.arg ++ (0 : BitVec 16) ++ BitVec.ofNat 32 i.payload.length

end Sys2Proof
end

