-- ==== Sys2Proof/Machine/Ports.lean ====
section
/-! DEFINITION. Machine/Ports.lean: taking the next host event from CMD and DIN (20_memory.md R30, R36), and placing one. -/

namespace Sys2Proof.Machine

/-- R36: the next event the host presents, and the state without it; none when the host presents nothing. -/
def State.takeEvent (s : State) : Option (HostEvent × State) :=
  match s.host with
  | [] => none
  | e :: rest => some (e, { s with host := rest })

/-- The host presents `e` before everything else it still has to present. -/
def State.present (s : State) (e : HostEvent) : State := { s with host := e :: s.host }

/-- R31, R40: the event of one well-formed command, its header and its payload. -/
def commandEvent (i : Instr) : HostEvent := .command (encode i) i.payload

/-- The event of the instruction whose bits are `w`, numbered as the opcode table numbers them. -/
def tableEvent (nbits w : Nat) : HostEvent := .command (tableHeader nbits w) (tablePayload nbits w)

end Sys2Proof.Machine
end

