-- ==== Sys2Proof/Machine/Step.lean ====
section
/-! DEFINITION. Machine/Step.lean: one step of the core (00_scope.md R9): one host event. -/

namespace Sys2Proof.Machine

/-- R9, R36, R43: one host event, decode first. An illegal command raises IllegalCommand whatever the phase (R127).
Reset takes effect between commands (R150, log 8). With no event pending the core waits (R28, R150; log 7).
One event a step: overlapping commands cannot be written (R37; log 9). -/
def step (s : State) : Host.Outcome State Fault Refusal :=
  match s.takeEvent with
  | none => .next s
  | some (.reset, t) => .next t.hardwareReset
  | some (.command hdr payload, t) =>
    match decode hdr payload with
    | .ok i => exec i t
    | .error _ => .next (t.raiseError .illegalCommand)

/-- The instruction whose bits are `w` presented as the next command (log 11). -/
def State.withFetchWord (s : State) (nbits w : Nat) : State := s.present (tableEvent nbits w)

end Sys2Proof.Machine
end

