-- ==== Sys2Proof/Machine/Facade.lean ====
section
/-! DEFINITION. Machine/Facade.lean: the pseudo-commands SEAL and OPEN (44_oneshot_facade.md): fixed sequences of real
commands issued by the host side of the command port. -/

namespace Sys2Proof.Machine

/-- R41, R49: the longest payload one command carries, 2^32 - 1 bytes. -/
def maxPayload : Nat := 2 ^ 32 - 1

/-- R110: a byte string cut into pieces of at most `n` bytes, at most `fuel` cuts; the empty string is one empty piece. -/
def pieces (n : Nat) : Nat → List Byte → List (List Byte)
  | 0, s => [s]
  | fuel + 1, s => if s.length ≤ n then [s] else s.take n :: pieces n fuel (s.drop n)

/-- R49, R110: the pieces the facade issues. -/
def cut (s : List Byte) : List (List Byte) := pieces maxPayload s.length s

/-- R110, R111: the expansion of SEAL and OPEN (log 13): `tag` is the expected tag of OPEN, empty in SEAL; the tag length is
16 where `taglen` is omitted. The key, the IV and the expected tag go out whole, whatever their length (log 15). -/
def facadeCommands (dir : Dir) (key iv aad data tag : List Byte) (taglen : Option (BitVec 5)) : List Instr :=
  .init dir (taglenOrDefault taglen) key :: .setIv iv ::
    ((cut aad).map Instr.addAad ++ .finishAad :: ((cut data).map Instr.process ++ [Instr.finish tag]))

/-- R110: the expansion of SEAL. -/
def sealCommands (key iv aad plaintext : List Byte) (taglen : Option (BitVec 5)) : List Instr :=
  facadeCommands .enc key iv aad plaintext [] taglen

/-- R111: the expansion of OPEN. -/
def openCommands (key iv aad ciphertext tag : List Byte) (taglen : Option (BitVec 5)) : List Instr :=
  facadeCommands .dec key iv aad ciphertext tag taglen

/-- One command presented and executed: the host issues it on the command port. DESIGN CHOICE (log 15): a key, IV or expected
tag of 2^32 bytes or more, which no header expresses, is issued with LEN its length modulo 2^32, so that the core answers
IllegalCommand and the expansion stops. -/
def issue (i : Instr) (s : State) : Host.Outcome State Fault Refusal := step (s.present (commandEvent i))

/-- The status of the response returned last; OK before any. -/
def State.lastStatus (s : State) : Status := (s.rsp.getLast?.map Response.status).getD .ok

/-- R110, R111: commands issued one after another; if any command's status is not OK the expansion stops there. -/
def issueAll (ex : Instr → State → Host.Outcome State Fault Refusal) :
    List Instr → State → Host.Outcome State Fault Refusal
  | [], s => .next s
  | i :: is, s =>
    match ex i s with
    | .next t => if t.lastStatus = .ok then issueAll ex is t else .next t
    | .fault f => .fault f
    | .refused r => .refused r

/-- The responses `t` has and `s` had not yet. -/
def newResponses (s t : State) : List Response := t.rsp.drop s.rsp.length

/-- R110: SEAL's result: the ciphertext (the dout of every PROCESS, in order) and the tag, or the first status not OK. -/
def sealResult (s t : State) : Except Status (List Byte × List Byte) :=
  if t.lastStatus = .ok then
    .ok ((newResponses s t).flatMap Response.dout, (newResponses s t).flatMap Response.tag)
  else .error t.lastStatus

/-- R111: OPEN's result: the plaintext (the dout of the FINISH response; every other dout is empty), or the first status
not OK. -/
def openResult (s t : State) : Except Status (List Byte) :=
  if t.lastStatus = .ok then .ok ((newResponses s t).flatMap Response.dout) else .error t.lastStatus

/-- R49, R110: SEAL on the chip, `taglen` omitted or given. -/
def facadeSeal (key iv aad plaintext : List Byte) (taglen : Option (BitVec 5)) (s : State) :
    Host.Outcome State Fault Refusal :=
  issueAll issue (sealCommands key iv aad plaintext taglen) s

/-- R49, R111: OPEN on the chip, `taglen` omitted or given. -/
def facadeOpen (key iv aad ciphertext tag : List Byte) (taglen : Option (BitVec 5)) (s : State) :
    Host.Outcome State Fault Refusal :=
  issueAll issue (openCommands key iv aad ciphertext tag taglen) s

end Sys2Proof.Machine
end

