-- ==== Sys2Proof/Machine/Assembler.lean ====
section
/-! DEFINITION. Machine/Assembler.lean: the assembler syntax of 30_encoding.md R48 and R49 (log 12): one command or
pseudo-command a line, byte strings in hex. -/

namespace Sys2Proof.Machine

/-- The value of a hex digit. -/
def hexDigit (ch : Char) : Option Nat :=
  let n := ch.toNat
  if 48 ≤ n ∧ n ≤ 57 then some (n - 48)
  else if 97 ≤ n ∧ n ≤ 102 then some (n - 87)
  else if 65 ≤ n ∧ n ≤ 70 then some (n - 55)
  else none

/-- R5: a hex string lists bytes in index order, two digits a byte. -/
def hexBytes : List Char → Option (List Byte)
  | [] => some []
  | [_] => none
  | a :: b :: rest =>
    match hexDigit a, hexDigit b, hexBytes rest with
    | some x, some y, some s => some (BitVec.ofNat 8 (16 * x + y) :: s)
    | _, _, _ => none

/-- R48: a byte string operand; `-` or nothing is the empty string. -/
def byteOperand (t : List Char) : Option (List Byte) := if t = ['-'] then some [] else hexBytes t

/-- R48: the tag length operand, decimal, 0..31 (what the TAGLEN field represents, R41). -/
def taglenOperand (t : List Char) : Option (BitVec 5) :=
  let value := t.foldl (fun n ch => n.bind fun n =>
    if 48 ≤ ch.toNat ∧ ch.toNat ≤ 57 then some (10 * n + (ch.toNat - 48)) else none) (some 0)
  match t, value with
  | _ :: _, some n => if n < 32 then some (BitVec.ofNat 5 n) else none
  | _, _ => none

/-- R48: the direction operand. -/
def dirOperand (t : List Char) : Option Dir :=
  if t = ['E', 'N', 'C'] then some .enc else if t = ['D', 'E', 'C'] then some .dec else none

/-- The text without its spaces, cut at the commas. -/
def splitOperands (text : List Char) : List (List Char) :=
  text.foldr (fun ch acc =>
    if ch = ' ' then acc
    else if ch = ',' then [] :: acc
    else match acc with
      | [] => [[ch]]
      | t :: ts => (ch :: t) :: ts) [[]]

/-- R48: the command of a mnemonic and its operands; an omitted taglen assembles as 16. -/
def assembleCommand (mnemonic : List Char) (operands : List (List Char)) : Option Instr :=
  if mnemonic = ['I', 'N', 'I', 'T'] then
    match operands with
    | [d, key] =>
      match dirOperand d, byteOperand key with
      | some d, some key => some (.init d (taglenOrDefault none) key)
      | _, _ => none
    | [d, t, key] =>
      match dirOperand d, taglenOperand t, byteOperand key with
      | some d, some t, some key => some (.init d t key)
      | _, _, _ => none
    | _ => none
  else
    match operands with
    | [text] =>
      if mnemonic = ['S', 'E', 'T', '_', 'I', 'V'] then (byteOperand text).map .setIv
      else if mnemonic = ['A', 'D', 'D', '_', 'A', 'A', 'D'] then (byteOperand text).map .addAad
      else if mnemonic = ['P', 'R', 'O', 'C', 'E', 'S', 'S'] then (byteOperand text).map .process
      else if mnemonic = ['F', 'I', 'N', 'I', 'S', 'H'] then (byteOperand text).map .finish
      else if mnemonic = ['F', 'I', 'N', 'I', 'S', 'H', '_', 'A', 'A', 'D'] ∧ text = [] then some .finishAad
      else none
    | _ => none

/-- R48: one line: the mnemonic up to the first space, then the operands separated by commas. -/
def assembleLine (line : List Char) : Option Instr :=
  assembleCommand (line.takeWhile (· ≠ ' ')) (splitOperands (line.dropWhile (· ≠ ' ')))

/-- R48: the header and payload a line assembles to; LEN is the byte length of the hex operand. DESIGN CHOICE (log 12): a
line whose operand has 2^32 bytes or more, which LEN cannot express (R41), is refused. -/
def assemble (line : List Char) : Option (Header × List Byte) :=
  match assembleLine line with
  | some i => if i.wellFormed then some (encode i, i.payload) else none
  | none => none

/-- R49: the taglen operand of a pseudo-command, the operands `rest` after the byte strings: omitted or decimal. -/
def taglenRest (rest : List (List Char)) : Option (Option (BitVec 5)) :=
  match rest with
  | [] => some none
  | [t] => (taglenOperand t).map some
  | _ => none

/-- R49: the commands of a pseudo-command and its operands: `SEAL key, iv, aad, plaintext [, taglen]` and
`OPEN key, iv, aad, ciphertext, tag [, taglen]`. -/
def facadeOperands (mnemonic : List Char) (operands : List (List Char)) : Option (List Instr) :=
  if mnemonic = ['S', 'E', 'A', 'L'] then
    match operands with
    | key :: iv :: aad :: data :: rest =>
      match byteOperand key, byteOperand iv, byteOperand aad, byteOperand data, taglenRest rest with
      | some key, some iv, some aad, some data, some taglen => some (sealCommands key iv aad data taglen)
      | _, _, _, _, _ => none
    | _ => none
  else if mnemonic = ['O', 'P', 'E', 'N'] then
    match operands with
    | key :: iv :: aad :: data :: tag :: rest =>
      match byteOperand key, byteOperand iv, byteOperand aad, byteOperand data, byteOperand tag, taglenRest rest with
      | some key, some iv, some aad, some data, some tag, some taglen => some (openCommands key iv aad data tag taglen)
      | _, _, _, _, _, _ => none
    | _ => none
  else none

/-- R49: the commands a pseudo-command line expands to. -/
def assembleFacade (line : List Char) : Option (List Instr) :=
  facadeOperands (line.takeWhile (· ≠ ' ')) (splitOperands (line.dropWhile (· ≠ ' ')))

end Sys2Proof.Machine
end

