-- ==== Sys2Proof/Safety.lean ====
section
/-! DEFINITION. Safety.lean: what the claims are stated in: the invariant of every reachable state (10_state.md R25, R26),
the message a session stands for (R26), the function a session computes (43_session_commands.md R105), and the polynomial
view of a Block (00_scope.md R6). -/

namespace Sys2Proof

/-- INIT, the one command that begins a session (R82). -/
def Instr.isInit : Instr → Bool
  | .init _ _ _ => true
  | _ => false

/-- SET_IV, the one command that gives CTR and EK0 a value (R13, R14). -/
def Instr.isSetIv : Instr → Bool
  | .setIv _ => true
  | _ => false

/-- FINISH, the one command that releases plaintext or a tag. -/
def Instr.isFinish : Instr → Bool
  | .finish _ => true
  | _ => false

end Sys2Proof

namespace Sys2Proof.Machine

/-- R10: the state elements alone, the ports left out. Two states with equal registers are the same core. -/
def State.registers (s : State) : State := { s with host := [], rsp := [], ciph := [] }

/-! ### The invariant -/

/-- R25, R26: what holds in every phase that has a session: the elements that have a value in all of them, and their
bounds. -/
structure State.Live (c : Config) (s : State) : Prop where
  key : ∃ k, s.keyctx = some k ∧ keyLengthOk c k.length = true ∧ s.h = some (c.cipher k 0)
  acc : s.acc.isSome = true
  alen : ∃ a, s.alen = some a ∧ a.toNat ≤ c.maxAad
  dlen : ∃ n, s.dlen = some n ∧ n.toNat ≤ Config.maxData
  dir : s.dir.isSome = true
  taglen : ∃ t, s.taglen = some t ∧ tagLengthOk c t = true
  buf : ∃ b, s.buf = some b ∧ b.length ≤ 15
  hold : s.hold.length ≤ c.holdCap

/-- R13, R14: the elements SET_IV gives a value. -/
def State.IvKnown (s : State) : Prop := s.ctr.isSome = true ∧ s.ek0.isSome = true

/-- R25, R26: the row of R25's table for the phase, and R26's relations between the lengths. In a phase without a session
nothing but PHASE, ERR and the ports holds anything. ERR is 0 exactly outside FAILED (R22). -/
def State.PhaseInv (c : Config) (s : State) : Prop :=
  match s.phase with
  | .idle => s.dropSession = s
  | .finished => s.dropSession = s
  | .failed => s.dropSession = s
  | .created =>
    s.Live c ∧ s.ctr = none ∧ s.ek0 = none ∧ s.ks = none ∧ s.acc = some 0 ∧ s.alen = some 0 ∧ s.dlen = some 0 ∧
      s.buf = some [] ∧ s.hold = []
  | .ivSet =>
    s.Live c ∧ s.IvKnown ∧ s.ks = none ∧ s.dlen = some 0 ∧ s.hold = [] ∧
      (∀ a b, s.alen = some a → s.buf = some b → b.length = a.toNat % 16)
  | .aadDone =>
    s.Live c ∧ s.IvKnown ∧ s.ks = none ∧ s.dlen = some 0 ∧ s.hold = [] ∧ s.buf = some []
  | .dataDone =>
    s.Live c ∧ s.IvKnown ∧ (s.ks = none ↔ s.buf = some []) ∧
      (∀ n b, s.dlen = some n → s.buf = some b → b.length = n.toNat % 16) ∧
      (s.dir = some .enc → s.hold = []) ∧
      (∀ n, s.dir = some .dec → s.dlen = some n → s.hold.length = n.toNat)

/-- R22, R25, R26: the invariant of every reachable state. -/
def State.Inv (c : Config) (s : State) : Prop := s.PhaseInv c ∧ (s.err = .ok ↔ s.phase ≠ .failed)

/-! ### The message a session stands for -/

/-- R26, R105: what a host has given a session so far: the key, the direction and the tag length of INIT, the IV of SET_IV,
all ADD_AAD payloads and all PROCESS payloads concatenated. -/
structure Message where
  dir : Dir
  taglen : BitVec 5
  key : Key
  iv : List Byte
  aad : List Byte
  data : List Byte
  deriving DecidableEq, Repr

/-- R11: H, the Hash Subkey of a key. -/
def subkey (c : Config) (key : Key) : Block := c.cipher key 0

/-- R93: the initial counter of a message. -/
def Message.j0 (c : Config) (m : Message) : Block := deriveJ0 (subkey c m.key) m.iv

/-- R77, R105: keystream byte `i` of a session: byte `i mod 16` of `E(inc32^(1 + i div 16)(J0))`. -/
def keystreamByte (c : Config) (key : Key) (j0 : Block) (i : Nat) : Byte :=
  blockByte (c.cipher key (inc32Iter j0 (1 + i / 16))) (i % 16)

/-- R105: a byte string XORed with the session's keystream from its start. -/
def xorKeystream (c : Config) (key : Key) (j0 : Block) (s : List Byte) : List Byte :=
  s.mapIdx fun i b => b ^^^ keystreamByte c key j0 i

/-- R26, R105: the ciphertext: the emitted bytes when encrypting, the data itself when decrypting. -/
def Message.ciphertext (c : Config) (m : Message) : List Byte :=
  match m.dir with
  | .enc => xorKeystream c m.key (m.j0 c) m.data
  | .dec => m.data

/-- R26: the complete 16-byte chunks of a byte string. -/
def fullPart (s : List Byte) : List Byte := s.take (16 * (s.length / 16))

/-- R26: the bytes after the last complete 16-byte chunk. -/
def restPart (s : List Byte) : List Byte := s.drop (16 * (s.length / 16))

/-- R67: what a whole session accumulates: AAD then ciphertext, padded and length-appended. -/
def Message.hashInput (c : Config) (m : Message) : List Byte :=
  pad16 m.aad ++ pad16 (m.ciphertext c) ++ bigEndian64 (8 * m.aad.length) ++ bigEndian64 (8 * (m.ciphertext c).length)

/-- R105: the tag of a message, `T = (E K J0 xor S)[0..t)`. -/
def Message.tag (c : Config) (m : Message) : List Byte :=
  (blockBytes (c.cipher m.key (m.j0 c) ^^^ ghash (subkey c m.key) (m.hashInput c))).take m.taglen.toNat

/-- R26: what KEYCTX, H, DIR, TAGLEN, ALEN, DLEN and ERR hold in every phase of the session of `m`. -/
structure Message.Common (c : Config) (m : Message) (s : State) : Prop where
  keyctx : s.keyctx = some m.key
  h : s.h = some (subkey c m.key)
  dir : s.dir = some m.dir
  taglen : s.taglen = some m.taglen
  alen : s.alen = some (BitVec.ofNat 64 m.aad.length)
  alen_le : m.aad.length ≤ c.maxAad
  dlen : s.dlen = some (BitVec.ofNat 64 m.data.length)
  dlen_le : m.data.length ≤ Config.maxData
  err : s.err = .ok

/-- R26: the session of `m` in CREATED (no IV, AAD or data yet). -/
structure Message.Created (c : Config) (m : Message) (s : State) : Prop extends m.Common c s where
  phase : s.phase = .created
  acc : s.acc = some 0
  buf : s.buf = some []
  ctr : s.ctr = none
  ek0 : s.ek0 = none
  ks : s.ks = none
  hold : s.hold = []
  no_aad : m.aad = []
  no_data : m.data = []

/-- R26: the session of `m` in IVSET. -/
structure Message.IvSet (c : Config) (m : Message) (s : State) : Prop extends m.Common c s where
  phase : s.phase = .ivSet
  acc : s.acc = some (ghash (subkey c m.key) (fullPart m.aad))
  buf : s.buf = some (restPart m.aad)
  ctr : s.ctr = some (inc32 (m.j0 c))
  ek0 : s.ek0 = some (c.cipher m.key (m.j0 c))
  ks : s.ks = none
  hold : s.hold = []
  no_data : m.data = []

/-- R26: the session of `m` in AADDONE. -/
structure Message.AadDone (c : Config) (m : Message) (s : State) : Prop extends m.Common c s where
  phase : s.phase = .aadDone
  acc : s.acc = some (ghash (subkey c m.key) (pad16 m.aad))
  buf : s.buf = some []
  ctr : s.ctr = some (inc32 (m.j0 c))
  ek0 : s.ek0 = some (c.cipher m.key (m.j0 c))
  ks : s.ks = none
  hold : s.hold = []
  no_data : m.data = []

/-- R26: the number of keystream blocks `n` data bytes have begun, `⌈n/16⌉`. -/
def blocksBegun (n : Nat) : Nat := (n + 15) / 16

/-- R26: the session of `m` in DATADONE. -/
structure Message.DataDone (c : Config) (m : Message) (s : State) : Prop extends m.Common c s where
  phase : s.phase = .dataDone
  acc : s.acc = some (ghash (subkey c m.key) (pad16 m.aad ++ fullPart (m.ciphertext c)))
  buf : s.buf = some (restPart (m.ciphertext c))
  ctr : s.ctr = some (inc32Iter (m.j0 c) (1 + blocksBegun m.data.length))
  ek0 : s.ek0 = some (c.cipher m.key (m.j0 c))
  ks : s.ks = if m.data.length % 16 = 0 then none
    else some (c.cipher m.key (inc32Iter (m.j0 c) (blocksBegun m.data.length)))
  hold : s.hold = if m.dir = .dec then xorKeystream c m.key (m.j0 c) m.data else []

/-! ### Assembler lines (30_encoding.md R48, R49) -/

/-- A hex digit of four bits. -/
def hexChar (n : BitVec 4) : Char := Char.ofNat (if n.toNat < 10 then 48 + n.toNat else 87 + n.toNat)

/-- R5: a byte string in hex, byte 0 first, the high digit of a byte first. -/
def hexText (s : List Byte) : List Char := s.flatMap fun b => [hexChar (b.extractLsb' 4 4), hexChar (b.extractLsb' 0 4)]

/-- A tag length in decimal, two digits. -/
def decimalText (t : BitVec 5) : List Char := [Char.ofNat (48 + t.toNat / 10), Char.ofNat (48 + t.toNat % 10)]

/-- R48: the direction operand as a line writes it. -/
def dirText : Dir → List Char
  | .enc => "ENC".toList
  | .dec => "DEC".toList

/-- R48: operands separated by a comma and a space. -/
def joinOperands : List (List Char) → List Char
  | [] => []
  | [x] => x
  | x :: xs => x ++ ',' :: ' ' :: joinOperands xs

/-- R48: a line, the mnemonic and its operands. -/
def lineOf (mnemonic : String) (operands : List (List Char)) : List Char :=
  mnemonic.toList ++ ' ' :: joinOperands operands

/-! ### What a host can tell apart -/

/-- R104: the commands of a session after SET_IV: the AAD in the pieces `as`, FINISH_AAD if `fin`, the data in the pieces
`ds`, FINISH with the payload `e`. -/
def sessionCommands (as : List (List Byte)) (fin : Bool) (ds : List (List Byte)) (e : List Byte) : List Instr :=
  as.map Instr.addAad ++ ((if fin then [Instr.finishAad] else []) ++ (ds.map Instr.process ++ [Instr.finish e]))

/-- R27: the parts of the state that are no secret: the phase, ERR, the direction, the tag length, the counters, how many
bytes wait, and which elements hold a value. -/
def State.publicPart (s : State) :
    Phase × Status × Option Dir × Option (BitVec 5) × Option (BitVec 64) × Option (BitVec 64) × Option Nat × Nat ×
      List Bool :=
  (s.phase, s.err, s.dir, s.taglen, s.alen, s.dlen, s.buf.map List.length, s.hold.length,
    [s.keyctx.isSome, s.h.isSome, s.acc.isSome, s.ctr.isSome, s.ek0.isSome, s.ks.isSome])

/-- The same command but for the bytes of its payload. -/
def sameShape : Instr → Instr → Bool
  | .init d t k, .init d' t' k' => d == d' && t == t' && k.length == k'.length
  | .setIv x, .setIv y => x.length == y.length
  | .addAad x, .addAad y => x.length == y.length
  | .finishAad, .finishAad => true
  | .process x, .process y => x.length == y.length
  | .finish x, .finish y => x.length == y.length
  | _, _ => false

/-! ### The polynomial view -/

/-- R6: `poly(B) = Σ bit_i(B) x^i` over GF(2), coefficient by coefficient: `getMsbD i` is `bit_i`, false from 128 on. -/
def IsPolyOf (b : Block) (p : Polynomial (ZMod 2)) : Prop := ∀ i, p.coeff i = if b.getMsbD i then 1 else 0

/-- R66: `X^m` by GFMUL, with `X^0` = ONE. -/
def gfPow (x : Block) : Nat → Block
  | 0 => gfOne
  | n + 1 => gfmul (gfPow x n) x

end Sys2Proof.Machine
end

