-- ==== Sys2Proof/Certificates/Slice0/Obligations.lean ====
section
/-! DEFINITION. Certificates/Slice0/Obligations.lean: the statements for the provers. -/

open Sys2Proof Sys2Proof.Machine

/-! ### Encoding (30_encoding.md) -/

/-- R40 to R45: decoding the header and payload of a well-formed command gives the command back. -/
def Obligations.DecodeOfEncodeGivesTheCommand : Prop :=
  ∀ i : Instr, i.wellFormed = true → decode (encode i) i.payload = .ok i

/-- R41 to R44: a pair that decodes is the header and payload of the well-formed command it decodes to. -/
def Obligations.EncodeOfDecodeGivesThePair : Prop :=
  ∀ (h : Header) (p : List Byte) (i : Instr), decode h p = .ok i →
    i.wellFormed = true ∧ encode i = h ∧ i.payload = p

/-- R43, R44: a pair is legal exactly under the five conditions; the first four are exactly that the header matches a row
under the row's mask; no header matches two rows. -/
def Obligations.LegalCommandsAreThoseOfTheFiveConditions : Prop :=
  (∀ (h : Header) (p : List Byte), (∃ i, decode h p = .ok i) ↔
    (1 ≤ (opField h).toNat ∧ (opField h).toNat ≤ 6) ∧ (rsv0Field h = 0 ∧ rsv1Field h = 0) ∧
      (opField h ≠ 0x01 → argField h = 0) ∧ (opField h = 0x04 → lenField h = 0) ∧ p.length = (lenField h).toNat) ∧
  (∀ h : Header,
    ((1 ≤ (opField h).toNat ∧ (opField h).toNat ≤ 6) ∧ (rsv0Field h = 0 ∧ rsv1Field h = 0) ∧
      (opField h ≠ 0x01 → argField h = 0) ∧ (opField h = 0x04 → lenField h = 0)) ↔
    ∃ r ∈ opcodeRows, r.selects h = true) ∧
  (∀ (h : Header), ∀ r₁ ∈ opcodeRows, ∀ r₂ ∈ opcodeRows, r₁.selects h = true → r₂.selects h = true → r₁ = r₂)

/-- R41: a header whose reserved fields are 0, as a number. -/
def Obligations.HeaderIsTheSumOfItsFields : Prop :=
  ∀ h : Header, rsv0Field h = 0 → rsv1Field h = 0 →
    h.toNat = (opField h).toNat * 2 ^ 56 + (if dirField h then 1 else 0) * 2 ^ 55 + (taglenField h).toNat * 2 ^ 48 +
      (lenField h).toNat

/-- 95_test_vectors.md section 6: rows E1 to E10, E12 and E13 decode as listed, rows E14 to E23 are illegal. -/
def Obligations.ListedHeadersDecodeAsListed : Prop :=
  (decode 0x0110000000000010 (List.replicate 16 0) = .ok (.init .enc 16 (List.replicate 16 0)) ∧
   decode 0x0190000000000010 (List.replicate 16 0) = .ok (.init .dec 16 (List.replicate 16 0)) ∧
   decode 0x018C000000000020 (List.replicate 32 0) = .ok (.init .dec 12 (List.replicate 32 0)) ∧
   decode 0x0100000000000010 (List.replicate 16 0) = .ok (.init .enc 0 (List.replicate 16 0)) ∧
   decode 0x011F000000000005 (List.replicate 5 0) = .ok (.init .enc 31 (List.replicate 5 0)) ∧
   decode 0x020000000000000C (List.replicate 12 0) = .ok (.setIv (List.replicate 12 0)) ∧
   decode 0x0200000000000000 [] = .ok (.setIv []) ∧
   decode 0x0300000000000014 (List.replicate 20 0) = .ok (.addAad (List.replicate 20 0)) ∧
   decode 0x0400000000000000 [] = .ok .finishAad ∧
   decode 0x050000000000003C (List.replicate 60 0) = .ok (.process (List.replicate 60 0)) ∧
   decode 0x0600000000000000 [] = .ok (.finish []) ∧
   decode 0x0600000000000010 (List.replicate 16 0) = .ok (.finish (List.replicate 16 0))) ∧
  (decode 0x0000000000000000 [] = .error .reservedOp ∧
   decode 0x0700000000000000 [] = .error .reservedOp ∧
   decode 0xFF00000000000000 [] = .error .reservedOp ∧
   decode 0x0130000000000010 (List.replicate 16 0) = .error .reservedBits ∧
   decode 0x0150000000000010 (List.replicate 16 0) = .error .reservedBits ∧
   decode 0x0110000100000010 (List.replicate 16 0) = .error .reservedBits ∧
   decode 0x028000000000000C (List.replicate 12 0) = .error .argument ∧
   decode 0x0510000000000010 (List.replicate 16 0) = .error .argument ∧
   decode 0x0400000000000001 [0] = .error .finishAadLength ∧
   decode 0x0600800000000000 [] = .error .reservedBits ∧
   decode 0x020000000000000C (List.replicate 11 0) = .error .payloadLength)

/-- R48, R49: what every line assembles to: the forms of a byte string operand, the six commands with any operand text that
names a byte string, `taglen` given or omitted, the commands without an operand, the two examples of R48, and the lines of the
two pseudo-commands. Spaces and hex case are the model's choice (log 12). -/
def Obligations.AssemblerFollowsTheSyntax : Prop :=
  (byteOperand [] = some [] ∧ byteOperand ['-'] = some [] ∧ ∀ s : List Byte, byteOperand (hexText s) = some s) ∧
  (∀ (x : List Char) (s : List Byte), byteOperand x = some s → s.length < 2 ^ 32 →
    (∀ d : Dir, assemble (lineOf "INIT" [dirText d, x]) = some (encode (.init d 16 s), s) ∧
      ∀ t : BitVec 5, assemble (lineOf "INIT" [dirText d, decimalText t, x]) = some (encode (.init d t s), s)) ∧
    assemble (lineOf "SET_IV" [x]) = some (encode (.setIv s), s) ∧
    assemble (lineOf "ADD_AAD" [x]) = some (encode (.addAad s), s) ∧
    assemble (lineOf "PROCESS" [x]) = some (encode (.process s), s) ∧
    assemble (lineOf "FINISH" [x]) = some (encode (.finish s), s)) ∧
  (assemble "FINISH_AAD".toList = some (0x0400000000000000, []) ∧
    assemble "FINISH".toList = some (0x0600000000000000, []) ∧
    assemble ("INIT ENC, ".toList ++ List.replicate 32 '0') = some (0x0110000000000010, List.replicate 16 0) ∧
    assemble ("INIT DEC, 12, ".toList ++ List.replicate 32 '0') = some (0x018C000000000010, List.replicate 16 0)) ∧
  (∀ (k v a p e : List Char) (key iv aad data tag : List Byte), byteOperand k = some key → byteOperand v = some iv →
    byteOperand a = some aad → byteOperand p = some data → byteOperand e = some tag →
    assembleFacade (lineOf "SEAL" [k, v, a, p]) = some (sealCommands key iv aad data none) ∧
    assembleFacade (lineOf "OPEN" [k, v, a, p, e]) = some (openCommands key iv aad data tag none) ∧
    ∀ t : BitVec 5, assembleFacade (lineOf "SEAL" [k, v, a, p, decimalText t]) = some (sealCommands key iv aad data (some t)) ∧
      assembleFacade (lineOf "OPEN" [k, v, a, p, e, decimalText t]) = some (openCommands key iv aad data tag (some t)))

/-! ### The step (00_scope.md R9) and reset -/

/-- R9, R36: when the pair at the head of CMD and DIN decodes to `i`, the step is `exec i` on the state without the pair. -/
def Obligations.StepRunsTheDecodedCommand : Prop :=
  ∀ (s : State) (h : Header) (p : List Byte) (rest : List HostEvent) (i : Instr),
    s.host = .command h p :: rest → decode h p = .ok i → step s = exec i { s with host := rest }

/-- R45, R46, R127: a pair that is not legal raises IllegalCommand, whatever the phase. A header that matches no row is one,
and so is a payload whose length is not LEN. -/
def Obligations.IllegalCommandsRaiseIllegalCommand : Prop :=
  ∀ (s : State) (h : Header) (p : List Byte) (rest : List HostEvent), s.host = .command h p :: rest →
    ((∀ r ∈ opcodeRows, r.selects h = false) ∨ p.length ≠ (lenField h).toNat) →
    step s = .next ({ s with host := rest }.raiseError .illegalCommand)

/-- R28: what reset leaves, at power-on and as an event, and the core waits while no command arrives. That a reset event
leaves the ports' past as it was is the model's choice (log 1). -/
def Obligations.ResetLeavesNoValueAndTheCoreWaits : Prop :=
  (State.reset.phase = .idle ∧ State.reset.err = .ok ∧ State.reset.hold = [] ∧ State.reset.holdlen = 0 ∧
    State.reset.dropSession = State.reset) ∧
  (∀ (s : State) (rest : List HostEvent), s.host = .reset :: rest →
    step s = .next { State.reset with host := rest, rsp := s.rsp, ciph := s.ciph }) ∧
  (∀ s : State, s.host = [] → step s = .next s)

/-- R151: after reset every legal command but INIT raises SequenceError and moves the core to FAILED, from which INIT still
works; INIT itself can succeed after reset. -/
def Obligations.AfterResetOnlyInitSucceeds : Prop :=
  (∀ (s : State) (i : Instr) (rest : List HostEvent), s.registers = State.reset → i.wellFormed = true →
    s.host = commandEvent i :: rest → i.isInit = false →
    ∃ t, step s = .next t ∧ t.phase = .failed ∧ t.err = .sequenceError ∧
      t.rsp = s.rsp ++ [⟨.sequenceError, .failed, [], []⟩] ∧ t.host = rest) ∧
  (∀ (s : State) (d : Dir) (t : BitVec 5) (key : List Byte) (rest : List HostEvent),
    (s.registers = State.reset ∨ s.phase = .failed) → key.length ∈ [16, 24, 32] → 12 ≤ t.toNat → t.toNat ≤ 16 →
    s.host = commandEvent (.init d t key) :: rest →
    ∃ u, step s = .next u ∧ u.phase = .created ∧ u.err = .ok ∧ u.rsp = s.rsp ++ [⟨.ok, .created, [], []⟩])

/-! ### Errors (60_exceptions.md) -/

/-- R133: the effect of `raise` with status `st`, every field of the state named. -/
def Obligations.RaiseForgetsTheSession : Prop :=
  ∀ (s : State) (st : Status),
    s.raiseError st =
      { keyctx := none, h := none, acc := none, ctr := none, ek0 := none, ks := none, buf := none, alen := none,
        dlen := none, dir := none, taglen := none,
        phase := .failed, err := if s.phase = .failed then s.err else st, hold := [],
        host := s.host, rsp := s.rsp ++ [⟨st, .failed, [], []⟩], ciph := s.ciph }

/-- R9, R31, R120: a command answers with exactly one response; with a status other than OK it has had the effect of
`raise` on the registers and no other, and its response carries no bytes. -/
def Obligations.EveryErrorIsARaise : Prop :=
  ∀ (i : Instr) (s t : State), exec i s = .next t →
    ∃ r, t.rsp = s.rsp ++ [r] ∧ t.host = s.host ∧ r.phase = t.phase ∧
      (r.status ≠ .ok → t.registers = (s.raiseError r.status).registers ∧ r.dout = [] ∧ r.tag = [])

/-- R9, R36: a step consumes at most one host event; a command adds one response; what the ports have carried stays. That a
reset event adds neither response nor request and leaves the ports' past is the model's choice (log 1; reset stands between
commands, log 8), and that an idle step adds nothing is read from R28 and R150 (log 7). -/
def Obligations.OneResponseForEachCommand : Prop :=
  ∀ s t : State, step s = .next t →
    t.host = s.host.tail ∧ (∃ rs, t.ciph = s.ciph ++ rs) ∧
    ((∃ h p rest r, s.host = .command h p :: rest ∧ t.rsp = s.rsp ++ [r]) ∨
      ((s.host = [] ∨ ∃ rest, s.host = .reset :: rest) ∧ t.rsp = s.rsp ∧ t.ciph = s.ciph))

/-- R22: ERR is 0 after reset and after a successful INIT; an error is recorded outside FAILED and not in FAILED; any other
success leaves it. So it is the first error since the last successful INIT or reset. -/
def Obligations.ErrKeepsTheFirstError : Prop :=
  State.reset.err.code = 0 ∧
  ∀ s t : State, step s = .next t →
    (∀ rest, s.host = .reset :: rest → t.err.code = 0) ∧
    (∀ h p rest r, s.host = .command h p :: rest → t.rsp = s.rsp ++ [r] →
      (r.status.code ≠ 0 → s.phase ≠ .failed → t.err = r.status) ∧
      (r.status.code ≠ 0 → s.phase = .failed → t.err = s.err) ∧
      (r.status.code = 0 → (∃ d n key, decode h p = .ok (.init d n key)) → t.err.code = 0) ∧
      (r.status.code = 0 → (∀ d n key, decode h p ≠ .ok (.init d n key)) → t.err = s.err))

/-- R124: SequenceError is raised exactly where the phase table does not admit the command; every command but INIT has such
a phase, INIT has none; FINISH_AAD can raise no other error, so no other error is common to all of them. -/
def Obligations.SequenceErrorIsExactlyNotAdmitted : Prop :=
  (∀ (i : Instr) (s : State), transition s.phase i = none → exec i s = .next (s.raiseError .sequenceError)) ∧
  (∀ (i : Instr) (s t : State) (r : Response), exec i s = .next t → t.rsp = s.rsp ++ [r] →
    r.status = .sequenceError → transition s.phase i = none) ∧
  (∀ i : Instr, i.isInit = false ↔ ∃ p : Phase, transition p i = none) ∧
  (∀ (s t : State) (r : Response), exec .finishAad s = .next t → t.rsp = s.rsp ++ [r] →
    r.status = .ok ∨ r.status = .sequenceError)

/-- R80: the phase table: where each command is admitted and where it leads when it succeeds; every error, of any
kind, IllegalCommand too, leads to FAILED. -/
def Obligations.PhasesFollowTheTable : Prop :=
  (∀ (p : Phase) (d : Dir) (t : BitVec 5) (key x : List Byte),
    transition p (.init d t key) = some .created ∧
    transition p (.setIv x) = (if p = .created then some .ivSet else none) ∧
    transition p (.addAad x) = (if p = .ivSet then some .ivSet else none) ∧
    transition p .finishAad = (if p = .ivSet then some .aadDone else none) ∧
    transition p (.process x) = (if p = .ivSet ∨ p = .aadDone ∨ p = .dataDone then some .dataDone else none) ∧
    transition p (.finish x) = (if p = .dataDone then some .finished else none)) ∧
  (∀ (i : Instr) (s t : State) (r : Response), exec i s = .next t → t.rsp = s.rsp ++ [r] →
    (r.status = .ok → transition s.phase i = some t.phase) ∧ (r.status ≠ .ok → t.phase = .failed)) ∧
  (∀ (s t : State) (h : Header) (p : List Byte) (rest : List HostEvent) (r : Response),
    s.host = .command h p :: rest → step s = .next t → t.rsp = s.rsp ++ [r] →
    (r.status = .ok → ∃ i, decode h p = .ok i ∧ transition s.phase i = some t.phase) ∧
    (r.status ≠ .ok → t.phase = .failed))

/-- R121 to R126: each error of a legal command is raised exactly where its rule says; IllegalCommand by no legal command. The
limits are those of the chip's parameters (log 6). -/
def Obligations.ErrorsHaveTheirCauses : Prop :=
  ∀ (i : Instr) (s t : State) (r : Response), exec i s = .next t → t.rsp = s.rsp ++ [r] →
    (r.status = .sequenceError ↔ transition s.phase i = none) ∧
    (r.status = .invalidKeyLength ↔ ∃ d n key, i = .init d n key ∧ key.length ∉ [16, 24, 32]) ∧
    (r.status = .invalidIvLength ↔ i = .setIv [] ∧ s.phase = .created) ∧
    (r.status = .invalidTagLength ↔
      (∃ d n key, i = .init d n key ∧ key.length ∈ [16, 24, 32] ∧ (n.toNat < 12 ∨ 16 < n.toNat)) ∨
      (∃ e d n, i = .finish e ∧ s.phase = .dataDone ∧ s.dir = some d ∧ s.taglen = some n ∧
        (d = .enc ∧ e ≠ [] ∨ d = .dec ∧ e.length ≠ n.toNat))) ∧
    (r.status = .capacityExceeded ↔
      (∃ x a, i = .addAad x ∧ s.phase = .ivSet ∧ s.alen = some a ∧ 2 ^ 61 - 1 < a.toNat + x.length) ∨
      (∃ x n, i = .process x ∧ (s.phase = .ivSet ∨ s.phase = .aadDone ∨ s.phase = .dataDone) ∧ s.dlen = some n ∧
        (Config.maxData < n.toNat + x.length ∨
          s.dir = some .dec ∧ Config.maxData < s.hold.length + x.length))) ∧
    (r.status = .authenticationError ↔ ∃ e n h acc buf a dlen ek0, i = .finish e ∧ s.phase = .dataDone ∧
      s.dir = some .dec ∧ s.taglen = some n ∧ e.length = n.toNat ∧ s.h = some h ∧ s.acc = some acc ∧ s.buf = some buf ∧
      s.alen = some a ∧ s.dlen = some dlen ∧ s.ek0 = some ek0 ∧
      (blockBytes (ek0 ^^^ ghLenBlock h (if buf = [] then acc else ghUpdatePartial h acc buf)
        (8 * a.toNat) (8 * dlen.toNat))).take n.toNat ≠ e) ∧
    r.status ≠ .illegalCommand

/-- R134, R135: commands while FAILED: an illegal one answers IllegalCommand, a legal one but INIT SequenceError, a failing INIT
its own error; each time PHASE stays FAILED and ERR keeps the first error. An INIT that succeeds starts with ERR = 0. -/
def Obligations.ErrorsWhileFailed : Prop :=
  ∀ (s : State) (h : Header) (p : List Byte) (rest : List HostEvent), s.phase = .failed →
    s.host = .command h p :: rest →
    ∃ t r, step s = .next t ∧ t.rsp = s.rsp ++ [r] ∧
      (∀ e, decode h p = .error e → r.status = .illegalCommand ∧ t.phase = .failed ∧ t.err = s.err) ∧
      (∀ i, decode h p = .ok i → i.isInit = false →
        r.status = .sequenceError ∧ t.phase = .failed ∧ t.err = s.err) ∧
      (∀ d n key, decode h p = .ok (.init d n key) →
        (r.status = .ok ∧ t.phase = .created ∧ t.err = .ok) ∨
        ((r.status = .invalidKeyLength ∨ r.status = .invalidTagLength) ∧ t.phase = .failed ∧ t.err = s.err))

/-! ### INIT -/

/-- R90: INIT under every configuration: the checks in order, then the new session. -/
def Obligations.InitChecksThenCreates : Prop :=
  ∀ (c : Config) (d : Dir) (t : BitVec 5) (key : List Byte) (s : State),
    execInitIn c d t key s =
      if key.length ∉ c.keyLens then .next ((s.request [.keySetup key]).raiseError .invalidKeyLength)
      else if t.toNat < c.tagMin ∨ 16 < t.toNat then .next ((s.request [.keySetup key]).raiseError .invalidTagLength)
      else .next
        { keyctx := some key, h := some (c.cipher key 0), acc := some 0, ctr := none, ek0 := none, ks := none,
          buf := some [], alen := some 0, dlen := some 0, dir := some d, taglen := some t, phase := .created,
          err := .ok, hold := [], host := s.host, rsp := s.rsp ++ [⟨.ok, .created, [], []⟩],
          ciph := s.ciph ++ [.keySetup key, .encrypt 0] }

/-- R90, R4: INIT completes in every phase for the key lengths and tag lengths of the default parameters, which are the
model's choice for the chip (log 6). -/
def Obligations.InitCompletes : Prop :=
  ∀ (d : Dir) (t : BitVec 5) (key : List Byte) (s : State),
    key.length = 16 ∨ key.length = 24 ∨ key.length = 32 → 12 ≤ t.toNat → t.toNat ≤ 16 →
    exec (.init d t key) s = .next
      { keyctx := some key, h := some (Config.blockCipher key 0), acc := some 0, ctr := none, ek0 := none, ks := none,
        buf := some [], alen := some 0, dlen := some 0, dir := some d, taglen := some t, phase := .created,
        err := .ok, hold := [], host := s.host, rsp := s.rsp ++ [⟨.ok, .created, [], []⟩],
        ciph := s.ciph ++ [.keySetup key, .encrypt 0] }

/-- R82, R91, R157: INIT discards the old session whole: from any two states the registers after an accepted INIT are the
same, and its response carries no bytes of the old session. A refused INIT leaves the same registers but for ERR. -/
def Obligations.InitForgetsTheOldSession : Prop :=
  ∀ (d : Dir) (t : BitVec 5) (key : List Byte) (s₁ s₂ t₁ t₂ : State),
    exec (.init d t key) s₁ = .next t₁ → exec (.init d t key) s₂ = .next t₂ →
    { t₁.registers with err := .ok } = { t₂.registers with err := .ok } ∧
    (∃ r, t₁.rsp = s₁.rsp ++ [r] ∧ t₂.rsp = s₂.rsp ++ [r] ∧ r.dout = [] ∧ r.tag = []) ∧
    (t₁.phase = .created → t₁.registers = t₂.registers)

/-! ### SET_IV -/

/-- R92: SET_IV: the phase, then the length of the IV, then EK0, CTR and ACC. -/
def Obligations.SetIvChecksThenDerives : Prop :=
  ∀ (iv : List Byte) (s : State),
    (s.phase ≠ .created → exec (.setIv iv) s = .next (s.raiseError .sequenceError)) ∧
    (s.phase = .created → iv = [] → exec (.setIv iv) s = .next (s.raiseError .invalidIvLength)) ∧
    (∀ key h, s.phase = .created → iv ≠ [] → s.keyctx = some key → s.h = some h →
      exec (.setIv iv) s = .next
        { s with
          ek0 := some (Config.blockCipher key (deriveJ0 h iv)), ctr := some (inc32 (deriveJ0 h iv)), acc := some 0,
          phase := .ivSet, rsp := s.rsp ++ [⟨.ok, .ivSet, [], []⟩],
          ciph := s.ciph ++ [.encrypt (deriveJ0 h iv)] })

/-- R93: DeriveJ0: the 12-byte path; the GHASH path as one GHASH, and as micro-operations from a zero accumulator; the rule's
example. -/
def Obligations.InitialCounterDerivation : Prop :=
  (∀ (h : Block) (iv : List Byte), iv ≠ [] →
    (iv.length = 12 → deriveJ0 h iv = blockOfBytes (iv ++ [0, 0, 0, 1])) ∧
    (iv.length ≠ 12 →
      deriveJ0 h iv = ghash h (pad16 iv ++ bigEndian64 0 ++ bigEndian64 (8 * iv.length)) ∧
      deriveJ0 h iv = ghLenBlock h
        (foldPartial h ((blocksOf (fullPart iv)).foldl (ghUpdate h) 0) (restPart iv)) 0 (8 * iv.length))) ∧
  deriveJ0 0xb83b533708bf535d0aa6e52980d53b78 [0xca, 0xfe, 0xba, 0xbe, 0xfa, 0xce, 0xdb, 0xad] =
    0xc43a83c4c4badec4354ca984db252f7d

/-! ### ADD_AAD and FINISH_AAD -/

/-- R94, R96: ADD_AAD completes in IVSET within the AAD limit: the complete 16-byte chunks of what waited and what came are
folded, the rest waits, ALEN counts. Every other element, and every port but RSP, is as before. -/
def Obligations.AddAadFoldsCompleteChunks : Prop :=
  ∀ (aad : List Byte) (s : State) (a : BitVec 64) (h acc : Block) (buf : List Byte),
    s.phase = .ivSet → s.alen = some a → a.toNat + aad.length ≤ 2 ^ 61 - 1 → s.h = some h → s.acc = some acc →
    s.buf = some buf → buf.length ≤ 15 →
    exec (.addAad aad) s = .next
      { s with
        acc := some (ghashFrom h acc (fullPart (buf ++ aad))), buf := some (restPart (buf ++ aad)),
        alen := some (a + BitVec.ofNat 64 aad.length), rsp := s.rsp ++ [⟨.ok, .ivSet, [], []⟩] }

/-- R94, R104: two ADD_AAD commands leave the registers that one with the joined payload leaves. -/
def Obligations.AddAadMayBeCut : Prop :=
  ∀ (x y : List Byte) (s t u : State), exec (.addAad x) s = .next t → t.lastStatus = .ok →
    exec (.addAad y) t = .next u →
    ∃ v, exec (.addAad (x ++ y)) s = .next v ∧ v.registers = u.registers ∧ v.ciph = u.ciph ∧
      v.lastStatus = u.lastStatus

/-- R96: FINISH_AAD: its one encoding; not admitted outside IVSET (a second one is not); in IVSET it folds the waiting partial
chunk, if there is one, and makes no cipher request. -/
def Obligations.FinishAadClosesTheAad : Prop :=
  (∀ (h : Header) (p : List Byte), decode h p = .ok .finishAad ↔ h = 0x0400000000000000 ∧ p = []) ∧
  ∀ s : State,
    (s.phase ≠ .ivSet → exec .finishAad s = .next (s.raiseError .sequenceError)) ∧
    (∀ h acc buf, s.phase = .ivSet → s.h = some h → s.acc = some acc → s.buf = some buf →
      exec .finishAad s = .next
        { s with
          acc := some (if buf = [] then acc else ghUpdatePartial h acc buf), buf := some [], phase := .aadDone,
          rsp := s.rsp ++ [⟨.ok, .aadDone, [], []⟩] })

/-- R97, R104: FINISH_AAD may be left out before PROCESS: the registers, the cipher requests and the response are the same. -/
def Obligations.FinishAadMayBeOmitted : Prop :=
  ∀ (data : List Byte) (s t u : State), exec .finishAad s = .next t → t.lastStatus = .ok →
    exec (.process data) t = .next u →
    ∃ v, exec (.process data) s = .next v ∧ v.registers = u.registers ∧ v.ciph = u.ciph ∧
      v.rsp.getLast? = u.rsp.getLast?

/-! ### PROCESS -/

/-- R98, R99: PROCESS completes in IVSET, AADDONE and DATADONE within the limits (HOLD_CAP is the default, log 6): the
registers of XOR_BYTE over the payload; in an ENC session the bytes are emitted, in a DEC session held. Every other element
is as before. -/
def Obligations.ProcessCompletes : Prop :=
  ∀ (data : List Byte) (s : State) (n : BitVec 64) (d : Dir) (key : List Byte) (h acc ctr : Block) (buf : List Byte),
    s.phase = .ivSet ∨ s.phase = .aadDone ∨ s.phase = .dataDone →
    s.dlen = some n → n.toNat + data.length ≤ Config.maxData → s.dir = some d →
    (d = .dec → s.hold.length + data.length ≤ Config.maxData) → s.keyctx = some key → s.h = some h →
    s.acc = some acc → s.ctr = some ctr → s.buf = some buf → (buf = [] ∨ s.phase = .ivSet ∨ s.ks.isSome = true) →
    ∃ x, x = xorBytes Config.chip key h d (openStream s.phase h acc ctr s.ks buf) data ∧ x.out.length = data.length ∧
      exec (.process data) s = .next
        { s with
          acc := some x.acc, ctr := some x.ctr, ks := x.ks, buf := some x.buf,
          dlen := some (n + BitVec.ofNat 64 data.length), phase := .dataDone,
          hold := s.hold ++ (if d = .dec then x.out else []),
          rsp := s.rsp ++ [⟨.ok, .dataDone, if d = .enc then x.out else [], []⟩],
          ciph := s.ciph ++ x.requests }

/-- R72, R73: XOR_BYTE: KS_NEXT at BUFLEN = 0, the output byte, the ciphertext byte into BUF, the fold of a full BUF. That
KS has no value after the fold is read from R15 and R25 (log 5). -/
def Obligations.XorByteIsTheDatapath : Prop :=
  ∀ (c : Config) (key : List Byte) (h : Block) (dir : Dir) (x : Stream) (b : Byte) (ks : Block), x.buf.length ≤ 15 →
    (x.buf = [] ∧ ks = c.cipher key x.ctr ∨ x.buf ≠ [] ∧ x.ks = some ks) →
    ∃ y, y = xorByte c key h dir x b ∧
      y.out = x.out ++ [b ^^^ blockByte ks x.buf.length] ∧
      y.ctr = (if x.buf = [] then inc32 x.ctr else x.ctr) ∧
      y.requests = x.requests ++ (if x.buf = [] then [.encrypt x.ctr] else []) ∧
      (let buf := x.buf ++ [if dir = .enc then b ^^^ blockByte ks x.buf.length else b]
       (buf.length < 16 → y.buf = buf ∧ y.acc = x.acc ∧ y.ks = some ks) ∧
       (buf.length = 16 → y.buf = [] ∧ y.acc = gfmul (x.acc ^^^ blockOfBytes buf) h ∧ y.ks = none))

/-- R75, R95, R99, R125: the three capacity limits, under every configuration: CapacityExceeded, and no byte processed. The
byte test of the data limit is the block test. -/
def Obligations.CapacityLimitsAreChecked : Prop :=
  (∀ (c : Config) (data : List Byte) (s : State) (n : BitVec 64) (d : Dir),
    s.phase = .ivSet ∨ s.phase = .aadDone ∨ s.phase = .dataDone → s.dlen = some n → s.dir = some d →
    (16 * (2 ^ 32 - 2) < n.toNat + data.length ∨ (d = .dec ∧ c.holdCap < s.hold.length + data.length)) →
    execProcessIn c data s = .next (s.raiseError .capacityExceeded)) ∧
  (∀ (c : Config) (aad : List Byte) (s : State) (a : BitVec 64), s.phase = .ivSet → s.alen = some a →
    c.maxAad < a.toNat + aad.length → execAddAadIn c aad s = .next (s.raiseError .capacityExceeded)) ∧
  (∀ n : Nat, 2 ^ 32 - 2 < blocksBegun n ↔ 16 * (2 ^ 32 - 2) < n)

/-- R98, R104: two PROCESS commands leave the registers that one with the joined payload leaves, and emit the same bytes. -/
def Obligations.ProcessMayBeCut : Prop :=
  ∀ (x y : List Byte) (s t u : State) (r₁ r₂ : Response), exec (.process x) s = .next t → t.rsp = s.rsp ++ [r₁] →
    r₁.status = .ok → exec (.process y) t = .next u → u.rsp = t.rsp ++ [r₂] →
    ∃ v r, exec (.process (x ++ y)) s = .next v ∧ v.rsp = s.rsp ++ [r] ∧ v.registers = u.registers ∧
      r.status = r₂.status ∧ (r₂.status = .ok → r.dout = r₁.dout ++ r₂.dout ∧ v.ciph = u.ciph)

/-- R35, R72, R78: the cipher requests of every legal command: a PROCESS that succeeds makes one `E(CTR)` for each data block
its bytes begin, in increasing counter order; a SET_IV that succeeds makes `E(J0)`; INIT the key set-up and, if it succeeds,
`E(0^16)`; the others none; and none is made by a command other than INIT that fails. -/
def Obligations.CipherRequestsAreOnDemand : Prop :=
  (∀ (data : List Byte) (s t : State) (n : BitVec 64) (ctr : Block) (buf : List Byte), exec (.process data) s = .next t →
    t.lastStatus = .ok → s.dlen = some n → s.ctr = some ctr → s.buf = some buf →
    (s.phase = .dataDone → buf.length = n.toNat % 16) → (s.phase ≠ .dataDone → s.dlen = some 0) →
    (s.phase = .aadDone → buf = []) →
    t.ciph = s.ciph ++ (List.range (blocksBegun (n.toNat + data.length) - blocksBegun n.toNat)).map
      fun j => .encrypt (inc32Iter ctr j)) ∧
  (∀ (iv : List Byte) (s t : State) (h : Block), exec (.setIv iv) s = .next t → t.lastStatus = .ok → s.h = some h →
    t.ciph = s.ciph ++ [.encrypt (deriveJ0 h iv)]) ∧
  (∀ (d : Dir) (n : BitVec 5) (key : List Byte) (s t : State), exec (.init d n key) s = .next t →
    t.ciph = s.ciph ++ (if t.lastStatus = .ok then [.keySetup key, .encrypt 0] else [.keySetup key])) ∧
  (∀ (i : Instr) (s t : State), exec i s = .next t →
    (match i with | .addAad _ => True | .finishAad => True | .finish _ => True | _ => False) → t.ciph = s.ciph) ∧
  (∀ (i : Instr) (s t : State), exec i s = .next t → t.lastStatus ≠ .ok → (∀ d n key, i ≠ .init d n key) →
    t.ciph = s.ciph)

/-! ### FINISH -/

/-- R100: FINISH, both directions: the phase, the length of the expected tag, the tag, and the end of the session. -/
def Obligations.FinishEmitsOrVerifiesTheTag : Prop :=
  ∀ (e : List Byte) (s : State),
    (s.phase ≠ .dataDone → exec (.finish e) s = .next (s.raiseError .sequenceError)) ∧
    (∀ d n, s.phase = .dataDone → s.dir = some d → s.taglen = some n →
      (d = .enc ∧ e.length ≠ 0 ∨ d = .dec ∧ e.length ≠ n.toNat) →
      exec (.finish e) s = .next (s.raiseError .invalidTagLength)) ∧
    (∀ n h acc buf a len ek0, s.phase = .dataDone → s.taglen = some n → s.h = some h → s.acc = some acc →
      s.buf = some buf → s.alen = some a → s.dlen = some len → s.ek0 = some ek0 →
      ∃ t, t = (blockBytes (ek0 ^^^ ghLenBlock h (if buf = [] then acc else ghUpdatePartial h acc buf)
          (8 * a.toNat) (8 * len.toNat))).take n.toNat ∧
        (s.dir = some .enc → e = [] → exec (.finish e) s = .next
          { State.reset with
            phase := .finished, err := s.err, host := s.host, rsp := s.rsp ++ [⟨.ok, .finished, [], t⟩],
            ciph := s.ciph }) ∧
        (s.dir = some .dec → e.length = n.toNat → t = e → exec (.finish e) s = .next
          { State.reset with
            phase := .finished, err := s.err, host := s.host, rsp := s.rsp ++ [⟨.ok, .finished, s.hold, []⟩],
            ciph := s.ciph }) ∧
        (s.dir = some .dec → e.length = n.toNat → t ≠ e →
          exec (.finish e) s = .next (s.raiseError .authenticationError)))

/-- R102, R103, R106: at the end of a DEC session for the message `m`, OK is answered only to the message's own tag, and then
with the plaintext; any other tag of the right length raises AuthenticationError. -/
def Obligations.OnlyTheRightTagReleasesPlaintext : Prop :=
  ∀ (m : Message) (s : State) (e : List Byte), m.DataDone Config.chip s → m.dir = .dec → e.length = m.taglen.toNat →
    (e = m.tag Config.chip → ∃ t, exec (.finish e) s = .next t ∧ t.phase = .finished ∧
      t.rsp = s.rsp ++ [⟨.ok, .finished, xorKeystream Config.chip m.key (m.j0 Config.chip) m.data, []⟩]) ∧
    (e ≠ m.tag Config.chip → exec (.finish e) s = .next (s.raiseError .authenticationError))

/-! ### Invariants of every reachable state (10_state.md R25, R26) -/

/-- R25, R28: the state after reset meets the invariant. -/
def Obligations.ResetMeetsTheInvariant : Prop := State.reset.Inv Config.chip

/-- R25, R26: every step keeps the invariant, from every state that meets it. -/
def Obligations.StepKeepsTheInvariant : Prop :=
  ∀ s t : State, s.Inv Config.chip → step s = .next t → t.Inv Config.chip

/-- R25, D22: under the invariant no rule reads an element that holds no value: every step answers a next state. -/
def Obligations.NoStepStopsUnderTheInvariant : Prop :=
  ∀ s : State, s.Inv Config.chip → ∃ t, step s = .next t

/-! ### What a command leaves unchanged -/

/-- R11, R14, R19, R21, R24: the constants of a session: no command but INIT changes KEYCTX, H, DIR or TAGLEN, and no
command but INIT and SET_IV changes EK0, except that they lose their value when the session ends. -/
def Obligations.SessionConstantsStay : Prop :=
  ∀ (i : Instr) (s t : State), exec i s = .next t → i.isInit = false →
    (t.phase ≠ .failed → t.phase ≠ .finished →
      t.keyctx = s.keyctx ∧ t.h = s.h ∧ t.dir = s.dir ∧ t.taglen = s.taglen ∧
      (i.isSetIv = false → t.ek0 = s.ek0)) ∧
    ((t.phase = .failed ∨ t.phase = .finished) → t.dropSession = t)

/-- R13: after SET_IV only the low 32 bits of CTR ever change: the upper 96 are those SET_IV left. -/
def Obligations.CounterPrefixStays : Prop :=
  ∀ (i : Instr) (s t : State) (x y : Block), exec i s = .next t → i.isInit = false → i.isSetIv = false →
    s.ctr = some x → t.ctr = some y → y >>> 32 = x >>> 32

/-- R10: what each command leaves unchanged when it succeeds, register by register: the "written by" column. The host port
is never touched by a command. -/
def Obligations.CommandsWriteOnlyTheirRegisters : Prop :=
  ∀ (i : Instr) (s t : State), exec i s = .next t → t.host = s.host ∧
    (t.phase ≠ .failed →
      match i with
      | .init _ _ _ => True
      | .setIv _ => t.keyctx = s.keyctx ∧ t.h = s.h ∧ t.ks = s.ks ∧ t.buf = s.buf ∧ t.alen = s.alen ∧
          t.dlen = s.dlen ∧ t.dir = s.dir ∧ t.taglen = s.taglen ∧ t.err = s.err ∧ t.hold = s.hold
      | .addAad _ => t.keyctx = s.keyctx ∧ t.h = s.h ∧ t.ctr = s.ctr ∧ t.ek0 = s.ek0 ∧ t.ks = s.ks ∧
          t.dlen = s.dlen ∧ t.dir = s.dir ∧ t.taglen = s.taglen ∧ t.phase = s.phase ∧ t.err = s.err ∧
          t.hold = s.hold ∧ t.ciph = s.ciph
      | .finishAad => t.keyctx = s.keyctx ∧ t.h = s.h ∧ t.ctr = s.ctr ∧ t.ek0 = s.ek0 ∧ t.ks = s.ks ∧
          t.alen = s.alen ∧ t.dlen = s.dlen ∧ t.dir = s.dir ∧ t.taglen = s.taglen ∧ t.err = s.err ∧
          t.hold = s.hold ∧ t.ciph = s.ciph
      | .process _ => t.keyctx = s.keyctx ∧ t.h = s.h ∧ t.ek0 = s.ek0 ∧ t.alen = s.alen ∧ t.dir = s.dir ∧
          t.taglen = s.taglen ∧ t.err = s.err ∧ (s.dir = some .enc → t.hold = s.hold)
      | .finish _ => t.err = s.err ∧ t.ciph = s.ciph ∧ t.dropSession = t)

/-! ### The message a session stands for (10_state.md R26, 43_session_commands.md R105) -/

/-- R26, R90: an accepted INIT begins the session of an empty message, whatever the IV will be. -/
def Obligations.InitBeginsAMessage : Prop :=
  ∀ (d : Dir) (n : BitVec 5) (key iv : List Byte) (s t : State), exec (.init d n key) s = .next t → t.phase = .created →
    Message.Created Config.chip { dir := d, taglen := n, key := key, iv := iv, aad := [], data := [] } t

/-- R26, R92, R94, R96: SET_IV, ADD_AAD and FINISH_AAD keep the state the one R26 describes for the message so far. -/
def Obligations.AadCommandsKeepTheMessage : Prop :=
  (∀ (m : Message) (s : State), m.Created Config.chip s → m.iv ≠ [] →
    ∃ t, exec (.setIv m.iv) s = .next t ∧ m.IvSet Config.chip t) ∧
  (∀ (m : Message) (s : State) (x : List Byte), m.IvSet Config.chip s → m.aad.length + x.length ≤ 2 ^ 61 - 1 →
    ∃ t, exec (.addAad x) s = .next t ∧ { m with aad := m.aad ++ x }.IvSet Config.chip t) ∧
  (∀ (m : Message) (s : State), m.IvSet Config.chip s →
    ∃ t, exec .finishAad s = .next t ∧ m.AadDone Config.chip t)

/-- R26, R98, R99: PROCESS keeps the state the one R26 describes for the message so far; in an ENC session it emits exactly
the ciphertext bytes of its payload, in a DEC session nothing. That
a DEC session completes up to MAXDATA is the default HOLD_CAP = MAXDATA (log 6). -/
def Obligations.ProcessKeepsTheMessage : Prop :=
  ∀ (m : Message) (s : State) (x : List Byte),
    (m.IvSet Config.chip s ∨ m.AadDone Config.chip s ∨ m.DataDone Config.chip s) →
    m.data.length + x.length ≤ Config.maxData →
    ∃ t, exec (.process x) s = .next t ∧ { m with data := m.data ++ x }.DataDone Config.chip t ∧
      t.rsp = s.rsp ++ [⟨.ok, .dataDone,
        if m.dir = .enc then
          (xorKeystream Config.chip m.key (m.j0 Config.chip) (m.data ++ x)).drop m.data.length
        else [], []⟩]

/-- R67, R100, R101, R105: FINISH in an ENC session of the message `m` answers the tag of `m`. -/
def Obligations.FinishAnswersTheTagOfTheMessage : Prop :=
  ∀ (m : Message) (s : State), m.DataDone Config.chip s → m.dir = .enc →
    ∃ t, exec (.finish []) s = .next t ∧ t.phase = .finished ∧
      t.rsp = s.rsp ++ [⟨.ok, .finished, [], m.tag Config.chip⟩]

/-! ### The facade (44_oneshot_facade.md) -/

/-- R105, R110, R113: SEAL computes the function of R105, from any state whatever, with the tag length given or omitted (16);
the key and tag lengths are those of the default parameters (log 6), the pieces those of log 13. -/
def Obligations.SealComputesTheSessionFunction : Prop :=
  taglenOrDefault none = 16 ∧
  ∀ (key iv aad plaintext : List Byte) (taglen : Option (BitVec 5)) (n : BitVec 5) (s : State),
    n = taglenOrDefault taglen →
    key.length = 16 ∨ key.length = 24 ∨ key.length = 32 → 12 ≤ n.toNat → n.toNat ≤ 16 → iv ≠ [] →
    iv.length < 2 ^ 32 → aad.length ≤ 2 ^ 61 - 1 → plaintext.length ≤ Config.maxData →
    ∃ t, facadeSeal key iv aad plaintext taglen s = .next t ∧ t.phase = .finished ∧
      sealResult s t = .ok
        (Message.ciphertext Config.chip ⟨.enc, n, key, iv, aad, plaintext⟩,
          Message.tag Config.chip ⟨.enc, n, key, iv, aad, plaintext⟩)

/-- R105, R111, R113: OPEN of what SEAL computes gives the plaintext back, with the tag length given or omitted (16); with any
other tag of the right length it gives AuthenticationError, with a tag of another length InvalidTagLength, and no plaintext.
The key and tag lengths and HOLD_CAP are those of the default parameters (log 6), the pieces those of log 13. -/
def Obligations.OpenInvertsSeal : Prop :=
  taglenOrDefault none = 16 ∧
  ∀ (key iv aad plaintext tag : List Byte) (taglen : Option (BitVec 5)) (n : BitVec 5) (s : State),
    n = taglenOrDefault taglen →
    key.length = 16 ∨ key.length = 24 ∨ key.length = 32 → 12 ≤ n.toNat → n.toNat ≤ 16 → iv ≠ [] →
    iv.length < 2 ^ 32 → aad.length ≤ 2 ^ 61 - 1 → plaintext.length ≤ Config.maxData → tag.length < 2 ^ 32 →
    ∃ t, facadeOpen key iv aad (Message.ciphertext Config.chip ⟨.enc, n, key, iv, aad, plaintext⟩) tag taglen s = .next t ∧
      (t.phase = .finished ∨ t.phase = .failed) ∧
      openResult s t =
        if tag.length ≠ n.toNat then .error .invalidTagLength
        else if tag = Message.tag Config.chip ⟨.enc, n, key, iv, aad, plaintext⟩ then .ok plaintext
        else .error .authenticationError

/-- R34, R104: chunking independence. From one session in IVSET, two command sequences that differ only in how the AAD and
the data are cut and in whether FINISH_AAD is issued, within the limits (those of the
chip's parameters, log 6), leave the same registers and answer the same bytes,
tag and final status. -/
def Obligations.ChunkingIndependence : Prop :=
  ∀ (m : Message) (s t t' : State) (as as' ds ds' : List (List Byte)) (fin fin' : Bool) (e : List Byte),
    m.IvSet Config.chip s → as.flatten = as'.flatten → ds.flatten = ds'.flatten → ds ≠ [] → ds' ≠ [] →
    m.aad.length + as.flatten.length ≤ 2 ^ 61 - 1 → ds.flatten.length ≤ Config.maxData →
    issueAll exec (sessionCommands as fin ds e) s = .next t → issueAll exec (sessionCommands as' fin' ds' e) s = .next t' →
    t.registers = t'.registers ∧ t.lastStatus = t'.lastStatus ∧
      (newResponses s t).flatMap Response.dout = (newResponses s t').flatMap Response.dout ∧
      (newResponses s t).flatMap Response.tag = (newResponses s t').flatMap Response.tag

/-! ### Secrecy of the error path and of a DEC session (60_exceptions.md R138) -/

/-- R138, R99, R103: every failing command empties HOLD; in a DEC session a response carries bytes only when it answers a
FINISH with status OK, and then exactly HOLD, and it never carries a tag. -/
def Obligations.NoUnauthenticatedPlaintext : Prop :=
  ∀ (s t : State) (h : Header) (p : List Byte) (rest : List HostEvent) (r : Response),
    s.host = .command h p :: rest → step s = .next t → t.rsp = s.rsp ++ [r] →
    (r.status ≠ .ok → t.hold = []) ∧
    (s.dir = some .dec → r.tag = [] ∧
      (r.dout ≠ [] → ∃ e, decode h p = .ok (.finish e) ∧ r.status = .ok ∧ r.dout = s.hold))

/-- R27, R99, R138: in a DEC session nothing a host sees before FINISH depends on the bytes of the key, the IV, the AAD or
the ciphertext: two states that agree on their public parts answer commands of the same shape with the same response, and
agree on their public parts after it. -/
def Obligations.DecSessionRevealsNothingBeforeFinish : Prop :=
  ∀ (i j : Instr) (s t s' : State), s.publicPart = t.publicPart → s.dir = some .dec → sameShape i j = true →
    i.isFinish = false → exec i s = .next s' →
    ∃ t' r, exec j t = .next t' ∧ s'.publicPart = t'.publicPart ∧ s'.rsp = s.rsp ++ [r] ∧ t'.rsp = t.rsp ++ [r]

/-- R47: which responses carry bytes, and how many, under the invariant. -/
def Obligations.ResponsesHaveTheirShape : Prop :=
  ∀ (i : Instr) (s t : State) (r : Response), s.Inv Config.chip → exec i s = .next t → t.rsp = s.rsp ++ [r] →
    r.phase = t.phase ∧
    (r.dout ≠ [] → r.status = .ok ∧
      ((∃ x, i = .process x ∧ s.dir = some .enc ∧ r.dout.length = x.length) ∨
        (∃ e n, i = .finish e ∧ s.dir = some .dec ∧ s.dlen = some n ∧ r.dout.length = n.toNat))) ∧
    (r.tag ≠ [] → r.status = .ok ∧
      ∃ e n, i = .finish e ∧ s.dir = some .enc ∧ s.taglen = some n ∧ r.tag.length = n.toNat) ∧
    (r.status ≠ .ok → r.phase.code = 7 ∧ r.dout = [] ∧ r.tag = [])

/-! ### The multiplier (40_gf128_multiplier.md) -/

/-- R51: GFMUL, which the model computes by the loop of R52, is the product of the two polynomials modulo
`P(x) = x^128 + x^7 + x^2 + x + 1`, and `x^128` reduces to `x^7 + x^2 + x + 1`. -/
def Obligations.GfmulIsTheProductModuloP : Prop :=
  ∀ (x y : Block) (p q : Polynomial (ZMod 2)), IsPolyOf x p → IsPolyOf y q →
    IsPolyOf (gfmul x y)
      ((p * q) %ₘ (Polynomial.X ^ 128 + Polynomial.X ^ 7 + Polynomial.X ^ 2 + Polynomial.X + 1)) ∧
    (Polynomial.X ^ 128 : Polynomial (ZMod 2)) %ₘ
        (Polynomial.X ^ 128 + Polynomial.X ^ 7 + Polynomial.X ^ 2 + Polynomial.X + 1) =
      Polynomial.X ^ 7 + Polynomial.X ^ 2 + Polynomial.X + 1

/-- R53, R58: XOR and GFMUL are a commutative ring with ONE and ZERO, and two updates may be regrouped with the square
of H. -/
def Obligations.BlocksAreACommutativeRing : Prop :=
  (∀ a b : Block, gfmul a b = gfmul b a) ∧
  (∀ a b c : Block, gfmul (gfmul a b) c = gfmul a (gfmul b c)) ∧
  (∀ a b c : Block, gfmul (a ^^^ b) c = gfmul a c ^^^ gfmul b c) ∧
  (∀ a : Block, gfmul gfOne a = a) ∧ (∀ a : Block, gfmul 0 a = 0) ∧
  (∀ h acc x₁ x₂ : Block, ghUpdate h (ghUpdate h acc x₁) x₂ = gfmul (acc ^^^ x₁) (gfmul h h) ^^^ gfmul x₂ h)

/-- R53: a product is ZERO only if a factor is: P is irreducible. -/
def Obligations.NoZeroDivisors : Prop := ∀ a b : Block, gfmul a b = 0 → a = 0 ∨ b = 0

/-- R51, R56, R57: the polynomial, Karatsuba (both reductions) and Mastrovito forms are the same function as GFMUL. -/
def Obligations.EqualFormsOfTheProduct : Prop :=
  ∀ x y : Block, gfmulPoly x y = gfmul x y ∧ gfmulKaratsuba x y = gfmul x y ∧ gfmulKaratsubaFold x y = gfmul x y ∧
    gfmulMastrovito x y = gfmul x y

/-- R59: XTIME is multiplication by `x`, the Block `40 00 ... 00`, and its corner cases. -/
def Obligations.XtimeIsMultiplicationByX : Prop :=
  (∀ v : Block, xtime v = gfmul 0x40000000000000000000000000000000 v) ∧
  (∀ v : Block, xtime v = (v >>> 1) ^^^ (if v.getLsbD 0 then 0xE1000000000000000000000000000000 else 0)) ∧
  xtime 0 = 0 ∧ xtime 1 = 0xE1000000000000000000000000000000 ∧
  xtime 0x80000000000000000000000000000000 = 0x40000000000000000000000000000000

/-- R53, U14: with H = ZERO the accumulator stays ZERO once it is, and the tag of a message is the encrypted initial counter
truncated. -/
def Obligations.ZeroSubkeyGivesTheBareTag : Prop :=
  ∀ (c : Config) (m : Message), subkey c m.key = 0 →
    (∀ d : List Byte, ghash (subkey c m.key) d = 0) ∧
    m.tag c = (blockBytes (c.cipher m.key (m.j0 c))).take m.taglen.toNat

/-! ### GHASH and the counter (41_ghash_accumulator.md, 42_ctr_keystream.md) -/

/-- R66: GHASH of the empty string, its loop, GHASH continued, and its closed form as a polynomial in H. -/
def Obligations.GhashIsAPolynomialInH : Prop :=
  (∀ h : Block, ghash h [] = 0) ∧
  (∀ (h : Block) (d : List Byte), d.length % 16 = 0 →
    ghash h d = (blocksOf d).foldl (fun y x => gfmul (y ^^^ x) h) 0) ∧
  (∀ (h : Block) (d d' : List Byte), d.length % 16 = 0 → ghash h (d ++ d') = ghashFrom h (ghash h d) d') ∧
  (∀ (h : Block) (d : List Byte), d.length % 16 = 0 →
    ghash h d = ((blocksOf d).mapIdx fun j x => gfmul x (gfPow h (d.length / 16 - j))).foldl (· ^^^ ·) 0)

/-- R71: inc32 touches the last 32 bits only, adds one to them modulo 2^32, is a bijection, and returns to its start after
exactly 2^32 applications. -/
def Obligations.Inc32IsACounterOn32Bits : Prop :=
  (∀ x : Block, inc32 x >>> 32 = x >>> 32 ∧ (inc32 x).setWidth 32 = x.setWidth 32 + 1) ∧
  (∀ x : Block, inc32 x = (x &&& ~~~(0xFFFFFFFF#128)) ||| ((x + 1) &&& 0xFFFFFFFF#128)) ∧
  Function.Bijective inc32 ∧
  (∀ (x : Block) (j : Nat), inc32Iter x j = x ↔ j % 2 ^ 32 = 0) ∧
  inc32 0x00112233445566778899aabbffffffff = 0x00112233445566778899aabb00000000 ∧ inc32 1 = 2

/-- R76: within a session the counter never repeats: J0 and the counters of at most 2^32 - 2 data blocks are pairwise
distinct. -/
def Obligations.CounterNeverRepeats : Prop :=
  ∀ (j0 : Block) (j k : Nat), j ≤ 2 ^ 32 - 2 → k ≤ 2 ^ 32 - 2 → inc32Iter j0 j = inc32Iter j0 k → j = k

/-- R6: the views of a Block name the same 128 bits: its bytes give it back, byte `k` is its bits 8k to 8k + 7, and a
byte string of 16 bytes is the bytes of its Block. -/
def Obligations.BlockViewsAgree : Prop :=
  (∀ b : Block, blockOfBytes (blockBytes b) = b) ∧
  (∀ s : List Byte, s.length = 16 → blockBytes (blockOfBytes s) = s) ∧
  (∀ (b : Block) (k i : Nat), k < 16 → i < 8 → (blockByte b k).getMsbD i = b.getMsbD (8 * k + i))
end

