-- ==== Sys2Proof/Laws/State.lean ====
section
/-! SUPPORT. Laws/State.lean: one lemma per field and named update of the state, true by unfolding, for simp. -/

namespace Sys2Proof.Machine

/-! ### The response -/

@[simp] theorem State.respond_keyctx (s : State) (st : Status) (o t : List Byte) : (s.respond st o t).keyctx = s.keyctx := rfl
@[simp] theorem State.respond_h (s : State) (st : Status) (o t : List Byte) : (s.respond st o t).h = s.h := rfl
@[simp] theorem State.respond_acc (s : State) (st : Status) (o t : List Byte) : (s.respond st o t).acc = s.acc := rfl
@[simp] theorem State.respond_ctr (s : State) (st : Status) (o t : List Byte) : (s.respond st o t).ctr = s.ctr := rfl
@[simp] theorem State.respond_ek0 (s : State) (st : Status) (o t : List Byte) : (s.respond st o t).ek0 = s.ek0 := rfl
@[simp] theorem State.respond_ks (s : State) (st : Status) (o t : List Byte) : (s.respond st o t).ks = s.ks := rfl
@[simp] theorem State.respond_buf (s : State) (st : Status) (o t : List Byte) : (s.respond st o t).buf = s.buf := rfl
@[simp] theorem State.respond_alen (s : State) (st : Status) (o t : List Byte) : (s.respond st o t).alen = s.alen := rfl
@[simp] theorem State.respond_dlen (s : State) (st : Status) (o t : List Byte) : (s.respond st o t).dlen = s.dlen := rfl
@[simp] theorem State.respond_dir (s : State) (st : Status) (o t : List Byte) : (s.respond st o t).dir = s.dir := rfl
@[simp] theorem State.respond_taglen (s : State) (st : Status) (o t : List Byte) : (s.respond st o t).taglen = s.taglen := rfl
@[simp] theorem State.respond_phase (s : State) (st : Status) (o t : List Byte) : (s.respond st o t).phase = s.phase := rfl
@[simp] theorem State.respond_err (s : State) (st : Status) (o t : List Byte) : (s.respond st o t).err = s.err := rfl
@[simp] theorem State.respond_hold (s : State) (st : Status) (o t : List Byte) : (s.respond st o t).hold = s.hold := rfl
@[simp] theorem State.respond_host (s : State) (st : Status) (o t : List Byte) : (s.respond st o t).host = s.host := rfl
@[simp] theorem State.respond_rsp (s : State) (st : Status) (o t : List Byte) : (s.respond st o t).rsp = s.rsp ++ [⟨st, s.phase, o, t⟩] := rfl
@[simp] theorem State.respond_ciph (s : State) (st : Status) (o t : List Byte) : (s.respond st o t).ciph = s.ciph := rfl

/-! ### Cipher requests -/

@[simp] theorem State.request_keyctx (s : State) (rs : List CipherRequest) : (s.request rs).keyctx = s.keyctx := rfl
@[simp] theorem State.request_h (s : State) (rs : List CipherRequest) : (s.request rs).h = s.h := rfl
@[simp] theorem State.request_acc (s : State) (rs : List CipherRequest) : (s.request rs).acc = s.acc := rfl
@[simp] theorem State.request_ctr (s : State) (rs : List CipherRequest) : (s.request rs).ctr = s.ctr := rfl
@[simp] theorem State.request_ek0 (s : State) (rs : List CipherRequest) : (s.request rs).ek0 = s.ek0 := rfl
@[simp] theorem State.request_ks (s : State) (rs : List CipherRequest) : (s.request rs).ks = s.ks := rfl
@[simp] theorem State.request_buf (s : State) (rs : List CipherRequest) : (s.request rs).buf = s.buf := rfl
@[simp] theorem State.request_alen (s : State) (rs : List CipherRequest) : (s.request rs).alen = s.alen := rfl
@[simp] theorem State.request_dlen (s : State) (rs : List CipherRequest) : (s.request rs).dlen = s.dlen := rfl
@[simp] theorem State.request_dir (s : State) (rs : List CipherRequest) : (s.request rs).dir = s.dir := rfl
@[simp] theorem State.request_taglen (s : State) (rs : List CipherRequest) : (s.request rs).taglen = s.taglen := rfl
@[simp] theorem State.request_phase (s : State) (rs : List CipherRequest) : (s.request rs).phase = s.phase := rfl
@[simp] theorem State.request_err (s : State) (rs : List CipherRequest) : (s.request rs).err = s.err := rfl
@[simp] theorem State.request_hold (s : State) (rs : List CipherRequest) : (s.request rs).hold = s.hold := rfl
@[simp] theorem State.request_host (s : State) (rs : List CipherRequest) : (s.request rs).host = s.host := rfl
@[simp] theorem State.request_rsp (s : State) (rs : List CipherRequest) : (s.request rs).rsp = s.rsp := rfl
@[simp] theorem State.request_ciph (s : State) (rs : List CipherRequest) : (s.request rs).ciph = s.ciph ++ rs := rfl

/-! ### The end of every value -/

@[simp] theorem State.dropSession_keyctx (s : State) : (s.dropSession).keyctx = none := rfl
@[simp] theorem State.dropSession_h (s : State) : (s.dropSession).h = none := rfl
@[simp] theorem State.dropSession_acc (s : State) : (s.dropSession).acc = none := rfl
@[simp] theorem State.dropSession_ctr (s : State) : (s.dropSession).ctr = none := rfl
@[simp] theorem State.dropSession_ek0 (s : State) : (s.dropSession).ek0 = none := rfl
@[simp] theorem State.dropSession_ks (s : State) : (s.dropSession).ks = none := rfl
@[simp] theorem State.dropSession_buf (s : State) : (s.dropSession).buf = none := rfl
@[simp] theorem State.dropSession_alen (s : State) : (s.dropSession).alen = none := rfl
@[simp] theorem State.dropSession_dlen (s : State) : (s.dropSession).dlen = none := rfl
@[simp] theorem State.dropSession_dir (s : State) : (s.dropSession).dir = none := rfl
@[simp] theorem State.dropSession_taglen (s : State) : (s.dropSession).taglen = none := rfl
@[simp] theorem State.dropSession_phase (s : State) : (s.dropSession).phase = s.phase := rfl
@[simp] theorem State.dropSession_err (s : State) : (s.dropSession).err = s.err := rfl
@[simp] theorem State.dropSession_hold (s : State) : (s.dropSession).hold = [] := rfl
@[simp] theorem State.dropSession_host (s : State) : (s.dropSession).host = s.host := rfl
@[simp] theorem State.dropSession_rsp (s : State) : (s.dropSession).rsp = s.rsp := rfl
@[simp] theorem State.dropSession_ciph (s : State) : (s.dropSession).ciph = s.ciph := rfl

/-! ### Raising an error (R133) -/

@[simp] theorem State.raiseError_keyctx (s : State) (st : Status) : (s.raiseError st).keyctx = none := rfl
@[simp] theorem State.raiseError_h (s : State) (st : Status) : (s.raiseError st).h = none := rfl
@[simp] theorem State.raiseError_acc (s : State) (st : Status) : (s.raiseError st).acc = none := rfl
@[simp] theorem State.raiseError_ctr (s : State) (st : Status) : (s.raiseError st).ctr = none := rfl
@[simp] theorem State.raiseError_ek0 (s : State) (st : Status) : (s.raiseError st).ek0 = none := rfl
@[simp] theorem State.raiseError_ks (s : State) (st : Status) : (s.raiseError st).ks = none := rfl
@[simp] theorem State.raiseError_buf (s : State) (st : Status) : (s.raiseError st).buf = none := rfl
@[simp] theorem State.raiseError_alen (s : State) (st : Status) : (s.raiseError st).alen = none := rfl
@[simp] theorem State.raiseError_dlen (s : State) (st : Status) : (s.raiseError st).dlen = none := rfl
@[simp] theorem State.raiseError_dir (s : State) (st : Status) : (s.raiseError st).dir = none := rfl
@[simp] theorem State.raiseError_taglen (s : State) (st : Status) : (s.raiseError st).taglen = none := rfl
@[simp] theorem State.raiseError_phase (s : State) (st : Status) : (s.raiseError st).phase = .failed := rfl
@[simp] theorem State.raiseError_err (s : State) (st : Status) : (s.raiseError st).err = s.stickyErr st := rfl
@[simp] theorem State.raiseError_hold (s : State) (st : Status) : (s.raiseError st).hold = [] := rfl
@[simp] theorem State.raiseError_host (s : State) (st : Status) : (s.raiseError st).host = s.host := rfl
@[simp] theorem State.raiseError_rsp (s : State) (st : Status) : (s.raiseError st).rsp = s.rsp ++ [⟨st, .failed, [], []⟩] := rfl
@[simp] theorem State.raiseError_ciph (s : State) (st : Status) : (s.raiseError st).ciph = s.ciph := rfl

/-! ### The end of a session -/

@[simp] theorem State.endSession_keyctx (s : State) (p : Phase) : (s.endSession p).keyctx = none := rfl
@[simp] theorem State.endSession_h (s : State) (p : Phase) : (s.endSession p).h = none := rfl
@[simp] theorem State.endSession_acc (s : State) (p : Phase) : (s.endSession p).acc = none := rfl
@[simp] theorem State.endSession_ctr (s : State) (p : Phase) : (s.endSession p).ctr = none := rfl
@[simp] theorem State.endSession_ek0 (s : State) (p : Phase) : (s.endSession p).ek0 = none := rfl
@[simp] theorem State.endSession_ks (s : State) (p : Phase) : (s.endSession p).ks = none := rfl
@[simp] theorem State.endSession_buf (s : State) (p : Phase) : (s.endSession p).buf = none := rfl
@[simp] theorem State.endSession_alen (s : State) (p : Phase) : (s.endSession p).alen = none := rfl
@[simp] theorem State.endSession_dlen (s : State) (p : Phase) : (s.endSession p).dlen = none := rfl
@[simp] theorem State.endSession_dir (s : State) (p : Phase) : (s.endSession p).dir = none := rfl
@[simp] theorem State.endSession_taglen (s : State) (p : Phase) : (s.endSession p).taglen = none := rfl
@[simp] theorem State.endSession_phase (s : State) (p : Phase) : (s.endSession p).phase = p := rfl
@[simp] theorem State.endSession_err (s : State) (p : Phase) : (s.endSession p).err = s.err := rfl
@[simp] theorem State.endSession_hold (s : State) (p : Phase) : (s.endSession p).hold = [] := rfl
@[simp] theorem State.endSession_host (s : State) (p : Phase) : (s.endSession p).host = s.host := rfl
@[simp] theorem State.endSession_rsp (s : State) (p : Phase) : (s.endSession p).rsp = s.rsp := rfl
@[simp] theorem State.endSession_ciph (s : State) (p : Phase) : (s.endSession p).ciph = s.ciph := rfl

/-! ### Hardware reset (R150) -/

@[simp] theorem State.hardwareReset_keyctx (s : State) : (s.hardwareReset).keyctx = none := rfl
@[simp] theorem State.hardwareReset_h (s : State) : (s.hardwareReset).h = none := rfl
@[simp] theorem State.hardwareReset_acc (s : State) : (s.hardwareReset).acc = none := rfl
@[simp] theorem State.hardwareReset_ctr (s : State) : (s.hardwareReset).ctr = none := rfl
@[simp] theorem State.hardwareReset_ek0 (s : State) : (s.hardwareReset).ek0 = none := rfl
@[simp] theorem State.hardwareReset_ks (s : State) : (s.hardwareReset).ks = none := rfl
@[simp] theorem State.hardwareReset_buf (s : State) : (s.hardwareReset).buf = none := rfl
@[simp] theorem State.hardwareReset_alen (s : State) : (s.hardwareReset).alen = none := rfl
@[simp] theorem State.hardwareReset_dlen (s : State) : (s.hardwareReset).dlen = none := rfl
@[simp] theorem State.hardwareReset_dir (s : State) : (s.hardwareReset).dir = none := rfl
@[simp] theorem State.hardwareReset_taglen (s : State) : (s.hardwareReset).taglen = none := rfl
@[simp] theorem State.hardwareReset_phase (s : State) : (s.hardwareReset).phase = .idle := rfl
@[simp] theorem State.hardwareReset_err (s : State) : (s.hardwareReset).err = .ok := rfl
@[simp] theorem State.hardwareReset_hold (s : State) : (s.hardwareReset).hold = [] := rfl
@[simp] theorem State.hardwareReset_host (s : State) : (s.hardwareReset).host = s.host := rfl
@[simp] theorem State.hardwareReset_rsp (s : State) : (s.hardwareReset).rsp = s.rsp := rfl
@[simp] theorem State.hardwareReset_ciph (s : State) : (s.hardwareReset).ciph = s.ciph := rfl

/-! ### A new session (R90) -/

@[simp] theorem State.createSession_keyctx (s : State) (c : Config) (d : Dir) (t : BitVec 5) (key : Key) : (s.createSession c d t key).keyctx = some key := rfl
@[simp] theorem State.createSession_h (s : State) (c : Config) (d : Dir) (t : BitVec 5) (key : Key) : (s.createSession c d t key).h = some (c.cipher key 0) := rfl
@[simp] theorem State.createSession_acc (s : State) (c : Config) (d : Dir) (t : BitVec 5) (key : Key) : (s.createSession c d t key).acc = some 0 := rfl
@[simp] theorem State.createSession_ctr (s : State) (c : Config) (d : Dir) (t : BitVec 5) (key : Key) : (s.createSession c d t key).ctr = none := rfl
@[simp] theorem State.createSession_ek0 (s : State) (c : Config) (d : Dir) (t : BitVec 5) (key : Key) : (s.createSession c d t key).ek0 = none := rfl
@[simp] theorem State.createSession_ks (s : State) (c : Config) (d : Dir) (t : BitVec 5) (key : Key) : (s.createSession c d t key).ks = none := rfl
@[simp] theorem State.createSession_buf (s : State) (c : Config) (d : Dir) (t : BitVec 5) (key : Key) : (s.createSession c d t key).buf = some [] := rfl
@[simp] theorem State.createSession_alen (s : State) (c : Config) (d : Dir) (t : BitVec 5) (key : Key) : (s.createSession c d t key).alen = some 0 := rfl
@[simp] theorem State.createSession_dlen (s : State) (c : Config) (d : Dir) (t : BitVec 5) (key : Key) : (s.createSession c d t key).dlen = some 0 := rfl
@[simp] theorem State.createSession_dir (s : State) (c : Config) (d : Dir) (t : BitVec 5) (key : Key) : (s.createSession c d t key).dir = some d := rfl
@[simp] theorem State.createSession_taglen (s : State) (c : Config) (d : Dir) (t : BitVec 5) (key : Key) : (s.createSession c d t key).taglen = some t := rfl
@[simp] theorem State.createSession_phase (s : State) (c : Config) (d : Dir) (t : BitVec 5) (key : Key) : (s.createSession c d t key).phase = .created := rfl
@[simp] theorem State.createSession_err (s : State) (c : Config) (d : Dir) (t : BitVec 5) (key : Key) : (s.createSession c d t key).err = .ok := rfl
@[simp] theorem State.createSession_hold (s : State) (c : Config) (d : Dir) (t : BitVec 5) (key : Key) : (s.createSession c d t key).hold = [] := rfl
@[simp] theorem State.createSession_host (s : State) (c : Config) (d : Dir) (t : BitVec 5) (key : Key) : (s.createSession c d t key).host = s.host := rfl
@[simp] theorem State.createSession_rsp (s : State) (c : Config) (d : Dir) (t : BitVec 5) (key : Key) : (s.createSession c d t key).rsp = s.rsp := rfl
@[simp] theorem State.createSession_ciph (s : State) (c : Config) (d : Dir) (t : BitVec 5) (key : Key) : (s.createSession c d t key).ciph = s.ciph := rfl

/-! ### The end of PROCESS (R98) -/

@[simp] theorem State.closeStream_keyctx (s : State) (p : Phase) (d : Dir) (n : BitVec 64) (len : Nat) (x : Stream) : (s.closeStream p d n len x).keyctx = s.keyctx := rfl
@[simp] theorem State.closeStream_h (s : State) (p : Phase) (d : Dir) (n : BitVec 64) (len : Nat) (x : Stream) : (s.closeStream p d n len x).h = s.h := rfl
@[simp] theorem State.closeStream_acc (s : State) (p : Phase) (d : Dir) (n : BitVec 64) (len : Nat) (x : Stream) : (s.closeStream p d n len x).acc = some x.acc := rfl
@[simp] theorem State.closeStream_ctr (s : State) (p : Phase) (d : Dir) (n : BitVec 64) (len : Nat) (x : Stream) : (s.closeStream p d n len x).ctr = some x.ctr := rfl
@[simp] theorem State.closeStream_ek0 (s : State) (p : Phase) (d : Dir) (n : BitVec 64) (len : Nat) (x : Stream) : (s.closeStream p d n len x).ek0 = s.ek0 := rfl
@[simp] theorem State.closeStream_ks (s : State) (p : Phase) (d : Dir) (n : BitVec 64) (len : Nat) (x : Stream) : (s.closeStream p d n len x).ks = x.ks := rfl
@[simp] theorem State.closeStream_buf (s : State) (p : Phase) (d : Dir) (n : BitVec 64) (len : Nat) (x : Stream) : (s.closeStream p d n len x).buf = some x.buf := rfl
@[simp] theorem State.closeStream_alen (s : State) (p : Phase) (d : Dir) (n : BitVec 64) (len : Nat) (x : Stream) : (s.closeStream p d n len x).alen = s.alen := rfl
@[simp] theorem State.closeStream_dlen (s : State) (p : Phase) (d : Dir) (n : BitVec 64) (len : Nat) (x : Stream) : (s.closeStream p d n len x).dlen = some (n + BitVec.ofNat 64 len) := rfl
@[simp] theorem State.closeStream_dir (s : State) (p : Phase) (d : Dir) (n : BitVec 64) (len : Nat) (x : Stream) : (s.closeStream p d n len x).dir = s.dir := rfl
@[simp] theorem State.closeStream_taglen (s : State) (p : Phase) (d : Dir) (n : BitVec 64) (len : Nat) (x : Stream) : (s.closeStream p d n len x).taglen = s.taglen := rfl
@[simp] theorem State.closeStream_phase (s : State) (p : Phase) (d : Dir) (n : BitVec 64) (len : Nat) (x : Stream) : (s.closeStream p d n len x).phase = p := rfl
@[simp] theorem State.closeStream_err (s : State) (p : Phase) (d : Dir) (n : BitVec 64) (len : Nat) (x : Stream) : (s.closeStream p d n len x).err = s.err := rfl
@[simp] theorem State.closeStream_hold (s : State) (p : Phase) (d : Dir) (n : BitVec 64) (len : Nat) (x : Stream) : (s.closeStream p d n len x).hold = s.hold ++ heldBack d x.out := rfl
@[simp] theorem State.closeStream_host (s : State) (p : Phase) (d : Dir) (n : BitVec 64) (len : Nat) (x : Stream) : (s.closeStream p d n len x).host = s.host := rfl
@[simp] theorem State.closeStream_rsp (s : State) (p : Phase) (d : Dir) (n : BitVec 64) (len : Nat) (x : Stream) : (s.closeStream p d n len x).rsp = s.rsp ++ [⟨.ok, p, emitted d x.out, []⟩] := rfl
@[simp] theorem State.closeStream_ciph (s : State) (p : Phase) (d : Dir) (n : BitVec 64) (len : Nat) (x : Stream) : (s.closeStream p d n len x).ciph = s.ciph ++ x.requests := rfl

/-! ### Presenting an event -/

@[simp] theorem State.present_keyctx (s : State) (e : HostEvent) : (s.present e).keyctx = s.keyctx := rfl
@[simp] theorem State.present_h (s : State) (e : HostEvent) : (s.present e).h = s.h := rfl
@[simp] theorem State.present_acc (s : State) (e : HostEvent) : (s.present e).acc = s.acc := rfl
@[simp] theorem State.present_ctr (s : State) (e : HostEvent) : (s.present e).ctr = s.ctr := rfl
@[simp] theorem State.present_ek0 (s : State) (e : HostEvent) : (s.present e).ek0 = s.ek0 := rfl
@[simp] theorem State.present_ks (s : State) (e : HostEvent) : (s.present e).ks = s.ks := rfl
@[simp] theorem State.present_buf (s : State) (e : HostEvent) : (s.present e).buf = s.buf := rfl
@[simp] theorem State.present_alen (s : State) (e : HostEvent) : (s.present e).alen = s.alen := rfl
@[simp] theorem State.present_dlen (s : State) (e : HostEvent) : (s.present e).dlen = s.dlen := rfl
@[simp] theorem State.present_dir (s : State) (e : HostEvent) : (s.present e).dir = s.dir := rfl
@[simp] theorem State.present_taglen (s : State) (e : HostEvent) : (s.present e).taglen = s.taglen := rfl
@[simp] theorem State.present_phase (s : State) (e : HostEvent) : (s.present e).phase = s.phase := rfl
@[simp] theorem State.present_err (s : State) (e : HostEvent) : (s.present e).err = s.err := rfl
@[simp] theorem State.present_hold (s : State) (e : HostEvent) : (s.present e).hold = s.hold := rfl
@[simp] theorem State.present_host (s : State) (e : HostEvent) : (s.present e).host = e :: s.host := rfl
@[simp] theorem State.present_rsp (s : State) (e : HostEvent) : (s.present e).rsp = s.rsp := rfl
@[simp] theorem State.present_ciph (s : State) (e : HostEvent) : (s.present e).ciph = s.ciph := rfl

end Sys2Proof.Machine
end

