-- ==== Sys2Proof/Laws/Commands.lean ====
section
/-! SUPPORT. Laws/Commands.lean: for each shared operation and each command, one lemma that says everything it can do:
if it answers a next state, then one of the cases named. Later proofs cite these and do not unfold the meanings. -/

namespace Sys2Proof.Machine

/-- A read that goes on: the element held a value. -/
theorem readReg_eq_next {α : Type} {r : Reg} {v : Option α} {k : α → Host.Outcome State Fault Refusal} {t : State} :
    readReg r v k = .next t ↔ ∃ a, v = some a ∧ k a = .next t := by
  cases v <;> simp [readReg]

@[simp] theorem readReg_some {α : Type} (r : Reg) (a : α) (k : α → Host.Outcome State Fault Refusal) :
    readReg r (some a) k = k a := rfl

@[simp] theorem readReg_none {α : Type} (r : Reg) (k : α → Host.Outcome State Fault Refusal) :
    readReg r none k = .fault (.noValue r) := rfl

/-- The read of KS goes on when no block is open or KS holds a value. -/
theorem readKs_eq_next {d : Stream} {k : Host.Outcome State Fault Refusal} {t : State} :
    readKs d k = .next t ↔ (d.buf = [] ∨ d.ks.isSome = true) ∧ k = .next t := by
  unfold readKs
  by_cases h : d.buf = []
  · simp [h]
  · cases hk : d.ks <;> simp [h, readReg]

/-- `raise` forgets everything but ERR and the ports. -/
theorem raiseError_dropSession (s : State) (st : Status) : (s.raiseError st).dropSession = s.raiseError st := rfl

/-- What INIT can do. It always answers a next state. -/
theorem execInitIn_cases {c : Config} {d : Dir} {t : BitVec 5} {key : Key} {s s' : State}
    (hx : execInitIn c d t key s = .next s') :
    (keyLengthOk c key.length = false ∧ s' = (s.request [.keySetup key]).raiseError .invalidKeyLength) ∨
    (keyLengthOk c key.length = true ∧ tagLengthOk c t = false ∧
      s' = (s.request [.keySetup key]).raiseError .invalidTagLength) ∨
    (keyLengthOk c key.length = true ∧ tagLengthOk c t = true ∧
      s' = ((s.request [.keySetup key, .encrypt 0]).createSession c d t key).respond .ok [] []) := by
  unfold execInitIn at hx
  split_ifs at hx with h1 h2
  · exact .inl ⟨h1, by simpa using hx.symm⟩
  · exact .inr (.inl ⟨by simpa using h1, h2, by simpa using hx.symm⟩)
  · exact .inr (.inr ⟨by simpa using h1, by simpa using h2, by simpa using hx.symm⟩)

/-- What SET_IV can do. -/
theorem execSetIvIn_cases {c : Config} {iv : List Byte} {s s' : State} (hx : execSetIvIn c iv s = .next s') :
    (transition s.phase (.setIv iv) = none ∧ s' = s.raiseError .sequenceError) ∨
    (s.phase = .created ∧ iv = [] ∧ s' = s.raiseError .invalidIvLength) ∨
    (s.phase = .created ∧ iv ≠ [] ∧ ∃ key h, s.keyctx = some key ∧ s.h = some h ∧
      s' = ({ s with
        ek0 := some (c.cipher key (deriveJ0 h iv)), ctr := some (inc32 (deriveJ0 h iv)), acc := some 0,
        phase := .ivSet }.request [.encrypt (deriveJ0 h iv)]).respond .ok [] []) := by
  unfold execSetIvIn at hx
  cases hp : s.phase <;> simp only [hp, transition] at hx <;>
    first
      | exact .inl ⟨by simp [transition], by simpa using hx.symm⟩
      | skip
  split_ifs at hx with h1
  · refine .inr (.inl ⟨rfl, ?_, by simpa using hx.symm⟩)
    simpa [ivLengthOk] using h1
  · simp only [readReg_eq_next] at hx
    obtain ⟨key, hk, h, hh, hs⟩ := hx
    refine .inr (.inr ⟨rfl, ?_, key, h, hk, hh, by simpa using hs.symm⟩)
    rintro rfl
    simp [ivLengthOk] at h1

/-- What ADD_AAD can do. -/
theorem execAddAadIn_cases {c : Config} {aad : List Byte} {s s' : State} (hx : execAddAadIn c aad s = .next s') :
    (transition s.phase (.addAad aad) = none ∧ s' = s.raiseError .sequenceError) ∨
    (s.phase = .ivSet ∧ ∃ a, s.alen = some a ∧ c.maxAad < a.toNat + aad.length ∧
      s' = s.raiseError .capacityExceeded) ∨
    (s.phase = .ivSet ∧ ∃ a h acc buf, s.alen = some a ∧ a.toNat + aad.length ≤ c.maxAad ∧ s.h = some h ∧
      s.acc = some acc ∧ s.buf = some buf ∧
      s' = { s with
        acc := some (absorb h (acc, buf) aad).1, buf := some (absorb h (acc, buf) aad).2,
        alen := some (a + BitVec.ofNat 64 aad.length), phase := .ivSet }.respond .ok [] []) := by
  unfold execAddAadIn at hx
  cases hp : s.phase <;> simp only [hp, transition] at hx <;>
    first
      | exact .inl ⟨by simp [transition], by simpa using hx.symm⟩
      | skip
  simp only [readReg_eq_next] at hx
  obtain ⟨a, ha, hx⟩ := hx
  split_ifs at hx with h1
  · exact .inr (.inl ⟨rfl, a, ha, by simpa [aadFits] using h1, by simpa using hx.symm⟩)
  · simp only [readReg_eq_next] at hx
    obtain ⟨h, hh, acc, hacc, buf, hbuf, hs⟩ := hx
    exact .inr (.inr ⟨rfl, a, h, acc, buf, ha, by simpa [aadFits] using h1, hh, hacc, hbuf, by simpa using hs.symm⟩)

/-- What FINISH_AAD can do. -/
theorem execFinishAad_cases {s s' : State} (hx : execFinishAad s = .next s') :
    (transition s.phase .finishAad = none ∧ s' = s.raiseError .sequenceError) ∨
    (s.phase = .ivSet ∧ ∃ h acc buf, s.h = some h ∧ s.acc = some acc ∧ s.buf = some buf ∧
      s' = { s with acc := some (foldPartial h acc buf), buf := some [], phase := .aadDone }.respond .ok [] []) := by
  unfold execFinishAad at hx
  cases hp : s.phase <;> simp only [hp, transition] at hx <;>
    first
      | exact .inl ⟨by simp [transition], by simpa using hx.symm⟩
      | skip
  simp only [readReg_eq_next] at hx
  obtain ⟨h, hh, acc, hacc, buf, hbuf, hs⟩ := hx
  exact .inr ⟨rfl, h, acc, buf, hh, hacc, hbuf, by simpa using hs.symm⟩

/-- The phases that admit PROCESS, and where it leads. -/
theorem transition_process {p q : Phase} {data : List Byte} :
    transition p (.process data) = some q ↔ q = .dataDone ∧ (p = .ivSet ∨ p = .aadDone ∨ p = .dataDone) := by
  cases p <;> cases q <;> simp [transition]

/-- The phase that admits FINISH, and where it leads. -/
theorem transition_finish {p q : Phase} {e : List Byte} :
    transition p (.finish e) = some q ↔ q = .finished ∧ p = .dataDone := by
  cases p <;> cases q <;> simp [transition]

/-- What PROCESS can do. -/
theorem execProcessIn_cases {c : Config} {data : List Byte} {s s' : State} (hx : execProcessIn c data s = .next s') :
    (transition s.phase (.process data) = none ∧ s' = s.raiseError .sequenceError) ∨
    (transition s.phase (.process data) = some .dataDone ∧ s' = s.raiseError .capacityExceeded ∧
      ((∃ n, s.dlen = some n ∧ Config.maxData < n.toNat + data.length) ∨
        (s.dir = some .dec ∧ c.holdCap < s.hold.length + data.length))) ∨
    (transition s.phase (.process data) = some .dataDone ∧ ∃ n d key h acc ctr buf, s.dlen = some n ∧
      n.toNat + data.length ≤ Config.maxData ∧ s.dir = some d ∧ holdFits c d s.hold.length data.length = true ∧
      s.keyctx = some key ∧ s.h = some h ∧ s.acc = some acc ∧ s.ctr = some ctr ∧ s.buf = some buf ∧
      ((openStream s.phase h acc ctr s.ks buf).buf = [] ∨ (openStream s.phase h acc ctr s.ks buf).ks.isSome = true) ∧
      s' = s.closeStream .dataDone d n data.length
        (xorBytes c key h d (openStream s.phase h acc ctr s.ks buf) data)) := by
  unfold execProcessIn at hx
  cases ht : transition s.phase (.process data) with
  | none => simp only [ht] at hx; exact .inl ⟨rfl, by simpa using hx.symm⟩
  | some p =>
    obtain ⟨rfl, -⟩ := transition_process.1 ht
    simp only [ht, readReg_eq_next] at hx
    obtain ⟨n, hn, hx⟩ := hx
    split_ifs at hx with h1
    · refine .inr (.inl ⟨rfl, by simpa using hx.symm, .inl ⟨n, hn, ?_⟩⟩)
      simpa [dataFits] using h1
    simp only [readReg_eq_next] at hx
    obtain ⟨d, hd, hx⟩ := hx
    split_ifs at hx with h2
    · refine .inr (.inl ⟨rfl, by simpa using hx.symm, .inr ?_⟩)
      cases d with
      | enc => simp [holdFits] at h2
      | dec => exact ⟨hd, by simpa [holdFits] using h2⟩
    simp only [readReg_eq_next, readKs_eq_next] at hx
    obtain ⟨key, hk, h, hh, acc, hacc, ctr, hctr, buf, hbuf, hks, hs⟩ := hx
    exact .inr (.inr ⟨rfl, n, d, key, h, acc, ctr, buf, hn, by simpa [dataFits] using h1, hd, by simpa using h2, hk, hh,
      hacc, hctr, hbuf, hks, by simpa using hs.symm⟩)

/-- What FINISH can do. -/
theorem execFinish_cases {e : List Byte} {s s' : State} (hx : execFinish e s = .next s') :
    (transition s.phase (.finish e) = none ∧ s' = s.raiseError .sequenceError) ∨
    (s.phase = .dataDone ∧ ∃ d t, s.dir = some d ∧ s.taglen = some t ∧
      finishLengthOk d t e.length = false ∧ s' = s.raiseError .invalidTagLength) ∨
    (s.phase = .dataDone ∧ ∃ d t h acc buf a n ek0, s.dir = some d ∧ s.taglen = some t ∧
      finishLengthOk d t e.length = true ∧ s.h = some h ∧ s.acc = some acc ∧ s.buf = some buf ∧ s.alen = some a ∧
      s.dlen = some n ∧ s.ek0 = some ek0 ∧
      s' = conclude .finished d (sessionTag ek0 (finalAcc h acc buf a n) t) e s) := by
  unfold execFinish at hx
  cases ht : transition s.phase (.finish e) with
  | none => simp only [ht] at hx; exact .inl ⟨rfl, by simpa using hx.symm⟩
  | some p =>
    obtain ⟨rfl, hp⟩ := transition_finish.1 ht
    simp only [ht, readReg_eq_next] at hx
    obtain ⟨d, hd, t, ht', hx⟩ := hx
    split_ifs at hx with h1
    · exact .inr (.inl ⟨hp, d, t, hd, ht', h1, by simpa using hx.symm⟩)
    simp only [readReg_eq_next] at hx
    obtain ⟨h, hh, acc, hacc, buf, hbuf, a, ha, n, hn, ek0, he, hs⟩ := hx
    exact .inr (.inr ⟨hp, d, t, h, acc, buf, a, n, ek0, hd, ht', by simpa using h1, hh, hacc, hbuf, ha, hn, he,
      by simpa using hs.symm⟩)

/-- The three ends of a session. -/
theorem conclude_cases (p : Phase) (d : Dir) (t e : List Byte) (s : State) :
    (d = .enc ∧ conclude p d t e s = (s.endSession p).respond .ok [] t) ∨
    (d = .dec ∧ t = e ∧ conclude p d t e s = (s.endSession p).respond .ok s.hold []) ∨
    (d = .dec ∧ t ≠ e ∧ conclude p d t e s = s.raiseError .authenticationError) := by
  cases d
  · exact .inl ⟨rfl, rfl⟩
  · by_cases h : t = e
    · exact .inr (.inl ⟨rfl, h, by simp [conclude, h]⟩)
    · exact .inr (.inr ⟨rfl, h, by simp [conclude, h]⟩)

/-! The dispatcher, command by command, on the configuration of the chip. -/

theorem exec_init (d : Dir) (n : BitVec 5) (key : List Byte) (s : State) :
    exec (.init d n key) s = execInitIn Config.chip d n key s := rfl

theorem exec_setIv (iv : List Byte) (s : State) : exec (.setIv iv) s = execSetIvIn Config.chip iv s := rfl

theorem exec_addAad (aad : List Byte) (s : State) : exec (.addAad aad) s = execAddAadIn Config.chip aad s := rfl

theorem exec_finishAad (s : State) : exec .finishAad s = execFinishAad s := rfl

theorem exec_process (data : List Byte) (s : State) : exec (.process data) s = execProcessIn Config.chip data s := rfl

theorem exec_finish (e : List Byte) (s : State) : exec (.finish e) s = execFinish e s := rfl

/-- What a command can do, all six at once: it fails with the effect of `raise` (after its cipher requests, which only INIT
has made by then), or it is one of the six successes. -/
theorem exec_cases {i : Instr} {s t : State} (hx : exec i s = .next t) :
    (∃ st cs, st ≠ .ok ∧ t = (s.request cs).raiseError st ∧ ((∀ d n key, i ≠ .init d n key) → cs = [])) ∨
    (∃ d n key, i = .init d n key ∧ keyLengthOk Config.chip key.length = true ∧ tagLengthOk Config.chip n = true ∧
      t = ((s.request [.keySetup key, .encrypt 0]).createSession Config.chip d n key).respond .ok [] []) ∨
    (∃ iv key h, i = .setIv iv ∧ s.phase = .created ∧ s.keyctx = some key ∧ s.h = some h ∧ iv ≠ [] ∧
      t = ({ s with
        ek0 := some (Config.chip.cipher key (deriveJ0 h iv)), ctr := some (inc32 (deriveJ0 h iv)), acc := some 0,
        phase := .ivSet }.request [.encrypt (deriveJ0 h iv)]).respond .ok [] []) ∨
    (∃ aad, i = .addAad aad ∧ s.phase = .ivSet ∧ ∃ a h acc buf, s.alen = some a ∧
      a.toNat + aad.length ≤ Config.chip.maxAad ∧ s.h = some h ∧ s.acc = some acc ∧ s.buf = some buf ∧
      t = { s with
        acc := some (absorb h (acc, buf) aad).1, buf := some (absorb h (acc, buf) aad).2,
        alen := some (a + BitVec.ofNat 64 aad.length), phase := .ivSet }.respond .ok [] []) ∨
    (i = .finishAad ∧ s.phase = .ivSet ∧ ∃ h acc buf, s.h = some h ∧ s.acc = some acc ∧ s.buf = some buf ∧
      t = { s with acc := some (foldPartial h acc buf), buf := some [], phase := .aadDone }.respond .ok [] []) ∨
    (∃ data, i = .process data ∧ (s.phase = .ivSet ∨ s.phase = .aadDone ∨ s.phase = .dataDone) ∧
      ∃ n d key h acc ctr buf, s.dlen = some n ∧ n.toNat + data.length ≤ Config.maxData ∧ s.dir = some d ∧
      holdFits Config.chip d s.hold.length data.length = true ∧ s.keyctx = some key ∧ s.h = some h ∧
      s.acc = some acc ∧ s.ctr = some ctr ∧ s.buf = some buf ∧
      ((openStream s.phase h acc ctr s.ks buf).buf = [] ∨ (openStream s.phase h acc ctr s.ks buf).ks.isSome = true) ∧
      t = s.closeStream .dataDone d n data.length
        (xorBytes Config.chip key h d (openStream s.phase h acc ctr s.ks buf) data)) ∨
    (∃ e o tag, i = .finish e ∧ s.phase = .dataDone ∧ t = (s.endSession .finished).respond .ok o tag ∧
      ((s.dir = some .enc ∧ o = [] ∧ e = [] ∧ ∃ n h acc buf a dlen ek0, s.taglen = some n ∧ s.h = some h ∧
          s.acc = some acc ∧ s.buf = some buf ∧ s.alen = some a ∧ s.dlen = some dlen ∧ s.ek0 = some ek0 ∧
          tag = sessionTag ek0 (finalAcc h acc buf a dlen) n) ∨
        (s.dir = some .dec ∧ o = s.hold ∧ tag = []))) := by
  cases i with
  | init d n key =>
    rcases execInitIn_cases hx with ⟨a, rfl⟩ | ⟨a, b, rfl⟩ | ⟨a, b, rfl⟩
    · exact .inl ⟨_, _, by decide, rfl, fun h => absurd rfl (h _ _ _)⟩
    · exact .inl ⟨_, _, by decide, rfl, fun h => absurd rfl (h _ _ _)⟩
    · exact .inr (.inl ⟨_, _, _, rfl, a, b, rfl⟩)
  | setIv iv =>
    rcases execSetIvIn_cases hx with ⟨a, rfl⟩ | ⟨a, b, rfl⟩ | ⟨a, b, k, h, c, d, rfl⟩
    · exact .inl ⟨.sequenceError, [], by decide, by simp [State.request], fun _ => rfl⟩
    · exact .inl ⟨.invalidIvLength, [], by decide, by simp [State.request], fun _ => rfl⟩
    · exact .inr (.inr (.inl ⟨_, _, _, rfl, a, c, d, b, rfl⟩))
  | addAad x =>
    rcases execAddAadIn_cases hx with ⟨a, rfl⟩ | ⟨a, n, b, c, rfl⟩ | ⟨a, n, h, acc, buf, b, c, d, e, f, rfl⟩
    · exact .inl ⟨.sequenceError, [], by decide, by simp [State.request], fun _ => rfl⟩
    · exact .inl ⟨.capacityExceeded, [], by decide, by simp [State.request], fun _ => rfl⟩
    · exact .inr (.inr (.inr (.inl ⟨_, rfl, a, _, _, _, _, b, c, d, e, f, rfl⟩)))
  | finishAad =>
    rcases execFinishAad_cases hx with ⟨a, rfl⟩ | ⟨a, h, acc, buf, b, c, d, rfl⟩
    · exact .inl ⟨.sequenceError, [], by decide, by simp [State.request], fun _ => rfl⟩
    · exact .inr (.inr (.inr (.inr (.inl ⟨rfl, a, _, _, _, b, c, d, rfl⟩))))
  | process x =>
    rcases execProcessIn_cases hx with ⟨a, rfl⟩ | ⟨a, rfl, b⟩ | ⟨a, b⟩
    · exact .inl ⟨.sequenceError, [], by decide, by simp [State.request], fun _ => rfl⟩
    · exact .inl ⟨.capacityExceeded, [], by decide, by simp [State.request], fun _ => rfl⟩
    · exact .inr (.inr (.inr (.inr (.inr (.inl ⟨_, rfl, (transition_process.1 a).2, b⟩)))))
  | finish e =>
    rcases execFinish_cases hx with ⟨a, rfl⟩ | ⟨a, d, n, _, _, _, rfl⟩ |
      ⟨a, d, n, h, acc, buf, al, dl, ek, h1, h2, h3, h4, h5, h6, h7, h8, h9, rfl⟩
    · exact .inl ⟨.sequenceError, [], by decide, by simp [State.request], fun _ => rfl⟩
    · exact .inl ⟨.invalidTagLength, [], by decide, by simp [State.request], fun _ => rfl⟩
    rcases conclude_cases .finished d (sessionTag ek (finalAcc h acc buf al dl) n) e s with
      ⟨g, hh⟩ | ⟨g, -, hh⟩ | ⟨g, -, hh⟩ <;> rw [hh]
    · subst g
      have : e = [] := by simpa [finishLengthOk] using h3
      exact .inr (.inr (.inr (.inr (.inr (.inr ⟨_, _, _, rfl, a, rfl,
        .inl ⟨h1, rfl, this, _, _, _, _, _, _, _, h2, h4, h5, h6, h7, h8, h9, rfl⟩⟩)))))
    · subst g
      exact .inr (.inr (.inr (.inr (.inr (.inr ⟨_, _, _, rfl, a, rfl, .inr ⟨h1, rfl, rfl⟩⟩)))))
    · exact .inl ⟨.authenticationError, [], by decide, by simp [State.request], fun _ => rfl⟩

/-- What a step can do. -/
theorem step_cases {s s' : State} (hx : step s = .next s') :
    (s.host = [] ∧ s' = s) ∨
    (∃ rest, s.host = .reset :: rest ∧ s' = { s with host := rest }.hardwareReset) ∨
    (∃ hdr p rest e, s.host = .command hdr p :: rest ∧ decode hdr p = .error e ∧
      s' = { s with host := rest }.raiseError .illegalCommand) ∨
    (∃ hdr p rest i, s.host = .command hdr p :: rest ∧ decode hdr p = .ok i ∧
      exec i { s with host := rest } = .next s') := by
  unfold step State.takeEvent at hx
  cases hh : s.host with
  | nil => simp only [hh] at hx; exact .inl ⟨rfl, by simpa using hx.symm⟩
  | cons ev rest =>
    cases ev with
    | reset => simp only [hh] at hx; exact .inr (.inl ⟨rest, rfl, by simpa using hx.symm⟩)
    | command hdr p =>
      simp only [hh] at hx
      cases hd : decode hdr p with
      | error e => simp only [hd] at hx; exact .inr (.inr (.inl ⟨hdr, p, rest, e, rfl, hd, by simpa using hx.symm⟩))
      | ok i => simp only [hd] at hx; exact .inr (.inr (.inr ⟨hdr, p, rest, i, rfl, hd, hx⟩))

end Sys2Proof.Machine
end

