-- ==== Sys2Proof/Laws/Encoding.lean ====
section
/-! SUPPORT. Laws/Encoding.lean: the header fields and the encoder as numbers (30_encoding.md R41, R42), so that proofs about
the encoding are arithmetic. -/

namespace Sys2Proof

/-- A concatenation as a number. -/
theorem append_toNat {m n : Nat} (x : BitVec m) (y : BitVec n) : (x ++ y).toNat = x.toNat * 2 ^ n + y.toNat := by
  rw [BitVec.toNat_append, Nat.shiftLeft_eq, Nat.mul_comm, Nat.two_pow_add_eq_or_of_lt y.isLt]

theorem extract_toNat (h : Header) (lo len : Nat) : (h.extractLsb' lo len).toNat = h.toNat / 2 ^ lo % 2 ^ len := by
  rw [BitVec.extractLsb'_toNat, Nat.shiftRight_eq_div_pow]

theorem opField_toNat (h : Header) : (opField h).toNat = h.toNat / 2 ^ 56 % 2 ^ 8 := extract_toNat h 56 8

theorem argField_toNat (h : Header) : (argField h).toNat = h.toNat / 2 ^ 48 % 2 ^ 8 := extract_toNat h 48 8

theorem rsv1Field_toNat (h : Header) : (rsv1Field h).toNat = h.toNat / 2 ^ 53 % 2 ^ 2 := extract_toNat h 53 2

theorem taglenField_toNat (h : Header) : (taglenField h).toNat = h.toNat / 2 ^ 48 % 2 ^ 5 := extract_toNat h 48 5

theorem rsv0Field_toNat (h : Header) : (rsv0Field h).toNat = h.toNat / 2 ^ 32 % 2 ^ 16 := extract_toNat h 32 16

theorem lenField_toNat (h : Header) : (lenField h).toNat = h.toNat % 2 ^ 32 := by
  rw [lenField, extract_toNat, pow_zero, Nat.div_one]

theorem dirField_eq (h : Header) : dirField h = decide (h.toNat / 2 ^ 55 % 2 = 1) := by
  rw [dirField, BitVec.getLsbD, Nat.testBit_eq_decide_div_mod_eq]

/-- The ARG byte of a command as a number. -/
theorem arg_toNat_init (d : Dir) (t : BitVec 5) (key : List Byte) :
    (Instr.init d t key).arg.toNat = (if d = .dec then 128 else 0) + t.toNat := by
  rw [Instr.arg, append_toNat, append_toNat]
  cases d <;> simp [Dir.toBit]

/-- R41: the header of a command as a number. -/
theorem encode_toNat (i : Instr) :
    (encode i).toNat = i.op.toNat * 2 ^ 56 + i.arg.toNat * 2 ^ 48 + i.payload.length % 2 ^ 32 := by
  have h : (encode i).toNat = ((i.op.toNat * 2 ^ 8 + i.arg.toNat) * 2 ^ 16 + (0 : BitVec 16).toNat) * 2 ^ 32 +
      (BitVec.ofNat 32 i.payload.length).toNat := by
    rw [encode]
    exact ((append_toNat _ _).trans (by rw [append_toNat, append_toNat]))
  rw [h, BitVec.toNat_ofNat]
  simp only [BitVec.ofNat_eq_ofNat, BitVec.toNat_ofNat, Nat.zero_mod]
  omega

end Sys2Proof
end

