-- ==== Sys2Proof/Laws/PerInstr.lean ====
section
/-! SUPPORT. Laws/PerInstr.lean: the statements made per command. TableRow: the header of a well-formed command selects
its own row of the opcode map (30_encoding.md R44). -/

namespace Sys2Proof.Laws.TableRow

/-- R44: the header of `i` has the row of its mnemonic, and that row selects it. -/
def Statement (i : Instr) : Prop :=
  i.wellFormed = true → ∃ r ∈ opcodeRows, r.mnemonic = i.mnemonic ∧ r.selects (encode i) = true

/-- A header masked by halves. -/
theorem and_halves (a b c d : BitVec 32) :
    ((a ++ b : BitVec (32 + 32)) &&& (c ++ d)) = (a &&& c) ++ (b &&& d) := BitVec.and_append

/-- A header whose upper half is `hi` is selected by a row that masks the whole upper half and has LEN free. -/
theorem selects_of_halves (r : Row) (hi len : BitVec 32) (hm : r.mask = 0xFFFFFFFF00000000) (h : Header)
    (hv : r.value = (hi ++ 0#32 : BitVec (32 + 32))) (hh : h = (hi ++ len : BitVec (32 + 32))) :
    r.selects h = true := by
  have hmask : (0xFFFFFFFF00000000 : Header) = (BitVec.allOnes 32 ++ 0#32 : BitVec (32 + 32)) := by decide
  rw [Row.selects, beq_iff_eq, hv, hm, hh, hmask]
  exact (and_halves _ _ _ _).trans (by rw [BitVec.and_allOnes, BitVec.and_zero])

theorem init (d : Dir) (t : BitVec 5) (key : List Byte) : Statement (.init d t key) := by
  intro _
  refine ⟨⟨"INIT", 0x0100000000000000, 0xFF60FFFF00000000⟩, by simp [opcodeRows], rfl, ?_⟩
  have hi : ∀ t : BitVec 5, ∀ b : Bool, ((1#8 ++ (BitVec.ofBool b ++ (0 : BitVec 2) ++ t) ++ (0 : BitVec 16) :
      BitVec (8 + (1 + 2 + 5) + 16)) &&& 0xFF60FFFF#32) = 0x01000000#32 := by
    decide
  have hm : (0xFF60FFFF00000000 : Header) = (0xFF60FFFF#32 ++ 0#32 : BitVec (32 + 32)) := by decide
  have hv : (0x0100000000000000 : Header) = (0x01000000#32 ++ 0#32 : BitVec (32 + 32)) := by decide
  rw [Row.selects, beq_iff_eq, hm, hv]
  refine (and_halves _ _ _ _).trans ?_
  rw [BitVec.and_zero]
  exact congrArg (fun x : BitVec 32 => (x ++ 0#32 : BitVec (32 + 32))) (hi t d.toBit)

theorem setIv (iv : List Byte) : Statement (.setIv iv) := fun _ =>
  ⟨⟨"SET_IV", 0x0200000000000000, 0xFFFFFFFF00000000⟩, by simp [opcodeRows], rfl,
    selects_of_halves _ (0x02#8 ++ 0#8 ++ 0#16 : BitVec (8 + 8 + 16)) (BitVec.ofNat 32 iv.length) rfl _ (by decide) rfl⟩

theorem addAad (aad : List Byte) : Statement (.addAad aad) := fun _ =>
  ⟨⟨"ADD_AAD", 0x0300000000000000, 0xFFFFFFFF00000000⟩, by simp [opcodeRows], rfl,
    selects_of_halves _ (0x03#8 ++ 0#8 ++ 0#16 : BitVec (8 + 8 + 16)) (BitVec.ofNat 32 aad.length) rfl _ (by decide) rfl⟩

theorem finishAad : Statement .finishAad := fun _ =>
  ⟨⟨"FINISH_AAD", 0x0400000000000000, 0xFFFFFFFFFFFFFFFF⟩, by simp [opcodeRows], rfl, by decide⟩

theorem process (data : List Byte) : Statement (.process data) := fun _ =>
  ⟨⟨"PROCESS", 0x0500000000000000, 0xFFFFFFFF00000000⟩, by simp [opcodeRows], rfl,
    selects_of_halves _ (0x05#8 ++ 0#8 ++ 0#16 : BitVec (8 + 8 + 16)) (BitVec.ofNat 32 data.length) rfl _ (by decide) rfl⟩

theorem finish (e : List Byte) : Statement (.finish e) := fun _ =>
  ⟨⟨"FINISH", 0x0600000000000000, 0xFFFFFFFF00000000⟩, by simp [opcodeRows], rfl,
    selects_of_halves _ (0x06#8 ++ 0#8 ++ 0#16 : BitVec (8 + 8 + 16)) (BitVec.ofNat 32 e.length) rfl _ (by decide) rfl⟩

end Sys2Proof.Laws.TableRow
end

