-- ==== Sys2Proof/Laws/Streams.lean ====
section
/-! SUPPORT. Laws/Streams.lean: what the byte loops of ADD_AAD and PROCESS do to a whole byte stream: complete 16-byte chunks
are folded, the rest waits (41_ghash_accumulator.md R66, 42_ctr_keystream.md R73, 10_state.md R26). -/

namespace Sys2Proof.Machine

/-! ### Complete chunks and the rest -/

theorem fullPart_append_restPart (s : List Byte) : fullPart s ++ restPart s = s := List.take_append_drop _ _

theorem fullPart_length (s : List Byte) : (fullPart s).length = 16 * (s.length / 16) := by
  simp only [fullPart, List.length_take]; omega

theorem fullPart_length_mod (s : List Byte) : (fullPart s).length % 16 = 0 := by rw [fullPart_length]; omega

theorem restPart_length (s : List Byte) : (restPart s).length = s.length % 16 := by
  simp only [restPart, List.length_drop]; omega

/-- A byte that completes no chunk waits. -/
theorem fullPart_snoc_of_lt {s : List Byte} {b : Byte} (h : s.length % 16 ≠ 15) :
    fullPart (s ++ [b]) = fullPart s ∧ restPart (s ++ [b]) = restPart s ++ [b] := by
  have hd : (s ++ [b]).length / 16 = s.length / 16 := by simp only [List.length_append, List.length_singleton]; omega
  simp only [fullPart, restPart, hd]
  constructor
  · exact List.take_append_of_le_length (by omega)
  · exact List.drop_append_of_le_length (by omega)

/-- A byte that completes a chunk leaves nothing waiting. -/
theorem fullPart_snoc_of_eq {s : List Byte} {b : Byte} (h : s.length % 16 = 15) :
    fullPart (s ++ [b]) = fullPart s ++ (restPart s ++ [b]) ∧ restPart (s ++ [b]) = [] := by
  have hd : 16 * ((s ++ [b]).length / 16) = (s ++ [b]).length := by
    simp only [List.length_append, List.length_singleton]; omega
  constructor
  · rw [fullPart, hd, List.take_length, ← List.append_assoc, fullPart_append_restPart]
  · rw [restPart, hd, List.drop_length]

/-- Whole chunks in front of a byte string stay whole chunks in front of it. -/
theorem fullPart_append_of_mod {d s : List Byte} (h : d.length % 16 = 0) :
    fullPart (d ++ s) = d ++ fullPart s ∧ restPart (d ++ s) = restPart s := by
  have hd : 16 * ((d ++ s).length / 16) = d.length + 16 * (s.length / 16) := by
    simp only [List.length_append]; omega
  constructor
  · rw [fullPart, hd, List.take_length_add_append, fullPart]
  · rw [restPart, hd, List.drop_length_add_append, restPart]

theorem fullPart_of_short {s : List Byte} (h : s.length ≤ 15) : fullPart s = [] ∧ restPart s = s := by
  have : s.length / 16 = 0 := by omega
  simp [fullPart, restPart, this]

/-! ### GHASH over chunks -/

theorem blocksOf_nil : blocksOf [] = [] := rfl

theorem blocksOf_block {s : List Byte} (h : s.length = 16) : blocksOf s = [blockOfBytes s] := by
  have : List.take 16 s = s := List.take_of_length_le (by omega)
  simp [blocksOf, h, this]

/-- Blocks of whole chunks, then the blocks of what follows. -/
theorem blocksOf_append {d s : List Byte} (h : d.length % 16 = 0) : blocksOf (d ++ s) = blocksOf d ++ blocksOf s := by
  have hl : (d ++ s).length / 16 = d.length / 16 + s.length / 16 := by simp only [List.length_append]; omega
  have hd : d.length = 16 * (d.length / 16) := by omega
  simp only [blocksOf, hl, List.range_add, List.map_append, List.map_map]
  congr 1
  · refine List.map_congr_left fun j hj => ?_
    have hj : j < d.length / 16 := List.mem_range.1 hj
    rw [List.drop_append_of_le_length (by omega), List.take_append_of_le_length (by rw [List.length_drop]; omega)]
  · refine List.map_congr_left fun j _ => ?_
    have : 16 * (d.length / 16 + j) = d.length + 16 * j := by omega
    simp only [Function.comp, this, List.drop_length_add_append]

/-- R66: GHASH continued. -/
theorem ghashFrom_append (h y : Block) {d : List Byte} (s : List Byte) (hd : d.length % 16 = 0) :
    ghashFrom h y (d ++ s) = ghashFrom h (ghashFrom h y d) s := by
  simp only [ghashFrom, blocksOf_append hd, List.foldl_append]

theorem ghashFrom_nil (h y : Block) : ghashFrom h y [] = y := rfl

/-- R61, R66: one more Block is one more update. -/
theorem ghashFrom_block (h y : Block) {s : List Byte} (hs : s.length = 16) :
    ghashFrom h y s = ghUpdate h y (blockOfBytes s) := by
  simp [ghashFrom, blocksOf_block hs]

/-! ### The AAD loop (R94) -/

theorem absorb_append (h : Block) (st : Block × List Byte) (x y : List Byte) :
    absorb h st (x ++ y) = absorb h (absorb h st x) y := List.foldl_append ..

/-- R94, R26: from ACC and BUF that stand for the stream `pre`, one byte leaves ACC and BUF that stand for the stream with
that byte. -/
theorem absorbByte_stream (h y : Block) (pre : List Byte) (b : Byte) :
    absorbByte h (ghashFrom h y (fullPart pre), restPart pre) b =
      (ghashFrom h y (fullPart (pre ++ [b])), restPart (pre ++ [b])) := by
  have hr := restPart_length pre
  by_cases hb : pre.length % 16 = 15
  · obtain ⟨h1, h2⟩ := fullPart_snoc_of_eq (b := b) hb
    have hl : (restPart pre ++ [b]).length = 16 := by simp only [List.length_append, List.length_singleton]; omega
    rw [absorbByte, h1, h2, ghashFrom_append h y _ (fullPart_length_mod pre), ghashFrom_block _ _ hl]
    simp only [hl, if_true]
  · obtain ⟨h1, h2⟩ := fullPart_snoc_of_lt (b := b) hb
    have hl : (restPart pre ++ [b]).length ≠ 16 := by simp only [List.length_append, List.length_singleton]; omega
    rw [absorbByte, h1, h2]
    simp only [hl, if_false]

/-- R94, R26: the loop of ADD_AAD on a stream. -/
theorem absorb_stream (h y : Block) (pre x : List Byte) :
    absorb h (ghashFrom h y (fullPart pre), restPart pre) x =
      (ghashFrom h y (fullPart (pre ++ x)), restPart (pre ++ x)) := by
  induction x generalizing pre with
  | nil => rw [List.append_nil]; rfl
  | cons b x ih =>
    rw [absorb, List.foldl_cons, absorbByte_stream, List.append_cons pre b x]
    exact ih (pre ++ [b])

/-- R97, R67: what is folded when the stream ends is the stream padded. -/
theorem foldPartial_stream (h y : Block) (s : List Byte) :
    foldPartial h (ghashFrom h y (fullPart s)) (restPart s) = ghashFrom h y (pad16 s) := by
  have hr := restPart_length s
  by_cases hz : s.length % 16 = 0
  · have h1 : restPart s = [] := List.length_eq_zero_iff.1 (by omega)
    have h2 : fullPart s = s := by simpa [h1] using fullPart_append_restPart s
    simp [foldPartial, h1, h2, pad16, hz]
  · have h1 : restPart s ≠ [] := fun e => by rw [e] at hr; simp at hr; omega
    have h3 : pad16 s = fullPart s ++ (restPart s ++ List.replicate (16 - (restPart s).length) 0) := by
      have : (16 - s.length % 16) % 16 = 16 - (restPart s).length := by omega
      rw [pad16, this, ← List.append_assoc, fullPart_append_restPart]
    have hl : (restPart s ++ List.replicate (16 - (restPart s).length) (0 : Byte)).length = 16 := by
      simp only [List.length_append, List.length_replicate]; omega
    rw [foldPartial, if_neg h1, h3, ghashFrom_append h y _ (fullPart_length_mod s), ghashFrom_block _ _ hl]
    rfl

theorem pad16_length_mod (s : List Byte) : (pad16 s).length % 16 = 0 := by
  simp only [pad16, List.length_append, List.length_replicate]; omega

/-! ### The data loop (R73, R98) -/

theorem xorBytes_append (c : Config) (key : Key) (h : Block) (dir : Dir) (d : Stream) (x y : List Byte) :
    xorBytes c key h dir d (x ++ y) = xorBytes c key h dir (xorBytes c key h dir d x) y := List.foldl_append ..

theorem inc32Iter_succ (x : Block) (j : Nat) : inc32Iter x (j + 1) = inc32 (inc32Iter x j) := rfl

theorem inc32Iter_add (x : Block) (j k : Nat) : inc32Iter x (j + k) = inc32Iter (inc32Iter x j) k := by
  induction k with
  | zero => rfl
  | succ k ih => rw [← Nat.add_assoc, inc32Iter_succ, ih, inc32Iter_succ]

/-- R26: the stream registers of a session whose ciphertext so far is `pre`, its GHASH having started from `y`. -/
structure StreamAt (c : Config) (key : Key) (h j0 y : Block) (pre : List Byte) (d : Stream) : Prop where
  acc : d.acc = ghashFrom h y (fullPart pre)
  buf : d.buf = restPart pre
  ctr : d.ctr = inc32Iter j0 (1 + blocksBegun pre.length)
  ks : d.ks = if pre.length % 16 = 0 then none else some (c.cipher key (inc32Iter j0 (blocksBegun pre.length)))

/-- R73, R26: one byte of the data loop. -/
theorem xorByte_stream {c : Config} {key : Key} {h j0 y : Block} {pre : List Byte} {d : Stream} (dir : Dir) (b : Byte)
    (hd : StreamAt c key h j0 y pre d) :
    StreamAt c key h j0 y (pre ++ [cipherByte dir b (b ^^^ keystreamByte c key j0 pre.length)]) (xorByte c key h dir d b) ∧
      (xorByte c key h dir d b).out = d.out ++ [b ^^^ keystreamByte c key j0 pre.length] ∧
      (xorByte c key h dir d b).requests = d.requests ++
        if pre.length % 16 = 0 then [.encrypt (inc32Iter j0 (1 + blocksBegun pre.length))] else [] := by
  obtain ⟨hacc, hbuf, hctr, hks⟩ := hd
  have hr := restPart_length pre
  -- the keystream block in use and the registers after KS_NEXT, if it ran
  obtain ⟨ks, ctr, hks', hctr', hx⟩ : ∃ ks ctr, ks = c.cipher key (inc32Iter j0 (1 + pre.length / 16)) ∧
      ctr = inc32Iter j0 (1 + (1 + pre.length / 16)) ∧
      xorByte c key h dir d b = xorStore h dir
        { d with ks := some ks, ctr := ctr, requests := d.requests ++
          if pre.length % 16 = 0 then [.encrypt (inc32Iter j0 (1 + blocksBegun pre.length))] else [] } ks b := by
    by_cases hz : pre.length % 16 = 0
    · have hb0 : d.buf = [] := by rw [hbuf]; exact List.length_eq_zero_iff.1 (by omega)
      have hbb : blocksBegun pre.length = pre.length / 16 := by simp only [blocksBegun]; omega
      refine ⟨_, _, rfl, rfl, ?_⟩
      simp only [xorByte, hb0, if_true, ksNext, hctr, hbb, hz, Option.getD_some]
      rw [← inc32Iter_succ, Nat.add_comm 1 (1 + pre.length / 16)]
    · have hb0 : d.buf ≠ [] := fun e => by rw [← hbuf, e] at hr; simp at hr; omega
      have hbb : blocksBegun pre.length = 1 + pre.length / 16 := by simp only [blocksBegun]; omega
      rw [if_neg hz, hbb] at hks
      refine ⟨_, _, rfl, rfl, ?_⟩
      simp only [xorByte, hb0, if_false, hks, hz, Option.getD_some, List.append_nil]
      rw [hbb] at hctr
      rw [← hctr, ← hks]
  have hlen : d.buf.length = pre.length % 16 := by rw [hbuf, hr]
  have ho : b ^^^ blockByte ks d.buf.length = b ^^^ keystreamByte c key j0 pre.length := by
    rw [keystreamByte, ← hks', hlen]
  have hbb' : blocksBegun (pre.length + 1) = 1 + pre.length / 16 := by simp only [blocksBegun]; omega
  rw [hx]
  by_cases h15 : pre.length % 16 = 15
  · obtain ⟨h1, h2⟩ := fullPart_snoc_of_eq (b := cipherByte dir b (b ^^^ keystreamByte c key j0 pre.length)) h15
    have hl : (d.buf ++ [cipherByte dir b (b ^^^ keystreamByte c key j0 pre.length)]).length = 16 := by
      simp only [List.length_append, List.length_singleton]; omega
    simp only [xorStore, ho, hl, if_true]
    refine ⟨⟨?_, ?_, ?_, ?_⟩, trivial, trivial⟩
    · rw [h1, ghashFrom_append h y _ (fullPart_length_mod pre), ← hbuf, ghashFrom_block _ _ hl, hacc]
    · exact h2.symm
    · simp only [List.length_append, List.length_singleton, hbb']; exact hctr'
    · have hz : (pre.length + 1) % 16 = 0 := by omega
      simp only [List.length_append, List.length_singleton, hz, if_true]
  · obtain ⟨h1, h2⟩ := fullPart_snoc_of_lt (b := cipherByte dir b (b ^^^ keystreamByte c key j0 pre.length)) h15
    have hl : (d.buf ++ [cipherByte dir b (b ^^^ keystreamByte c key j0 pre.length)]).length ≠ 16 := by
      simp only [List.length_append, List.length_singleton]; omega
    simp only [xorStore, ho, hl, if_false]
    refine ⟨⟨?_, ?_, ?_, ?_⟩, trivial, trivial⟩
    · rw [h1]; exact hacc
    · rw [h2, hbuf]
    · simp only [List.length_append, List.length_singleton, hbb']; exact hctr'
    · have hz : (pre.length + 1) % 16 ≠ 0 := by omega
      simp only [List.length_append, List.length_singleton, hbb', hks', hz, if_false]

/-- R105: bytes XORed with the session's keystream from position `n` on. -/
def xorKeystreamFrom (c : Config) (key : Key) (j0 : Block) (n : Nat) (x : List Byte) : List Byte :=
  x.mapIdx fun i b => b ^^^ keystreamByte c key j0 (n + i)

theorem xorKeystream_append (c : Config) (key : Key) (j0 : Block) (x y : List Byte) :
    xorKeystream c key j0 (x ++ y) = xorKeystream c key j0 x ++ xorKeystreamFrom c key j0 x.length y := by
  simp only [xorKeystream, xorKeystreamFrom, List.mapIdx_append, Nat.add_comm]

theorem xorKeystream_length (c : Config) (key : Key) (j0 : Block) (x : List Byte) :
    (xorKeystream c key j0 x).length = x.length := List.length_mapIdx

theorem xorKeystreamFrom_cons (c : Config) (key : Key) (j0 : Block) (n : Nat) (b : Byte) (x : List Byte) :
    xorKeystreamFrom c key j0 n (b :: x) =
      (b ^^^ keystreamByte c key j0 n) :: xorKeystreamFrom c key j0 (n + 1) x := by
  simp only [xorKeystreamFrom, List.mapIdx_cons, Nat.add_zero, Nat.add_assoc, Nat.add_comm 1]

/-- R105: the XOR with the keystream is its own inverse. -/
theorem xorKeystream_involutive (c : Config) (key : Key) (j0 : Block) (x : List Byte) :
    xorKeystream c key j0 (xorKeystream c key j0 x) = x := by
  refine List.ext_getElem (by simp only [xorKeystream_length]) fun i _ _ => ?_
  simp only [xorKeystream, List.getElem_mapIdx, BitVec.xor_assoc, BitVec.xor_self, BitVec.xor_zero]

/-- R73: the ciphertext bytes of a payload at position `n`. -/
def cipherBytesFrom (c : Config) (key : Key) (j0 : Block) (dir : Dir) (n : Nat) (x : List Byte) : List Byte :=
  match dir with
  | .enc => xorKeystreamFrom c key j0 n x
  | .dec => x

theorem blocksBegun_succ_sub (n k : Nat) :
    blocksBegun (n + (k + 1)) - blocksBegun n =
      (if n % 16 = 0 then 1 else 0) + (blocksBegun (n + 1 + k) - blocksBegun (n + 1)) := by
  simp only [blocksBegun]; split_ifs <;> omega

/-- R73, R78, R98: the loop of PROCESS on a stream: the registers, the output bytes and the cipher requests. -/
theorem xorBytes_stream {c : Config} {key : Key} {h j0 y : Block} {pre : List Byte} {d : Stream} (dir : Dir)
    (x : List Byte) (hd : StreamAt c key h j0 y pre d) :
    StreamAt c key h j0 y (pre ++ cipherBytesFrom c key j0 dir pre.length x) (xorBytes c key h dir d x) ∧
      (xorBytes c key h dir d x).out = d.out ++ xorKeystreamFrom c key j0 pre.length x ∧
      (xorBytes c key h dir d x).requests = d.requests ++
        (List.range (blocksBegun (pre.length + x.length) - blocksBegun pre.length)).map
          fun j => .encrypt (inc32Iter j0 (1 + blocksBegun pre.length + j)) := by
  induction x generalizing pre d with
  | nil =>
    have : cipherBytesFrom c key j0 dir pre.length [] = [] := by cases dir <;> rfl
    simp only [this, List.append_nil, List.length_nil, Nat.add_zero, Nat.sub_self, List.range_zero, List.map_nil]
    exact ⟨hd, by simp [xorBytes, xorKeystreamFrom], rfl⟩
  | cons b x ih =>
    obtain ⟨h1, h2, h3⟩ := xorByte_stream dir b hd
    obtain ⟨g1, g2, g3⟩ := ih h1
    have hx : xorBytes c key h dir d (b :: x) = xorBytes c key h dir (xorByte c key h dir d b) x := rfl
    have hl : (pre ++ [cipherByte dir b (b ^^^ keystreamByte c key j0 pre.length)]).length = pre.length + 1 := by simp
    have hcb : cipherBytesFrom c key j0 dir pre.length (b :: x) =
        cipherByte dir b (b ^^^ keystreamByte c key j0 pre.length) ::
          cipherBytesFrom c key j0 dir (pre.length + 1) x := by
      cases dir
      · exact xorKeystreamFrom_cons ..
      · rfl
    rw [hl] at g1 g2 g3
    rw [hx, hcb, List.append_cons]
    refine ⟨g1, ?_, ?_⟩
    · rw [g2, h2, xorKeystreamFrom_cons, List.append_assoc, List.singleton_append]
    · rw [g3, h3, List.length_cons, blocksBegun_succ_sub, List.append_assoc]
      congr 1
      by_cases hz : pre.length % 16 = 0
      · have hb : blocksBegun (pre.length + 1) = blocksBegun pre.length + 1 := by simp only [blocksBegun]; omega
        simp only [hz, if_true, Nat.add_comm 1 (_ - _), List.range_succ_eq_map, List.map_cons, List.map_map,
          List.singleton_append, Nat.add_zero]
        congr 1
        refine List.map_congr_left fun j _ => ?_
        simp only [Function.comp, hb]
        congr 2; omega
      · have hb : blocksBegun (pre.length + 1) = blocksBegun pre.length := by simp only [blocksBegun]; omega
        simp only [hz, if_false, Nat.zero_add, List.nil_append, hb]

/-- R73: XOR_BYTE produces one output byte a byte. -/
theorem xorBytes_out_length (c : Config) (key : Key) (h : Block) (dir : Dir) (d : Stream) (x : List Byte) :
    (xorBytes c key h dir d x).out.length = d.out.length + x.length := by
  induction x generalizing d with
  | nil => rfl
  | cons b x ih =>
    rw [xorBytes, List.foldl_cons]
    refine (ih _).trans ?_
    have : (xorByte c key h dir d b).out.length = d.out.length + 1 := by
      simp only [xorByte, xorStore, ksNext]; split_ifs <;> simp
    rw [this, List.length_cons]; omega

/-- R15, R25: KS holds a value exactly while BUFLEN > 0. -/
theorem xorByte_shape {c : Config} {key : Key} {h : Block} {dir : Dir} {d : Stream} (b : Byte) {n : Nat}
    (hb : d.buf.length = n % 16) :
    (xorByte c key h dir d b).buf.length = (n + 1) % 16 ∧
      ((xorByte c key h dir d b).ks = none ↔ (xorByte c key h dir d b).buf = []) ∧
      (xorByte c key h dir d b).ctr = (if n % 16 = 0 then inc32 d.ctr else d.ctr) ∧
      (xorByte c key h dir d b).requests = d.requests ++ if n % 16 = 0 then [.encrypt d.ctr] else [] := by
  by_cases hz : n % 16 = 0
  · have h0 : d.buf = [] := List.length_eq_zero_iff.1 (by omega)
    have : (n + 1) % 16 = 1 := by omega
    simp [xorByte, h0, ksNext, xorStore, hz, this]
  · have h0 : d.buf ≠ [] := fun e => by rw [e] at hb; exact hz hb.symm
    by_cases h15 : d.buf.length = 15
    · have : (n + 1) % 16 = 0 := by omega
      simp [xorByte, h0, xorStore, h15, hz, this]
    · have : (n + 1) % 16 = d.buf.length + 1 := by omega
      simp [xorByte, h0, xorStore, h15, hz, this]

/-- R72, R78: the loop of PROCESS from any stream whose block position is `n`: how many bytes wait, whether KS holds a value,
how often CTR was incremented, and the cipher requests. -/
theorem xorBytes_shape {c : Config} {key : Key} {h : Block} {dir : Dir} {d : Stream} (x : List Byte) {n : Nat}
    (hb : d.buf.length = n % 16) (hk : d.ks = none ↔ d.buf = []) :
    (xorBytes c key h dir d x).buf.length = (n + x.length) % 16 ∧
      ((xorBytes c key h dir d x).ks = none ↔ (xorBytes c key h dir d x).buf = []) ∧
      (xorBytes c key h dir d x).ctr = inc32Iter d.ctr (blocksBegun (n + x.length) - blocksBegun n) ∧
      (xorBytes c key h dir d x).requests = d.requests ++
        (List.range (blocksBegun (n + x.length) - blocksBegun n)).map fun j => .encrypt (inc32Iter d.ctr j) := by
  induction x generalizing d n with
  | nil => simpa [xorBytes, inc32Iter] using ⟨hb, hk⟩
  | cons b x ih =>
    obtain ⟨h1, h2, h3, h4⟩ := xorByte_shape (c := c) (key := key) (h := h) (dir := dir) b hb
    obtain ⟨g1, g2, g3, g4⟩ := ih h1 h2
    have hx : xorBytes c key h dir d (b :: x) = xorBytes c key h dir (xorByte c key h dir d b) x := rfl
    rw [hx, List.length_cons, blocksBegun_succ_sub]
    refine ⟨by rw [g1]; congr 1; omega, g2, ?_, ?_⟩
    · rw [g3, h3]
      split_ifs
      · exact (inc32Iter_add d.ctr 1 _).symm
      · rw [Nat.zero_add]
    · rw [g4, h3, h4, List.append_assoc]
      congr 1
      split_ifs
      · rw [Nat.add_comm 1, List.range_succ_eq_map, List.map_cons, List.map_map, List.singleton_append]
        congr 1
        refine List.map_congr_left fun j _ => ?_
        simp only [Function.comp, Nat.succ_eq_add_one, Nat.add_comm j 1, inc32Iter_add]; rfl
      · rw [Nat.zero_add, List.nil_append]

end Sys2Proof.Machine
end

