-- ==== Sys2Proof/Tests/Slice0.lean ====
section
/-! SUPPORT. Tests/Slice0.lean: tests of single steps against the vectors of 95_test_vectors.md, and for every statement with
hypotheses a witness that meets them. -/

namespace Sys2Proof.Tests

open Sys2Proof.Machine

/-! ### Helpers -/

/-- The state a meaning answers, if it answers one. -/
def after (o : Host.Outcome State Fault Refusal) : Option State :=
  match o with
  | .next t => some t
  | _ => none

/-- 95_test_vectors.md section 0: the stand-in cipher `E_toy`. -/
def toyCipher (k : Key) (x : Block) : Block :=
  blockOfBytes ((List.range 16).map fun i => blockByte x (15 - i) ^^^ k.getD (i % k.length) 0)

/-- `E_toy` with the default parameters. -/
def toy : Config := Config.withCipher toyCipher

/-- The toy key `000102...0f`. -/
def toyKey : Key := (List.range 16).map (BitVec.ofNat 8)

/-- The toy IV `a0a1...ab`. -/
def toyIv : List Byte := (List.range 12).map fun i => BitVec.ofNat 8 (0xa0 + i)

/-- The AAD of the vectors, `feedfacedeadbeeffeedfacedeadbeefabaddad2`. -/
def toyAad : List Byte :=
  [0xfe, 0xed, 0xfa, 0xce, 0xde, 0xad, 0xbe, 0xef, 0xfe, 0xed, 0xfa, 0xce, 0xde, 0xad, 0xbe, 0xef, 0xab, 0xad, 0xda, 0xd2]

/-- The plaintext of the vectors, 37 bytes `404142...64`. -/
def toyData : List Byte := (List.range 37).map fun i => BitVec.ofNat 8 (0x40 + i)

/-- The ciphertext of T34. -/
def toyCiphertext : List Byte :=
  [0x42, 0x40, 0x40, 0x40, 0xeb, 0xea, 0xe9, 0xe8, 0xe7, 0xe6, 0xe5, 0xe4, 0xe3, 0xe2, 0xe1, 0xe0, 0x53, 0x50, 0x50, 0x50] ++
  [0xfb, 0xfa, 0xf9, 0xf8, 0xf7, 0xf6, 0xf5, 0xf4, 0xf3, 0xf2, 0xf1, 0xf0, 0x64, 0x60, 0x60, 0x60, 0xcb]

/-- The tag of T49. -/
def toyTag : List Byte :=
  [0x9f, 0x5f, 0xa5, 0x75, 0x18, 0x5a, 0x7b, 0x31, 0x0e, 0x70, 0xe4, 0x58, 0x24, 0x8a, 0x78, 0x57]

/-- R26: the state of the session of `m` in CREATED. -/
def created (c : Config) (m : Message) : State :=
  { State.reset with
    keyctx := some m.key, h := some (subkey c m.key), acc := some 0, buf := some [], alen := some 0, dlen := some 0,
    dir := some m.dir, taglen := some m.taglen, phase := .created }

/-- R26: in IVSET. -/
def ivSet (c : Config) (m : Message) : State :=
  { created c m with
    acc := some (ghash (subkey c m.key) (fullPart m.aad)), buf := some (restPart m.aad),
    alen := some (BitVec.ofNat 64 m.aad.length), ctr := some (inc32 (m.j0 c)),
    ek0 := some (c.cipher m.key (m.j0 c)), phase := .ivSet }

/-- R26: in AADDONE. -/
def aadDone (c : Config) (m : Message) : State :=
  { ivSet c m with acc := some (ghash (subkey c m.key) (pad16 m.aad)), buf := some [], phase := .aadDone }

/-- R26: in DATADONE. -/
def dataDone (c : Config) (m : Message) : State :=
  { ivSet c m with
    acc := some (ghash (subkey c m.key) (pad16 m.aad ++ fullPart (m.ciphertext c))),
    buf := some (restPart (m.ciphertext c)),
    ctr := some (inc32Iter (m.j0 c) (1 + blocksBegun m.data.length)),
    ks := if m.data.length % 16 = 0 then none
      else some (c.cipher m.key (inc32Iter (m.j0 c) (blocksBegun m.data.length))),
    dlen := some (BitVec.ofNat 64 m.data.length),
    hold := if m.dir = .dec then xorKeystream c m.key (m.j0 c) m.data else [], phase := .dataDone }

/-- The message of the vectors, encrypting, before its data. -/
def toyMessage : Message := { dir := .enc, taglen := 16, key := toyKey, iv := toyIv, aad := toyAad, data := [] }

/-- A core in FAILED with ERR = `st`. -/
def failed (st : Status) : State := { State.reset with phase := .failed, err := st }

/-! ### Parameters (R4) -/

theorem test_chip_parameters_are_legal : Config.chip.Legal :=
  ⟨by decide, by decide, le_rfl, by decide, by decide⟩

/-! ### WellFormed -/

/-- R41: a payload of 2^32 bytes fits no header. -/
theorem test_wellFormed_refuses_2_pow_32_bytes : (Instr.process (List.replicate (2 ^ 32) 0)).wellFormed = false := by
  rw [Instr.wellFormed, Instr.payload, List.length_replicate, decide_eq_false_iff_not]; exact lt_irrefl _

/-- E11: a payload of 2^32 - 1 bytes fits. -/
theorem test_wellFormed_accepts_largest_payload : (Instr.process (List.replicate (2 ^ 32 - 1) 0)).wellFormed = true := by
  rw [Instr.wellFormed, Instr.payload, List.length_replicate, decide_eq_true_eq]; decide

/-! ### Decoding: words written out from 30_encoding.md R41, R44 (95_test_vectors.md section 6) -/

theorem test_decode_init : decode (0b00000001#8 ++ 0b1#1 ++ 0b00#2 ++ 0b01100#5 ++ 0#16 ++ 2#32) [7, 9] =
    .ok (.init .dec 12 [7, 9]) := by decide

theorem test_decode_setIv : decode (0b00000010#8 ++ 0b0#1 ++ 0b00#2 ++ 0b00000#5 ++ 0#16 ++ 1#32) [0xaa] =
    .ok (.setIv [0xaa]) := by decide

theorem test_decode_addAad : decode (0b00000011#8 ++ 0b0#1 ++ 0b00#2 ++ 0b00000#5 ++ 0#16 ++ 2#32) [1, 2] =
    .ok (.addAad [1, 2]) := by decide

theorem test_decode_finishAad : decode (0b00000100#8 ++ 0b0#1 ++ 0b00#2 ++ 0b00000#5 ++ 0#16 ++ 0#32) [] =
    .ok .finishAad := by decide

theorem test_decode_process : decode (0b00000101#8 ++ 0b0#1 ++ 0b00#2 ++ 0b00000#5 ++ 0#16 ++ 1#32) [0x40] =
    .ok (.process [0x40]) := by decide

theorem test_decode_finish : decode (0b00000110#8 ++ 0b0#1 ++ 0b00#2 ++ 0b00000#5 ++ 0#16 ++ 3#32) [1, 2, 3] =
    .ok (.finish [1, 2, 3]) := by decide

/-- E1, E6, E9: the same words from the encoder. -/
theorem test_encode_listed : encode (.init .enc 16 toyKey) = 0x0110000000000010 ∧
    encode (.setIv toyIv) = 0x020000000000000C ∧ encode .finishAad = 0x0400000000000000 := by decide

/-- R42: OP 0x09 is reserved (T61), and so is 0x00 (E14). -/
theorem test_decode_reserved_op : decode 0x0900000000000000 [] = .error .reservedOp ∧
    decode 0 [] = .error .reservedOp := by decide

/-- The table's bit numbering: the header is bits 63..0, payload byte 0 bits 71..64, byte 1 bits 79..72. -/
theorem test_table_word_payload : decodeTableWord 80 0x2A410500000000000002 = some (.process [0x41, 0x2A]) := by decide

/-- A table word shorter than the instruction: the payload bytes are 0. -/
theorem test_table_word_zero_payload : decodeTableWord 64 0x0200000000000003 = some (.setIv [0, 0, 0]) := by decide

/-- A placed INIT with a 16-byte key runs as the first instruction after reset. -/
theorem test_step_runs_placed_init :
    (after (step (State.reset.withFetchWord 64 0x0110000000000010))).map State.phase = some .created := by decide

/-- T68: a placed FINISH runs as the first instruction after reset, and is not admitted. -/
theorem test_step_runs_placed_finish :
    (after (step (State.reset.withFetchWord 64 0x0600000000000000))).map (fun t => (t.phase, t.err.code)) =
      some (.failed, 4) := by decide

/-! ### Assembler, facade (R48, R49) -/

theorem test_assemble_setIv : assembleLine ['S', 'E', 'T', '_', 'I', 'V', ' ', 'a', '0', 'f', 'F'] =
    some (.setIv [0xa0, 0xff]) := by decide

theorem test_assemble_init : assembleLine ['I', 'N', 'I', 'T', ' ', 'D', 'E', 'C', ',', ' ', '1', '2', ',', '0', '1'] =
    some (.init .dec 12 [1]) := by decide

/-- R110: SEAL of empty AAD and empty plaintext still issues one empty PROCESS. -/
theorem test_seal_of_nothing : sealCommands toyKey toyIv [] [] none =
    [.init .enc 16 toyKey, .setIv toyIv, .addAad [], .finishAad, .process [], .finish []] := by decide

/-- R49: an OPEN line with its taglen given. -/
theorem test_assembleFacade_open :
    assembleFacade ['O', 'P', 'E', 'N', ' ', '0', '1', ',', '0', '2', ',', '-', ',', ',', '0', '3', ',', '1', '2'] =
      some [.init .dec 12 [1], .setIv [2], .addAad [], .finishAad, .process [], .finish [3]] := by decide

theorem test_pieces : pieces 2 5 [1, 2, 3, 4, 5] = [[1, 2], [3, 4], [5]] ∧ pieces 2 0 [] = [[]] := by decide

/-! ### INIT (T1, T9) -/

theorem test_init_T1 : (after (execInitIn toy .enc 16 toyKey State.reset)).map
    (fun t => (t.h, t.acc, t.rsp)) =
      some (some 0x000102030405060708090a0b0c0d0e0f, some 0, [⟨.ok, .created, [], []⟩]) := by decide +kernel

theorem test_init_T9 : (after (execInitIn toy .enc 0 [0, 0, 0, 0, 0] State.reset)).map (fun t => (t.err.code, t.phase)) =
    some (1, .failed) := by decide

/-! ### SET_IV (T13, T17) -/

theorem test_setIv_T13 : (after (execSetIvIn toy toyIv (created toy toyMessage))).map (fun t => (t.ek0, t.ctr, t.phase)) =
    some (some 0x01010203afafafafafafafafafafafaf, some 0xa0a1a2a3a4a5a6a7a8a9aaab00000002, .ivSet) := by decide +kernel

theorem test_setIv_T17 :
    (after (execSetIvIn toy ((List.range 17).map fun i => BitVec.ofNat 8 (0xb0 + i)) (created toy toyMessage))).map
      State.ctr = some (some 0x5d40b64fa688a120767296fbce52d349) := by decide +kernel

/-! ### ADD_AAD (T22, T24) -/

theorem test_addAad_T22 :
    (after (execAddAadIn toy toyAad (ivSet toy { toyMessage with aad := [] }))).map (fun t => (t.acc, t.buf, t.alen)) =
      some (some 0x07644fa9394419b2347464a8bb75b008, some [0xab, 0xad, 0xda, 0xd2], some 20) := by decide +kernel

theorem test_addAad_T24 :
    (after (execAddAadIn toy (toyAad.drop 8) (ivSet toy { toyMessage with aad := toyAad.take 8 }))).map
      (fun t => (t.acc, t.buf, t.alen)) =
      some (some 0x07644fa9394419b2347464a8bb75b008, some [0xab, 0xad, 0xda, 0xd2], some 20) := by decide +kernel

/-! ### FINISH_AAD (T26, T27) -/

theorem test_finishAad_T26 : (after (execFinishAad (ivSet toy toyMessage))).map (fun t => (t.acc, t.buf, t.alen)) =
    some (some 0x800d0f67a65a8161669182a3a92abac4, some [], some 20) := by decide +kernel

theorem test_finishAad_T27 : (after (execFinishAad (aadDone toy toyMessage))).map (fun t => (t.phase, t.err.code)) =
    some (.failed, 4) := by decide +kernel

/-! ### PROCESS (T34, T41) -/

theorem test_process_T34 : (after (execProcessIn toy toyData (aadDone toy toyMessage))).map
    (fun t => (t.acc, t.ctr, t.ks, t.rsp)) =
      some (some 0x8c308df731af9da52b81b65bb03412fc, some 0xa0a1a2a3a4a5a6a7a8a9aaab00000005,
        some 0x04010203afafafafafafafafafafafaf, [⟨.ok, .dataDone, toyCiphertext, []⟩]) := by
  decide +kernel

theorem test_process_T41 : (after (execProcessIn toy toyCiphertext (aadDone toy { toyMessage with dir := .dec }))).map
    (fun t => (t.acc, t.buf, t.hold, t.rsp.map Response.dout)) =
      some (some 0x8c308df731af9da52b81b65bb03412fc, some [0x64, 0x60, 0x60, 0x60, 0xcb], toyData, [[]]) := by
  decide +kernel

/-! ### FINISH (T50, T51) -/

theorem test_finish_T50 : (after (execFinish [] (dataDone toy { toyMessage with taglen := 12, data := toyData }))).map
    (fun t => (t.rsp.map Response.tag, t.phase, t.h)) = some ([toyTag.take 12], .finished, none) := by decide +kernel

theorem test_finish_T51 :
    (after (execFinish toyTag (dataDone toy { toyMessage with dir := .dec, data := toyCiphertext }))).map State.rsp =
      some [⟨.ok, .finished, toyData, []⟩] := by decide +kernel

/-! ### Errors and reset (T62) -/

theorem test_first_error_stays_T62 : (after (execProcessIn toy [0] (failed .illegalCommand))).map
    (fun t => (t.err.code, t.rsp.map fun r => r.status.code)) = some (7, [4]) := by decide

/-- R28, R150: reset ends a session. -/
theorem test_reset_event : (after (step { created toy toyMessage with host := [.reset] })).map State.registers =
    some State.reset := by decide

/-! ### The multiplier (M5, M9, M12; XTIME of all ones) -/

theorem test_gfmul_M5 : gfmul 0x40000000000000000000000000000000 1 = 0xe1000000000000000000000000000000 := by decide +kernel

theorem test_gfmul_M9 : gfmul 1 1 = 0xe6080000000000000000000000000003 := by decide +kernel

theorem test_gfmul_M12 : gfmul 0x0388dace60b6a392f328c2b971b2fe78 0x66e94bd4ef8a2c3b884cfa59ca342b2e =
    0x5e2ec746917062882c85b0685353deb7 := by decide +kernel

theorem test_equal_forms_M9 : gfmulPoly 1 1 = 0xe6080000000000000000000000000003 ∧
    gfmulKaratsuba 1 1 = 0xe6080000000000000000000000000003 ∧
    gfmulKaratsubaFold 1 1 = 0xe6080000000000000000000000000003 ∧
    gfmulMastrovito 1 1 = 0xe6080000000000000000000000000003 := by decide +kernel

theorem test_xtime_all_ones : xtime 0xffffffffffffffffffffffffffffffff = 0x9effffffffffffffffffffffffffffff := by decide

/-- A6: 20 bytes of AAD, 60 bytes of data. -/
theorem test_ghLenBlock_A6 : ghLenBlock 0x66e94bd4ef8a2c3b884cfa59ca342b2e 0 160 480 =
    0xd4764f0c889f58a506a117eaa73a43d6 := by decide +kernel

/-- A2: a partial block of 3 bytes. -/
theorem test_ghUpdatePartial_A2 : ghUpdatePartial 0x66e94bd4ef8a2c3b884cfa59ca342b2e 0 [0x03, 0x88, 0xda] =
    0x6c6f99e26516569e94d309eecc98c270 := by decide +kernel

/-! ### Witnesses: for each statement with hypotheses, data that meets all of them together -/

/-- A message for the witnesses: 3 bytes of AAD, no data yet. -/
def wMessage (d : Dir) (data : List Byte) : Message :=
  { dir := d, taglen := 16, key := List.replicate 16 0, iv := [1], aad := [1, 2, 3], data := data }

/-- A state with one command pending. -/
def pending (s : State) (i : Instr) : State := s.present (commandEvent i)

theorem ivSet_is_ivSet (c : Config) (m : Message) (ha : m.aad.length ≤ c.maxAad) (hd : m.data = []) :
    m.IvSet c (ivSet c m) where
  keyctx := rfl
  h := rfl
  dir := rfl
  taglen := rfl
  alen := rfl
  alen_le := ha
  dlen := by rw [hd]; rfl
  dlen_le := by rw [hd]; exact Nat.zero_le _
  err := rfl
  phase := rfl
  acc := rfl
  buf := rfl
  ctr := rfl
  ek0 := rfl
  ks := rfl
  hold := rfl
  no_data := hd

theorem aadDone_is_aadDone (c : Config) (m : Message) (ha : m.aad.length ≤ c.maxAad) (hd : m.data = []) :
    m.AadDone c (aadDone c m) where
  keyctx := rfl
  h := rfl
  dir := rfl
  taglen := rfl
  alen := rfl
  alen_le := ha
  dlen := by rw [hd]; rfl
  dlen_le := by rw [hd]; exact Nat.zero_le _
  err := rfl
  phase := rfl
  acc := rfl
  buf := rfl
  ctr := rfl
  ek0 := rfl
  ks := rfl
  hold := rfl
  no_data := hd

theorem dataDone_is_dataDone (c : Config) (m : Message) (ha : m.aad.length ≤ c.maxAad)
    (hd : m.data.length ≤ Config.maxData) : m.DataDone c (dataDone c m) where
  keyctx := rfl
  h := rfl
  dir := rfl
  taglen := rfl
  alen := rfl
  alen_le := ha
  dlen := rfl
  dlen_le := hd
  err := rfl
  phase := rfl
  acc := rfl
  buf := rfl
  ctr := rfl
  ek0 := rfl
  ks := rfl
  hold := rfl

/-! #### Encoding and the step -/

theorem witness_DecodeOfEncodeGivesTheCommand : (Instr.init .dec 31 (List.replicate 32 0)).wellFormed = true := by decide

theorem witness_EncodeOfDecodeGivesThePair : ∃ i, decode 0x019F000000000003 [1, 2, 3] = .ok i := ⟨_, rfl⟩

theorem witness_LegalCommandsAreThoseOfTheFiveConditions :
    ∃ h : Header, ∃ r ∈ opcodeRows, r.selects h = true := ⟨0x0190000000000010, ⟨"INIT", 0x0100000000000000, 0xFF60FFFF00000000⟩, by decide, by decide⟩

theorem witness_HeaderIsTheSumOfItsFields : rsv0Field 0x019FFFFF00000000 ≠ 0 ∧
    rsv0Field 0x019F0000FFFFFFFF = 0 ∧ rsv1Field 0x019F0000FFFFFFFF = 0 := by decide

/-- The forms of a byte string operand: nothing, `-`, hex of either case. -/
theorem witness_AssemblerFollowsTheSyntax : byteOperand [] = some [] ∧ byteOperand ['-'] = some [] ∧
    byteOperand ['0', '0', 'f', 'F'] = some [0, 0xff] ∧ [0, (0xff : Byte)].length < 2 ^ 32 := by decide

theorem witness_StepRunsTheDecodedCommand : ∃ s : State, ∃ h p rest i,
    s.host = .command h p :: rest ∧ decode h p = .ok i :=
  ⟨pending State.reset (.setIv [1]), _, _, _, .setIv [1], rfl, by decide⟩

theorem witness_IllegalCommands_noRow : ∃ s : State, s.host = [.command 0x0700000000000000 []] ∧
    ∀ r ∈ opcodeRows, r.selects 0x0700000000000000 = false :=
  ⟨{ State.reset with host := [.command 0x0700000000000000 []] }, rfl, by decide⟩

theorem witness_IllegalCommands_length : ∃ s : State, s.host = [.command 0x0200000000000001 []] ∧
    ([] : List Byte).length ≠ (lenField 0x0200000000000001).toNat :=
  ⟨{ State.reset with host := [.command 0x0200000000000001 []] }, rfl, by decide⟩

theorem witness_ResetLeavesNoValueAndTheCoreWaits :
    (∃ s : State, ∃ rest, s.host = .reset :: rest ∧ s.phase = .ivSet) ∧ ∃ s : State, s.host = [] ∧ s.phase = .failed :=
  ⟨⟨{ State.reset with phase := .ivSet, host := [.reset] }, [], rfl, rfl⟩, failed .sequenceError, rfl, rfl⟩

theorem witness_AfterReset_otherCommand : ∃ s : State, ∃ i rest, s.registers = State.reset ∧ i.wellFormed = true ∧
    s.host = commandEvent i :: rest ∧ i.isInit = false :=
  ⟨pending State.reset (.addAad [1]), .addAad [1], [], rfl, by decide, rfl, rfl⟩

theorem witness_AfterReset_init : ∃ s : State, ∃ rest, s.registers = State.reset ∧ (List.replicate 16 (0 : Byte)).length ∈ [16, 24, 32] ∧
    12 ≤ (12#5).toNat ∧ (12#5).toNat ≤ 16 ∧ s.host = commandEvent (.init .dec 12 (List.replicate 16 0)) :: rest :=
  ⟨pending State.reset (.init .dec 12 (List.replicate 16 0)), [], rfl, by decide, by decide, by decide, rfl⟩

theorem witness_AfterReset_initWhileFailed : ∃ s : State, ∃ rest, s.phase = .failed ∧
    (List.replicate 32 (0 : Byte)).length ∈ [16, 24, 32] ∧ 12 ≤ (16#5).toNat ∧ (16#5).toNat ≤ 16 ∧
    s.host = commandEvent (.init .enc 16 (List.replicate 32 0)) :: rest :=
  ⟨pending (failed .sequenceError) (.init .enc 16 (List.replicate 32 0)), [], rfl, by decide, by decide, by decide, rfl⟩

/-! #### Errors -/

theorem witness_EveryErrorIsARaise : ∃ t r, exec (.finish []) State.reset = .next t ∧ t.rsp = State.reset.rsp ++ [r] ∧
    r.status ≠ .ok := ⟨_, _, rfl, rfl, by decide⟩

theorem witness_OneResponseForEachCommand : ∃ t, step (pending State.reset (.setIv [])) = .next t := ⟨_, rfl⟩

theorem witness_ErrKeepsTheFirstError_reset : ∃ s : State, ∃ t, step s = .next t ∧ s.host = [.reset] ∧ s.err = .illegalCommand :=
  ⟨{ failed .illegalCommand with host := [.reset] }, _, rfl, rfl, rfl⟩

theorem witness_ErrKeepsTheFirstError_first : ∃ s : State, ∃ t h p r, s.host = [.command h p] ∧ step s = .next t ∧
    t.rsp = s.rsp ++ [r] ∧ r.status.code ≠ 0 ∧ s.phase ≠ .failed :=
  ⟨pending State.reset .finishAad, _, _, _, _, rfl, rfl, rfl, by decide, by decide⟩

theorem witness_ErrKeepsTheFirstError_later : ∃ s : State, ∃ t h p r, s.host = [.command h p] ∧ step s = .next t ∧
    t.rsp = s.rsp ++ [r] ∧ r.status.code ≠ 0 ∧ s.phase = .failed :=
  ⟨pending (failed .illegalCommand) .finishAad, _, _, _, _, rfl, rfl, rfl, by decide, rfl⟩

theorem witness_ErrKeepsTheFirstError_init : ∃ s : State, ∃ t h p r, s.host = [.command h p] ∧ step s = .next t ∧
    t.rsp = s.rsp ++ [r] ∧ r.status.code = 0 ∧ ∃ d n key, decode h p = .ok (.init d n key) :=
  ⟨pending (failed .illegalCommand) (.init .enc 16 (List.replicate 16 0)), _, _, _, _, rfl, rfl, rfl, rfl, _, _, _, rfl⟩

theorem witness_ErrKeepsTheFirstError_other : ∃ s : State, ∃ t h p r, s.host = [.command h p] ∧ step s = .next t ∧
    t.rsp = s.rsp ++ [r] ∧ r.status.code = 0 ∧ ∀ d n key, decode h p ≠ .ok (.init d n key) :=
  ⟨pending (created Config.chip (wMessage .enc [])) (.setIv [1]), _, _, _, _, rfl, rfl, rfl, rfl,
    fun _ _ _ h => nomatch (show (Except.ok (.setIv [1]) : Except Illegal Instr) = _ from h)⟩

theorem witness_SequenceErrorIsExactlyNotAdmitted : transition State.reset.phase (.process [1]) = none ∧
    (∃ t r, exec (.process [1]) State.reset = .next t ∧ t.rsp = State.reset.rsp ++ [r] ∧ r.status = .sequenceError) ∧
    ∃ t r, exec .finishAad State.reset = .next t ∧ t.rsp = State.reset.rsp ++ [r] :=
  ⟨rfl, ⟨_, _, rfl, rfl, rfl⟩, _, _, rfl, rfl⟩

theorem witness_PhasesFollowTheTable :
    (∃ s : State, ∃ t r, exec (.setIv [1]) s = .next t ∧ t.rsp = s.rsp ++ [r] ∧ r.status = .ok) ∧
    ∃ s : State, ∃ t r, exec (.setIv [1]) s = .next t ∧ t.rsp = s.rsp ++ [r] ∧ r.status ≠ .ok :=
  ⟨⟨created Config.chip (wMessage .enc []), _, _, rfl, rfl, rfl⟩, State.reset, _, _, rfl, rfl, by decide⟩

/-- The clause over a step: a command that succeeds, an illegal one, and one not admitted. -/
theorem witness_PhasesFollowTheTable_step :
    (∃ s : State, ∃ t h p r, s.host = [.command h p] ∧ step s = .next t ∧ t.rsp = s.rsp ++ [r] ∧ r.status = .ok) ∧
    (∃ s : State, ∃ t h p r, s.host = [.command h p] ∧ step s = .next t ∧ t.rsp = s.rsp ++ [r] ∧
      r.status = .illegalCommand) ∧
    ∃ s : State, ∃ t h p r, s.host = [.command h p] ∧ step s = .next t ∧ t.rsp = s.rsp ++ [r] ∧
      r.status = .sequenceError :=
  ⟨⟨pending (created Config.chip (wMessage .enc [])) (.setIv [1]), _, _, _, _, rfl, rfl, rfl, rfl⟩,
    ⟨{ ivSet Config.chip (wMessage .enc []) with host := [.command 0 []] }, _, _, _, _, rfl, rfl, rfl, rfl⟩,
    pending State.reset (.setIv [1]), _, _, _, _, rfl, rfl, rfl, rfl⟩

theorem witness_ErrorsHaveTheirCauses :
    (∃ t r, exec (.init .enc 11 (List.replicate 16 0)) State.reset = .next t ∧ t.rsp = [r] ∧
      r.status = .invalidTagLength) ∧
    (∃ t r, exec (.init .enc 12 (List.replicate 15 0)) State.reset = .next t ∧ t.rsp = [r] ∧
      r.status = .invalidKeyLength) ∧
    (∃ t r, exec (.setIv []) (created Config.chip (wMessage .enc [])) = .next t ∧ t.rsp = [r] ∧
      r.status = .invalidIvLength) ∧
    ∃ t r, exec (.finish [0]) (dataDone Config.chip (wMessage .dec [])) = .next t ∧ t.rsp = [r] ∧
      r.status = .invalidTagLength :=
  ⟨⟨_, _, rfl, rfl, rfl⟩, ⟨_, _, rfl, rfl, rfl⟩, ⟨_, _, rfl, rfl, rfl⟩, _, _, rfl, rfl, rfl⟩

theorem witness_ErrorsHaveTheirCauses_capacity :
    ∃ s : State, ∃ t r, exec (.addAad [0]) s = .next t ∧ t.rsp = s.rsp ++ [r] ∧ r.status = .capacityExceeded ∧
      s.alen = some (BitVec.ofNat 64 (2 ^ 61 - 1)) :=
  ⟨{ ivSet Config.chip (wMessage .enc []) with alen := some (BitVec.ofNat 64 (2 ^ 61 - 1)) }, _, _, rfl, rfl, rfl, rfl⟩

theorem witness_ErrorsHaveTheirCauses_dataLimit : ∃ s : State, ∃ t r, exec (.process [0]) s = .next t ∧ t.rsp = s.rsp ++ [r] ∧
    r.status = .capacityExceeded ∧ s.dlen = some (BitVec.ofNat 64 Config.maxData) :=
  ⟨{ dataDone Config.chip (wMessage .enc []) with dlen := some (BitVec.ofNat 64 Config.maxData) }, _, _, rfl, rfl, rfl, rfl⟩

theorem witness_ErrorsHaveTheirCauses_sequence : ∃ t r, exec (.finish []) State.reset = .next t ∧ t.rsp = [r] ∧
    r.status = .sequenceError := ⟨_, _, rfl, rfl, rfl⟩

/-- A DEC session with H = EK0 = 0, whose tag is 16 zero bytes (R53), answering another tag. -/
theorem witness_ErrorsHaveTheirCauses_authentication :
    (after (exec (.finish (List.replicate 16 1)) { State.reset with
      phase := .dataDone, dir := some .dec, taglen := some 16, h := some 0, acc := some 0, buf := some [], alen := some 0,
      dlen := some 0, ek0 := some 0 })).map State.rsp = some [⟨.authenticationError, .failed, [], []⟩] := by
  decide +kernel

theorem witness_ErrorsWhileFailed :
    (∃ s : State, s.phase = .failed ∧ s.host = [.command 0 []] ∧ ∃ e, decode 0 [] = .error e) ∧
    (∃ s : State, ∃ h p i, s.phase = .failed ∧ s.host = [.command h p] ∧ decode h p = .ok i ∧ i.isInit = false) ∧
    (∃ s : State, ∃ h p d n key, s.phase = .failed ∧ s.host = [.command h p] ∧ decode h p = .ok (.init d n key)) :=
  ⟨⟨{ failed .illegalCommand with host := [.command 0 []] }, rfl, rfl, _, rfl⟩,
    ⟨pending (failed .illegalCommand) (.process []), _, _, _, rfl, rfl, rfl, rfl⟩,
    pending (failed .illegalCommand) (.init .enc 0 []), _, _, _, _, _, rfl, rfl, rfl⟩

/-! #### The commands, clause by clause -/

theorem witness_InitCompletes :
    (∃ key : List Byte, key.length = 16 ∧ 12 ≤ (12#5).toNat ∧ (12#5).toNat ≤ 16) ∧
    (∃ key : List Byte, key.length = 24 ∧ 12 ≤ (16#5).toNat ∧ (16#5).toNat ≤ 16) ∧
    ∃ key : List Byte, key.length = 32 ∧ 12 ≤ (16#5).toNat ∧ (16#5).toNat ≤ 16 :=
  ⟨⟨List.replicate 16 0, by decide⟩, ⟨List.replicate 24 0, by decide⟩, List.replicate 32 0, by decide⟩

theorem witness_InitForgetsTheOldSession : ∃ t₁ t₂,
    exec (.init .enc 16 (List.replicate 16 0)) State.reset = .next t₁ ∧
    exec (.init .enc 16 (List.replicate 16 0)) (dataDone Config.chip (wMessage .dec [7])) = .next t₂ ∧
    t₁.phase = .created := ⟨_, _, rfl, rfl, rfl⟩

theorem witness_SetIvChecksThenDerives :
    (∃ s : State, s.phase ≠ .created) ∧ (∃ s : State, s.phase = .created ∧ ([] : List Byte) = []) ∧
    ∃ s : State, ∃ key h, s.phase = .created ∧ ([1] : List Byte) ≠ [] ∧ s.keyctx = some key ∧ s.h = some h :=
  ⟨⟨State.reset, by decide⟩, ⟨created Config.chip (wMessage .enc []), rfl, rfl⟩,
    created Config.chip (wMessage .enc []), _, _, rfl, by decide, rfl, rfl⟩

theorem witness_InitialCounterDerivation : toyIv ≠ [] ∧ toyIv.length = 12 ∧
    (toyIv ++ [0]) ≠ [] ∧ (toyIv ++ [0]).length = 13 ∧ toyIv.take 11 ≠ [] ∧ (toyIv.take 11).length = 11 := by decide

theorem witness_AddAadFoldsCompleteChunks : ∃ (s : State) (a : BitVec 64) (h acc : Block) (buf : List Byte),
    s.phase = .ivSet ∧ s.alen = some a ∧ a.toNat + [1, 2, 3, 4].length = 2 ^ 61 - 1 ∧ s.h = some h ∧ s.acc = some acc ∧
    s.buf = some buf ∧ buf.length = 15 :=
  ⟨{ ivSet Config.chip (wMessage .enc []) with
      alen := some (BitVec.ofNat 64 (2 ^ 61 - 5)), buf := some (List.replicate 15 0) },
    BitVec.ofNat 64 (2 ^ 61 - 5), _, _, _, rfl, rfl, by decide, rfl, rfl, rfl, rfl⟩

theorem witness_AddAadMayBeCut : ∃ s : State, ∃ t u, exec (.addAad [4]) s = .next t ∧ t.lastStatus = .ok ∧
    exec (.addAad (List.replicate 13 0)) t = .next u := ⟨ivSet Config.chip (wMessage .enc []), _, _, rfl, rfl, rfl⟩

theorem witness_FinishAadClosesTheAad : (∃ s : State, s.phase ≠ .ivSet) ∧
    ∃ s : State, ∃ h acc buf, s.phase = .ivSet ∧ s.h = some h ∧ s.acc = some acc ∧ s.buf = some buf :=
  ⟨⟨State.reset, by decide⟩, ivSet Config.chip (wMessage .enc []), _, _, _, rfl, rfl, rfl, rfl⟩

theorem witness_FinishAadMayBeOmitted : ∃ s : State, ∃ t u, exec .finishAad s = .next t ∧ t.lastStatus = .ok ∧
    exec (.process [9]) t = .next u := ⟨ivSet Config.chip (wMessage .enc []), _, _, rfl, rfl, rfl⟩

/-- In IVSET, reaching exactly MAXDATA. -/
theorem witness_ProcessCompletes_ivSet : ∃ (s : State) (n : BitVec 64) (key : List Byte) (h acc ctr : Block) (buf : List Byte),
    s.phase = .ivSet ∧ s.dlen = some n ∧ n.toNat + [5, 6].length = Config.maxData ∧ s.dir = some .enc ∧
    s.keyctx = some key ∧ s.h = some h ∧ s.acc = some acc ∧ s.ctr = some ctr ∧ s.buf = some buf :=
  ⟨{ ivSet Config.chip (wMessage .enc []) with dlen := some (BitVec.ofNat 64 (Config.maxData - 2)) },
    BitVec.ofNat 64 (Config.maxData - 2), _, _, _, _, _, rfl, rfl, by decide, rfl, rfl, rfl, rfl, rfl, rfl⟩

theorem hold_one_short : (List.replicate (Config.maxData - 1) (0 : Byte)).length + [(5 : Byte)].length = Config.maxData := by
  rw [List.length_replicate]; decide

/-- In AADDONE, decrypting, HOLD filled to exactly HOLD_CAP. -/
theorem witness_ProcessCompletes_aadDone : ∃ (l : List Byte) (s : State) (n : BitVec 64) (key : List Byte) (h acc ctr : Block),
    s.phase = .aadDone ∧ s.dlen = some n ∧ n.toNat + [5].length ≤ Config.maxData ∧ s.dir = some .dec ∧ s.hold = l ∧
    l.length + [(5 : Byte)].length = Config.maxData ∧ s.keyctx = some key ∧ s.h = some h ∧ s.acc = some acc ∧
    s.ctr = some ctr ∧ s.buf = some [] := by
  obtain ⟨l, hl⟩ : ∃ l : List Byte, l.length + [(5 : Byte)].length = Config.maxData := ⟨_, hold_one_short⟩
  exact ⟨l, { aadDone Config.chip (wMessage .dec []) with hold := l }, 0, _, _, _, _, rfl, rfl, by decide, rfl, rfl, hl, rfl,
    rfl, rfl, rfl, rfl⟩

/-- In DATADONE, in the middle of a block. -/
theorem witness_ProcessCompletes_dataDone : ∃ (s : State) (n : BitVec 64) (key : List Byte) (h acc ctr : Block)
    (buf : List Byte), s.phase = .dataDone ∧ s.dlen = some n ∧ n.toNat + [5].length ≤ Config.maxData ∧
    s.dir = some .dec ∧ s.hold.length + [5].length ≤ Config.maxData ∧ s.keyctx = some key ∧ s.h = some h ∧
    s.acc = some acc ∧ s.ctr = some ctr ∧ s.buf = some buf ∧ buf ≠ [] ∧ s.ks.isSome = true :=
  ⟨dataDone Config.chip (wMessage .dec [7]), 1, _, _, _, _, [7], rfl, rfl, by decide, rfl, by decide, rfl, rfl, rfl, rfl,
    rfl, by decide, rfl⟩

/-- The first byte of a block, the last but one, and the last. -/
theorem witness_XorByteIsTheDatapath :
    (∃ (x : Stream) (ks : Block), x.buf.length ≤ 15 ∧ x.buf = [] ∧ ks = toy.cipher toyKey x.ctr) ∧
    (∃ (x : Stream) (ks : Block), x.buf.length ≤ 15 ∧ x.buf ≠ [] ∧ x.ks = some ks ∧ (x.buf ++ [1]).length = 15) ∧
    ∃ (x : Stream) (ks : Block), x.buf.length ≤ 15 ∧ x.buf ≠ [] ∧ x.ks = some ks ∧ (x.buf ++ [1]).length = 16 :=
  ⟨⟨⟨0, 0, none, [], [], []⟩, _, by decide, rfl, rfl⟩,
    ⟨⟨0, 0, some 5, List.replicate 14 0, [], []⟩, 5, by decide, by decide, rfl, rfl⟩,
    ⟨0, 0, some 5, List.replicate 15 0, [], []⟩, 5, by decide, by decide, rfl, rfl⟩

/-- One byte past each of the three limits. -/
theorem witness_CapacityLimitsAreChecked :
    (∃ (s : State) (n : BitVec 64) (d : Dir), s.phase = .aadDone ∧ s.dlen = some n ∧ s.dir = some d ∧
      16 * (2 ^ 32 - 2) + 1 = n.toNat + [0].length) ∧
    (∃ (c : Config) (s : State) (n : BitVec 64) (d : Dir), s.phase = .dataDone ∧ s.dlen = some n ∧ s.dir = some d ∧
      d = .dec ∧ c.holdCap + 1 = s.hold.length + [0].length) ∧
    ∃ (c : Config) (s : State) (a : BitVec 64), s.phase = .ivSet ∧ s.alen = some a ∧ c.maxAad + 1 = a.toNat + [0].length :=
  ⟨⟨{ aadDone toy toyMessage with dlen := some (BitVec.ofNat 64 Config.maxData) }, BitVec.ofNat 64 Config.maxData, .enc,
      rfl, rfl, rfl, by decide⟩,
    ⟨{ toy with holdCap := 8 }, { State.reset with
        phase := .dataDone, dlen := some 8, dir := some .dec, hold := List.replicate 8 0 }, 8, .dec, rfl, rfl, rfl, rfl,
      rfl⟩,
    toy, { State.reset with phase := .ivSet, alen := some (BitVec.ofNat 64 (2 ^ 61 - 1)) },
    BitVec.ofNat 64 (2 ^ 61 - 1), rfl, rfl, by decide⟩

theorem witness_ProcessMayBeCut : ∃ s : State, ∃ t u r₁ r₂, exec (.process [1, 2]) s = .next t ∧ t.rsp = s.rsp ++ [r₁] ∧
    r₁.status = .ok ∧ exec (.process [3]) t = .next u ∧ u.rsp = t.rsp ++ [r₂] :=
  ⟨aadDone Config.chip (wMessage .enc []), _, _, _, _, rfl, rfl, rfl, rfl, rfl⟩

theorem witness_CipherRequestsAreOnDemand_process : ∃ s : State, ∃ t n ctr buf,
    exec (.process [1]) s = .next t ∧ t.lastStatus = .ok ∧ s.dlen = some n ∧ s.ctr = some ctr ∧ s.buf = some buf ∧
    s.phase = .dataDone ∧ buf.length = n.toNat % 16 :=
  ⟨dataDone Config.chip (wMessage .dec [7]), _, 1, _, _, rfl, rfl, rfl, rfl, rfl, rfl, rfl⟩

theorem witness_CipherRequestsAreOnDemand_firstData : ∃ s : State, ∃ t ctr,
    exec (.process [1]) s = .next t ∧ t.lastStatus = .ok ∧ s.dlen = some 0 ∧ s.ctr = some ctr ∧ s.buf = some [] ∧
    s.phase = .aadDone := ⟨aadDone Config.chip (wMessage .dec []), _, _, rfl, rfl, rfl, rfl, rfl, rfl⟩

theorem witness_CipherRequestsAreOnDemand_setIv : ∃ s : State, ∃ t h, exec (.setIv [1]) s = .next t ∧ t.lastStatus = .ok ∧
    s.h = some h := ⟨created Config.chip (wMessage .enc []), _, _, rfl, rfl, rfl⟩

theorem witness_CipherRequestsAreOnDemand_others :
    (∃ t, exec (.init .enc 0 []) State.reset = .next t) ∧ ∃ t, exec (.finish []) State.reset = .next t :=
  ⟨⟨_, rfl⟩, _, rfl⟩

theorem witness_CipherRequestsAreOnDemand_failing :
    (∃ t, exec (.process [1]) State.reset = .next t ∧ t.lastStatus ≠ .ok) ∧
    ∃ t, exec (.setIv []) (created Config.chip (wMessage .enc [])) = .next t ∧ t.lastStatus ≠ .ok :=
  ⟨⟨_, rfl, by decide⟩, _, rfl, by decide⟩

theorem witness_FinishEmitsOrVerifiesTheTag_checks :
    (∃ s : State, s.phase ≠ .dataDone) ∧
    (∃ (s : State) (e : List Byte), s.phase = .dataDone ∧ s.dir = some .enc ∧ s.taglen = some 16 ∧ e.length = 1) ∧
    ∃ (s : State) (e : List Byte), s.phase = .dataDone ∧ s.dir = some .dec ∧ s.taglen = some 16 ∧ e.length = 15 :=
  ⟨⟨State.reset, by decide⟩, ⟨dataDone Config.chip (wMessage .enc []), [0], rfl, rfl, rfl, rfl⟩,
    dataDone Config.chip (wMessage .dec []), List.replicate 15 0, rfl, rfl, rfl, rfl⟩

theorem witness_FinishEmitsOrVerifiesTheTag_enc : ∃ (s : State) (h acc : Block) (buf : List Byte) (a len : BitVec 64)
    (ek0 : Block), s.phase = .dataDone ∧ s.taglen = some 16 ∧ s.h = some h ∧ s.acc = some acc ∧ s.buf = some buf ∧
    s.alen = some a ∧ s.dlen = some len ∧ s.ek0 = some ek0 ∧ s.dir = some .enc :=
  ⟨dataDone Config.chip (wMessage .enc []), _, _, _, _, _, _, rfl, rfl, rfl, rfl, rfl, rfl, rfl, rfl, rfl⟩

/-- A string of the tag's length that is not the tag: every byte changed. -/
theorem another_tag (ek0 acc : Block) : ∃ e, e.length = 16 ∧ sessionTag ek0 acc 16 ≠ e := by
  refine ⟨(sessionTag ek0 acc 16).map (· + 1), rfl, fun h => ?_⟩
  have h0 : blockByte (ek0 ^^^ acc) 0 = blockByte (ek0 ^^^ acc) 0 + 1 := (List.cons.inj h).1
  have h1 : (0 : Byte) = 1 := by
    have := congrArg (· - blockByte (ek0 ^^^ acc) 0) h0
    simp [BitVec.add_comm] at this
  exact absurd h1 (by decide)

theorem witness_FinishEmitsOrVerifiesTheTag_dec : ∃ (s : State) (h acc : Block) (buf : List Byte) (a len : BitVec 64)
    (ek0 : Block), s.phase = .dataDone ∧ s.taglen = some 16 ∧ s.h = some h ∧ s.acc = some acc ∧ s.buf = some buf ∧
    s.alen = some a ∧ s.dlen = some len ∧ s.ek0 = some ek0 ∧ s.dir = some .dec ∧
    (∃ e, e.length = 16 ∧ sessionTag ek0 (finalAcc h acc buf a len) 16 = e) ∧
    ∃ e, e.length = 16 ∧ sessionTag ek0 (finalAcc h acc buf a len) 16 ≠ e :=
  ⟨dataDone Config.chip (wMessage .dec []), _, _, _, _, _, _, rfl, rfl, rfl, rfl, rfl, rfl, rfl, rfl, rfl,
    ⟨_, rfl, rfl⟩, another_tag _ _⟩

theorem witness_OnlyTheRightTagReleasesPlaintext : ∃ (m : Message) (s : State), m.DataDone Config.chip s ∧ m.dir = .dec ∧
    (∃ e : List Byte, e.length = m.taglen.toNat ∧ e = m.tag Config.chip) ∧
    ∃ e : List Byte, e.length = m.taglen.toNat ∧ e ≠ m.tag Config.chip :=
  ⟨wMessage .dec [7], dataDone Config.chip (wMessage .dec [7]), dataDone_is_dataDone _ _ (by decide) (by decide), rfl,
    ⟨_, rfl, rfl⟩, (another_tag _ _).imp fun _ h => ⟨h.1, h.2.symm⟩⟩

/-! #### The invariant, one witness a phase -/

theorem witness_Inv_idle : State.reset.Inv Config.chip := ⟨rfl, by decide⟩

theorem witness_Inv_failed : (failed .illegalCommand).Inv Config.chip := ⟨rfl, by decide⟩

theorem witness_Inv_finished : ({ State.reset with phase := .finished } : State).Inv Config.chip := ⟨rfl, by decide⟩

theorem witness_Inv_created : (created Config.chip (wMessage .enc [])).Inv Config.chip :=
  ⟨⟨⟨⟨_, rfl, rfl, rfl⟩, rfl, ⟨0, rfl, by decide⟩, ⟨0, rfl, by decide⟩, rfl, ⟨_, rfl, rfl⟩, ⟨_, rfl, by decide⟩, by decide⟩,
    rfl, rfl, rfl, rfl, rfl, rfl, rfl, rfl⟩, by decide⟩

theorem witness_Inv_ivSet : (ivSet Config.chip (wMessage .enc [])).Inv Config.chip :=
  ⟨⟨⟨⟨_, rfl, rfl, rfl⟩, rfl, ⟨3, rfl, by decide⟩, ⟨0, rfl, by decide⟩, rfl, ⟨_, rfl, rfl⟩, ⟨_, rfl, by decide⟩, by decide⟩,
    ⟨rfl, rfl⟩, rfl, rfl, rfl, by rintro a b ⟨⟩ ⟨⟩; rfl⟩, by decide⟩

theorem witness_Inv_dataDone : (dataDone Config.chip (wMessage .dec [7])).Inv Config.chip :=
  ⟨⟨⟨⟨_, rfl, rfl, rfl⟩, rfl, ⟨3, rfl, by decide⟩, ⟨1, rfl, by decide⟩, rfl, ⟨_, rfl, rfl⟩, ⟨[7], rfl, by decide⟩, by decide⟩,
    ⟨rfl, rfl⟩, ⟨nofun, nofun⟩, by rintro n b ⟨⟩ ⟨⟩; rfl, nofun, by rintro n _ ⟨⟩; rfl⟩, by decide⟩

theorem witness_StepKeepsTheInvariant : ∃ s : State, ∃ t, s.Inv Config.chip ∧ step s = .next t ∧ t.phase = .finished :=
  ⟨pending (dataDone Config.chip (wMessage .enc [])) (.finish []), _,
    ⟨⟨⟨⟨_, rfl, rfl, rfl⟩, rfl, ⟨3, rfl, by decide⟩, ⟨0, rfl, by decide⟩, rfl, ⟨_, rfl, rfl⟩, ⟨[], rfl, by decide⟩,
      by decide⟩, ⟨rfl, rfl⟩, ⟨fun _ => rfl, fun _ => rfl⟩, by rintro n b ⟨⟩ ⟨⟩; rfl, fun _ => rfl, nofun⟩, by decide⟩,
    rfl, rfl⟩

/-! #### What commands leave unchanged, and messages -/

theorem witness_SessionConstantsStay :
    (∃ s : State, ∃ t, exec (.process [1]) s = .next t ∧ t.phase ≠ .failed ∧ t.phase ≠ .finished) ∧
    ∃ s : State, ∃ t, exec (.finish []) s = .next t ∧ t.phase = .finished :=
  ⟨⟨aadDone Config.chip (wMessage .enc []), _, rfl, by decide, by decide⟩,
    dataDone Config.chip (wMessage .enc []), _, rfl, rfl⟩

theorem witness_CounterPrefixStays : ∃ s : State, ∃ t x y, exec (.process [1]) s = .next t ∧ s.ctr = some x ∧ t.ctr = some y :=
  ⟨aadDone Config.chip (wMessage .enc []), _, _, _, rfl, rfl, rfl⟩

theorem witness_CommandsWriteOnlyTheirRegisters :
    (∃ s : State, ∃ t, exec (.setIv [1]) s = .next t ∧ t.phase ≠ .failed) ∧
    (∃ s : State, ∃ t, exec (.addAad [1]) s = .next t ∧ t.phase ≠ .failed) ∧
    (∃ s : State, ∃ t, exec .finishAad s = .next t ∧ t.phase ≠ .failed) ∧
    (∃ s : State, ∃ t, exec (.process [1]) s = .next t ∧ t.phase ≠ .failed ∧ s.dir = some .enc) ∧
    ∃ s : State, ∃ t, exec (.finish []) s = .next t ∧ t.phase ≠ .failed :=
  ⟨⟨created Config.chip (wMessage .enc []), _, rfl, by decide⟩, ⟨ivSet Config.chip (wMessage .enc []), _, rfl, by decide⟩,
    ⟨ivSet Config.chip (wMessage .enc []), _, rfl, by decide⟩,
    ⟨aadDone Config.chip (wMessage .enc []), _, rfl, by decide, rfl⟩,
    dataDone Config.chip (wMessage .enc []), _, rfl, by decide⟩

theorem witness_InitBeginsAMessage : ∃ t, exec (.init .dec 12 (List.replicate 24 0)) State.reset = .next t ∧
    t.phase = .created := ⟨_, rfl, rfl⟩

theorem witness_AadCommandsKeepTheMessage_created : ∃ (m : Message) (s : State), m.Created Config.chip s ∧ m.iv ≠ [] :=
  ⟨{ wMessage .enc [] with aad := [] }, created Config.chip (wMessage .enc []),
    ⟨⟨rfl, rfl, rfl, rfl, rfl, by decide, rfl, by decide, rfl⟩, rfl, rfl, rfl, rfl, rfl, rfl, rfl, rfl, rfl⟩, by decide⟩

theorem witness_AadCommandsKeepTheMessage_ivSet : ∃ (m : Message) (s : State), m.IvSet Config.chip s ∧
    m.aad.length + [9].length ≤ 2 ^ 61 - 1 :=
  ⟨wMessage .enc [], ivSet Config.chip (wMessage .enc []), ivSet_is_ivSet _ _ (by decide) rfl, by decide⟩

theorem witness_ProcessKeepsTheMessage_ivSet : ∃ (m : Message) (s : State),
    m.IvSet Config.chip s ∧ m.data.length + [9].length ≤ Config.maxData :=
  ⟨wMessage .dec [], ivSet Config.chip (wMessage .dec []), ivSet_is_ivSet _ _ (by decide) rfl, by decide⟩

theorem witness_ProcessKeepsTheMessage_aadDone : ∃ (m : Message) (s : State),
    m.AadDone Config.chip s ∧ m.data.length + [9].length ≤ Config.maxData :=
  ⟨wMessage .enc [], aadDone Config.chip (wMessage .enc []), aadDone_is_aadDone _ _ (by decide) rfl, by decide⟩

theorem witness_ProcessKeepsTheMessage_dataDone : ∃ (m : Message) (s : State),
    m.DataDone Config.chip s ∧ m.data.length + [9].length ≤ Config.maxData :=
  ⟨wMessage .dec [7], dataDone Config.chip (wMessage .dec [7]), dataDone_is_dataDone _ _ (by decide) (by decide), by decide⟩

theorem witness_FinishAnswersTheTagOfTheMessage : ∃ (m : Message) (s : State), m.DataDone Config.chip s ∧ m.dir = .enc :=
  ⟨wMessage .enc [7], dataDone Config.chip (wMessage .enc [7]), dataDone_is_dataDone _ _ (by decide) (by decide), rfl⟩

/-! #### The facade, chunking, secrecy -/

/-- A tag length given, and omitted. -/
theorem witness_SealComputesTheSessionFunction : ∃ (key iv aad plaintext : List Byte) (n : BitVec 5),
    12#5 = taglenOrDefault (some 12) ∧ n = taglenOrDefault none ∧ key.length = 24 ∧ 12 ≤ (12#5).toNat ∧ n.toNat = 16 ∧
    iv ≠ [] ∧ iv.length < 2 ^ 32 ∧ aad.length ≤ 2 ^ 61 - 1 ∧ plaintext.length ≤ Config.maxData :=
  ⟨List.replicate 24 0, [1], [2], [3], 16, rfl, rfl, by decide, by decide, by decide, by decide, by decide, by decide,
    by decide⟩

theorem witness_OpenInvertsSeal_omitted : ∃ (key iv aad plaintext tag : List Byte) (n : BitVec 5),
    n = taglenOrDefault none ∧ key.length = 16 ∧ 12 ≤ n.toNat ∧ n.toNat ≤ 16 ∧ iv ≠ [] ∧ iv.length < 2 ^ 32 ∧
    aad.length ≤ 2 ^ 61 - 1 ∧ plaintext.length ≤ Config.maxData ∧ tag.length < 2 ^ 32 ∧ tag.length = n.toNat ∧
    tag = Message.tag Config.chip ⟨.enc, n, key, iv, aad, plaintext⟩ :=
  ⟨List.replicate 16 0, [1], [2], [3], _, 16, rfl, by decide, by decide, by decide, by decide, by decide, by decide,
    by decide, by decide, rfl, rfl⟩

/-- A tag of another length, and another tag of the right length. -/
theorem witness_OpenInvertsSeal_given : ∃ (key iv aad plaintext : List Byte) (n : BitVec 5),
    n = taglenOrDefault (some 16) ∧ key.length = 32 ∧ 12 ≤ n.toNat ∧ n.toNat ≤ 16 ∧ iv ≠ [] ∧ iv.length < 2 ^ 32 ∧
    aad.length ≤ 2 ^ 61 - 1 ∧ plaintext.length ≤ Config.maxData ∧
    (∃ tag : List Byte, tag.length < 2 ^ 32 ∧ tag.length ≠ n.toNat) ∧
    ∃ tag : List Byte, tag.length = n.toNat ∧ tag ≠ Message.tag Config.chip ⟨.enc, n, key, iv, aad, plaintext⟩ :=
  ⟨List.replicate 32 0, [1], [2], [3], 16, rfl, by decide, by decide, by decide, by decide, by decide, by decide,
    by decide, ⟨[], by decide, by decide⟩, (another_tag _ _).imp fun _ h => ⟨h.1, h.2.symm⟩⟩

theorem witness_ChunkingIndependence : ∃ (m : Message) (s t t' : State), m.IvSet Config.chip s ∧
    [[1, 2]].flatten = ([[1], [2]] : List (List Byte)).flatten ∧ [[3, 4]].flatten = ([[3], [4]] : List (List Byte)).flatten ∧
    m.aad.length + ([[1, 2]] : List (List Byte)).flatten.length ≤ 2 ^ 61 - 1 ∧
    ([[3, 4]] : List (List Byte)).flatten.length ≤ Config.maxData ∧
    issueAll exec (sessionCommands [[1, 2]] true [[3, 4]] []) s = .next t ∧
    issueAll exec (sessionCommands [[1], [2]] false [[3], [4]] []) s = .next t' :=
  ⟨wMessage .enc [], ivSet Config.chip (wMessage .enc []), _, _, ivSet_is_ivSet _ _ (by decide) rfl, rfl, rfl, by decide,
    by decide, rfl, rfl⟩

theorem witness_NoUnauthenticatedPlaintext :
    (∃ s : State, ∃ t h p r, s.host = [.command h p] ∧ step s = .next t ∧ t.rsp = s.rsp ++ [r] ∧ r.status ≠ .ok) ∧
    ∃ s : State, ∃ t h p r, s.host = [.command h p] ∧ step s = .next t ∧ t.rsp = s.rsp ++ [r] ∧ s.dir = some .dec ∧ r.status = .ok :=
  ⟨⟨pending State.reset .finishAad, _, _, _, _, rfl, rfl, rfl, by decide⟩,
    pending (aadDone Config.chip (wMessage .dec [])) (.process [1]), _, _, _, _, rfl, rfl, rfl, rfl, rfl⟩

/-- Two sessions with different keys. -/
theorem witness_DecSessionRevealsNothingBeforeFinish : ∃ s t s' : State, s.publicPart = t.publicPart ∧
    s.keyctx ≠ t.keyctx ∧ s.dir = some .dec ∧ sameShape (.process [1]) (.process [2]) = true ∧
    Instr.isFinish (.process [1]) = false ∧ exec (.process [1]) s = .next s' := by
  let m (k : Byte) : Message := { wMessage .dec [] with key := List.replicate 16 k }
  refine ⟨aadDone Config.chip (m 0), aadDone Config.chip (m 1), _, ?_, ?_, rfl, by decide, rfl, rfl⟩
  · simp [State.publicPart, aadDone, ivSet, created, m, wMessage]
  · exact fun h => absurd (Option.some.inj h) (by decide)

theorem witness_ResponsesHaveTheirShape : ∃ s : State, ∃ t r, s.Inv Config.chip ∧ exec (.addAad [1]) s = .next t ∧
    t.rsp = s.rsp ++ [r] := ⟨_, _, _, witness_Inv_ivSet, rfl, rfl⟩

/-! #### Blocks -/

/-- R53: ONE is the polynomial 1. -/
theorem witness_GfmulIsTheProductModuloP : IsPolyOf gfOne 1 := by
  intro i
  rw [Polynomial.coeff_one]
  have : ∀ j : Fin 128, gfOne.getMsbD j = decide (j.val = 0) := by decide
  by_cases hi : i < 128
  · simp [this ⟨i, hi⟩, eq_comm]
  · have : i ≠ 0 := by omega
    rw [BitVec.getMsbD_of_ge _ _ (by omega)]
    simp [this]

theorem witness_NoZeroDivisors : gfmul 0 5 = 0 ∧ gfmul 5 0 = 0 := by decide +kernel

theorem witness_ZeroSubkeyGivesTheBareTag : subkey (Config.withCipher fun _ _ => 0) (wMessage .enc [7]).key = 0 := rfl

theorem witness_GhashIsAPolynomialInH : (List.replicate 32 (0 : Byte)).length % 16 = 0 := by decide

theorem witness_CounterNeverRepeats : ∃ j k : Nat, j ≤ 2 ^ 32 - 2 ∧ k ≤ 2 ^ 32 - 2 ∧ inc32Iter 0 j = inc32Iter 0 k :=
  ⟨2 ^ 32 - 2, 2 ^ 32 - 2, le_rfl, le_rfl, rfl⟩

theorem witness_BlockViewsAgree : (List.replicate 16 (0xff : Byte)).length = 16 ∧ 15 < 16 ∧ 7 < 8 := by decide

end Sys2Proof.Tests
end

/-! ## Proofs of the scope family (00_scope.md): the Block views of R6 and the step of R9 -/

namespace Sys2Proof.Machine

/-! ### The byte-string, integer and bit-string views of a Block (R6) -/

/-- R6: byte `k` of a Block is its bits 8k to 8k + 7, most significant first. -/
theorem getMsbD_blockByte (b : Block) {k i : Nat} (hk : k < 16) (hi : i < 8) :
    (blockByte b k).getMsbD i = b.getMsbD (8 * k + i) := by
  have hbit : 8 * (15 - k) + (8 - 1 - i) = 128 - 1 - (8 * k + i) := by omega
  have hlt : 8 * k + i < 128 := by omega
  have hpos : 7 - i < 8 := by omega
  simp [blockByte, BitVec.getMsbD, hi, hlt, hbit, hpos]

@[simp] theorem length_blockBytes (b : Block) : (blockBytes b).length = 16 := by simp [blockBytes]

@[simp] theorem getElem_blockBytes (b : Block) (k : Nat) (hk : k < (blockBytes b).length) :
    (blockBytes b)[k] = blockByte b k := by simp [blockBytes]

/-- R6: a Block is determined by its byte string, since every bit of it is a bit of one of its bytes. -/
theorem blockBytes_injective : Function.Injective blockBytes := by
  intro a b hab
  refine BitVec.eq_of_getMsbD_eq fun n hn => ?_
  have hbyte : blockByte a (n / 8) = blockByte b (n / 8) := by
    have hk : n / 8 < 16 := by omega
    rw [← getElem_blockBytes a _ (by simpa), ← getElem_blockBytes b _ (by simpa)]
    simp only [hab]
  have hbit (x : Block) : x.getMsbD n = (blockByte x (n / 8)).getMsbD (n % 8) := by
    rw [getMsbD_blockByte x (by omega) (by omega), Nat.div_add_mod]
  rw [hbit a, hbit b, hbyte]

/-- R6: the bytes are read most significant first, so a further byte moves the others up by eight bits. -/
theorem blockOfBytes_snoc (s : List Byte) (b : Byte) :
    blockOfBytes (s ++ [b]) = (blockOfBytes s <<< 8) ||| b.setWidth 128 := by
  simp [blockOfBytes]

/-- The low eight bits after a further byte are that byte. -/
theorem extractLsb'_snoc_zero (n : Block) (b : Byte) :
    ((n <<< 8) ||| b.setWidth 128).extractLsb' 0 8 = b := by
  ext i hi
  have hlt : i < 128 := by omega
  simp [hi, hlt]

/-- The bytes above, after a further byte, are those that were there one position lower. -/
theorem extractLsb'_snoc_succ (n : Block) (b : Byte) {j : Nat} (hj : j + 1 < 16) :
    ((n <<< 8) ||| b.setWidth 128).extractLsb' (8 * (j + 1)) 8 = n.extractLsb' (8 * j) 8 := by
  ext i hi
  have hlt : 8 * (j + 1) + i < 128 := by omega
  have hge : ¬ 8 * (j + 1) + i < 8 := by omega
  have hsub : 8 * (j + 1) + i - 8 = 8 * j + i := by omega
  have hb : b.getLsbD (8 * (j + 1) + i) = false := BitVec.getLsbD_of_ge _ _ (by omega)
  simp [hlt, hge, hsub, hb, BitVec.getLsbD_eq_getElem (show 8 * j + i < 128 by omega)]

/-- R6: `int(B)` byte by byte, counted from the last byte of the string. -/
theorem extractLsb'_blockOfBytes (s : List Byte) {j : Nat} (hj : j < 16) (hs : j < s.reverse.length) :
    (blockOfBytes s).extractLsb' (8 * j) 8 = s.reverse[j] := by
  induction s using List.reverseRecOn generalizing j with
  | nil => simp at hs
  | append_singleton s b ih =>
    rw [blockOfBytes_snoc]
    cases j with
    | zero => simpa using extractLsb'_snoc_zero (blockOfBytes s) b
    | succ j =>
      have hs' : j < s.reverse.length := by simpa using hs
      rw [extractLsb'_snoc_succ _ _ hj, ih (by omega) hs']
      simp

/-- R6: byte `k` of the Block of a 16-byte string is byte `k` of the string. -/
theorem blockByte_blockOfBytes {s : List Byte} (hs : s.length = 16) {k : Nat} (hk : k < s.length) :
    blockByte (blockOfBytes s) k = s[k] := by
  rw [blockByte, extractLsb'_blockOfBytes s (by omega) (by simp only [List.length_reverse]; omega),
    List.getElem_reverse]
  congr 1
  omega

/-- R6: a 16-byte string is the byte string of its Block. -/
theorem blockBytes_blockOfBytes {s : List Byte} (hs : s.length = 16) : blockBytes (blockOfBytes s) = s := by
  refine List.ext_getElem (by simp [hs]) fun k _ hk => ?_
  rw [getElem_blockBytes, blockByte_blockOfBytes hs hk]

/-- R6: a Block is the Block of its byte string. -/
@[simp] theorem blockOfBytes_blockBytes (b : Block) : blockOfBytes (blockBytes b) = b :=
  blockBytes_injective (blockBytes_blockOfBytes (length_blockBytes b))

/-- Settles O60: the two round trips, and the bit numbering that makes the byte string determine the Block. -/
theorem blockViewsAgree : Obligations.BlockViewsAgree :=
  ⟨blockOfBytes_blockBytes, fun _ => blockBytes_blockOfBytes, fun b _ _ => getMsbD_blockByte b⟩

/-! ### The step (R9) on the ports -/

/-- R36: the event taken from the ports is the head of what the host presents. -/
theorem takeEvent_of_host_cons {s : State} {e : HostEvent} {rest : List HostEvent} (hs : s.host = e :: rest) :
    s.takeEvent = some (e, { s with host := rest }) := by
  simp [State.takeEvent, hs]

/-- R9, R43: the step on a pair that decodes. -/
theorem step_of_decode_ok {s : State} {h : Header} {p : List Byte} {rest : List HostEvent} {i : Instr}
    (hs : s.host = .command h p :: rest) (hd : decode h p = .ok i) : step s = exec i { s with host := rest } := by
  simp [step, takeEvent_of_host_cons hs, hd]

/-- Settles O7: the step takes the pair from the port and runs the command it decodes to. -/
theorem stepRunsTheDecodedCommand : Obligations.StepRunsTheDecodedCommand :=
  fun _ _ _ _ _ => step_of_decode_ok

/-- R9, R31, R35: a command leaves the host's events alone, sends its cipher requests after the earlier ones and answers with
one response: so does each of its seven outcomes, by the field rules of Laws/State. -/
theorem exec_ports {i : Instr} {s t : State} (hx : exec i s = .next t) :
    t.host = s.host ∧ (∃ rs, t.ciph = s.ciph ++ rs) ∧ ∃ r, t.rsp = s.rsp ++ [r] := by
  rcases exec_cases hx with ⟨st, cs, -, rfl, -⟩ | ⟨d, n, key, -, -, -, rfl⟩ | ⟨iv, key, h, -, -, -, -, -, rfl⟩ |
    ⟨aad, -, -, a, h, acc, buf, -, -, -, -, -, rfl⟩ | ⟨-, -, h, acc, buf, -, -, -, rfl⟩ |
    ⟨data, -, -, n, d, key, h, acc, ctr, buf, -, -, -, -, -, -, -, -, -, -, rfl⟩ | ⟨e, o, tag, -, -, rfl, -⟩ <;>
  simp

/-- Settles O13: of the four things a step can do, an illegal command and a decoded one add a response, and reset and waiting
add nothing. -/
theorem oneResponseForEachCommand : Obligations.OneResponseForEachCommand := by
  intro s t hx
  rcases step_cases hx with ⟨hs, rfl⟩ | ⟨rest, hs, rfl⟩ | ⟨h, p, rest, e, hs, -, rfl⟩ | ⟨h, p, rest, i, hs, -, hi⟩
  · exact ⟨by simp [hs], ⟨[], by simp⟩, .inr ⟨.inl hs, rfl, rfl⟩⟩
  · exact ⟨by simp [hs], ⟨[], by simp⟩, .inr ⟨.inr ⟨rest, hs⟩, rfl, rfl⟩⟩
  · exact ⟨by simp [hs], ⟨[], by simp⟩, .inl ⟨h, p, rest, _, hs, rfl⟩⟩
  · obtain ⟨hhost, hciph, r, hrsp⟩ := exec_ports hi
    exact ⟨by simp [hs, hhost], hciph, .inl ⟨h, p, rest, r, hs, hrsp⟩⟩

end Sys2Proof.Machine

/-! ## Proofs of the state family (10_state.md): the message a session stands for (R26), the invariant (R25), what a command
leaves unchanged, and what a host can tell apart (R27) -/

namespace Sys2Proof.Machine

/-! ### The commands that complete

The converse of the last case of each `exec…_cases` of Laws/Commands.lean: with its phase, its checks and its elements at
hand, a command answers the state its rule names. -/

/-- R92: SET_IV completes in CREATED on an IV of at least one byte. -/
theorem execSetIvIn_completes {c : Config} {iv : List Byte} {s : State} {key : Key} {h : Block} (hp : s.phase = .created)
    (hiv : iv ≠ []) (hk : s.keyctx = some key) (hh : s.h = some h) :
    execSetIvIn c iv s = .next
      (({ s with
          ek0 := some (c.cipher key (deriveJ0 h iv)), ctr := some (inc32 (deriveJ0 h iv)), acc := some 0,
          phase := .ivSet }.request [.encrypt (deriveJ0 h iv)]).respond .ok [] []) := by
  have hlen : ivLengthOk iv.length = true := by simpa [ivLengthOk, Nat.one_le_iff_ne_zero] using hiv
  simp [execSetIvIn, hp, transition, hlen, hk, hh]

/-- R94: ADD_AAD completes in IVSET within the capacity. -/
theorem execAddAadIn_completes {c : Config} {aad : List Byte} {s : State} {a : BitVec 64} {h acc : Block} {buf : List Byte}
    (hp : s.phase = .ivSet) (ha : s.alen = some a) (hfit : a.toNat + aad.length ≤ c.maxAad) (hh : s.h = some h)
    (hacc : s.acc = some acc) (hbuf : s.buf = some buf) :
    execAddAadIn c aad s = .next
      ({ s with
          acc := some (absorb h (acc, buf) aad).1, buf := some (absorb h (acc, buf) aad).2,
          alen := some (a + BitVec.ofNat 64 aad.length), phase := .ivSet }.respond .ok [] []) := by
  simp [execAddAadIn, hp, transition, ha, aadFits, hfit, hh, hacc, hbuf]

/-- R96: FINISH_AAD completes in IVSET. -/
theorem execFinishAad_completes {s : State} {h acc : Block} {buf : List Byte} (hp : s.phase = .ivSet) (hh : s.h = some h)
    (hacc : s.acc = some acc) (hbuf : s.buf = some buf) :
    execFinishAad s = .next
      ({ s with acc := some (foldPartial h acc buf), buf := some [], phase := .aadDone }.respond .ok [] []) := by
  simp [execFinishAad, hp, transition, hh, hacc, hbuf]

/-- R98: PROCESS completes in its three phases within both capacities. -/
theorem execProcessIn_completes {c : Config} {data : List Byte} {s : State} {n : BitVec 64} {d : Dir} {key : Key}
    {h acc ctr : Block} {buf : List Byte} (hp : s.phase = .ivSet ∨ s.phase = .aadDone ∨ s.phase = .dataDone)
    (hn : s.dlen = some n) (hfit : n.toNat + data.length ≤ Config.maxData) (hd : s.dir = some d)
    (hhold : holdFits c d s.hold.length data.length = true) (hk : s.keyctx = some key) (hh : s.h = some h)
    (hacc : s.acc = some acc) (hctr : s.ctr = some ctr) (hbuf : s.buf = some buf)
    (hks : (openStream s.phase h acc ctr s.ks buf).buf = [] ∨
      (openStream s.phase h acc ctr s.ks buf).ks.isSome = true) :
    execProcessIn c data s = .next
      (s.closeStream .dataDone d n data.length
        (xorBytes c key h d (openStream s.phase h acc ctr s.ks buf) data)) := by
  have ht : transition s.phase (.process data) = some .dataDone := transition_process.2 ⟨rfl, hp⟩
  simp only [execProcessIn, ht, hn, dataFits, hfit, hd, hhold, hk, hh, hacc, hctr, hbuf, readReg_some, decide_true,
    Bool.true_eq_false, if_false]
  exact readKs_eq_next.2 ⟨hks, rfl⟩

/-! ### The message grows (R26) -/

/-- R98: PROCESS starts with nothing put out. -/
@[simp] theorem openStream_out (p : Phase) (h acc ctr : Block) (ks : Option Block) (buf : List Byte) :
    (openStream p h acc ctr ks buf).out = [] := by
  unfold openStream; split_ifs <;> rfl

/-- R97, R98: closing the AAD leaves CTR alone. -/
@[simp] theorem openStream_ctr (p : Phase) (h acc ctr : Block) (ks : Option Block) (buf : List Byte) :
    (openStream p h acc ctr ks buf).ctr = ctr := by
  unfold openStream; split_ifs <;> rfl

/-- R97, R98: closing the AAD leaves KS alone. -/
@[simp] theorem openStream_ks (p : Phase) (h acc ctr : Block) (ks : Option Block) (buf : List Byte) :
    (openStream p h acc ctr ks buf).ks = ks := by
  unfold openStream; split_ifs <;> rfl

/-- R97, R98: in IVSET nothing waits once the AAD is closed. -/
@[simp] theorem openStream_buf (p : Phase) (h acc ctr : Block) (ks : Option Block) (buf : List Byte) :
    (openStream p h acc ctr ks buf).buf = if p = .ivSet then [] else buf := by
  unfold openStream; split_ifs <;> rfl

/-- R105: one ciphertext byte a data byte. -/
theorem Message.ciphertext_length (c : Config) (m : Message) : (m.ciphertext c).length = m.data.length := by
  unfold Message.ciphertext
  cases m.dir
  · exact xorKeystream_length ..
  · rfl

/-- R105: the ciphertext of more data is more ciphertext. -/
theorem Message.ciphertext_append (c : Config) (m : Message) (x : List Byte) :
    { m with data := m.data ++ x }.ciphertext c =
      m.ciphertext c ++ cipherBytesFrom c m.key (m.j0 c) m.dir m.data.length x := by
  unfold Message.ciphertext
  cases m.dir
  · exact xorKeystream_append ..
  · rfl

/-- A length that a session admits, as the 64-bit counter holds it. -/
theorem toNat_ofNat_of_le_maxData {n : Nat} (h : n ≤ Config.maxData) : (BitVec.ofNat 64 n).toNat = n := by
  simp only [Config.maxData] at h
  rw [BitVec.toNat_ofNat, Nat.mod_eq_of_lt (by omega)]

/-- R26: what the three phases that allow PROCESS have in common: the registers PROCESS starts from stand for the whole
ciphertext so far, and HOLD for the whole plaintext of a DEC session. -/
structure Message.TakesData (c : Config) (m : Message) (s : State) : Prop extends m.Common c s where
  phase : s.phase = .ivSet ∨ s.phase = .aadDone ∨ s.phase = .dataDone
  ek0 : s.ek0 = some (c.cipher m.key (m.j0 c))
  hold : s.hold = if m.dir = .dec then xorKeystream c m.key (m.j0 c) m.data else []
  stream : ∃ acc ctr buf, s.acc = some acc ∧ s.ctr = some ctr ∧ s.buf = some buf ∧
    StreamAt c m.key (subkey c m.key) (m.j0 c) (ghash (subkey c m.key) (pad16 m.aad)) (m.ciphertext c)
      (openStream s.phase (subkey c m.key) acc ctr s.ks buf)

/-- R26: the stream registers before the first data byte. -/
theorem streamAt_nil (c : Config) (key : Key) (h j0 y : Block) (out : List Byte) (rs : List CipherRequest) :
    StreamAt c key h j0 y [] ⟨y, inc32 j0, none, [], out, rs⟩ := ⟨rfl, rfl, rfl, rfl⟩

/-- No data is no ciphertext. -/
theorem Message.ciphertext_of_no_data {c : Config} {m : Message} (hm : m.data = []) : m.ciphertext c = [] :=
  List.length_eq_zero_iff.1 (by rw [m.ciphertext_length, hm]; rfl)

/-- R97, R98: in IVSET PROCESS first closes the AAD. -/
theorem Message.IvSet.takesData {c : Config} {m : Message} {s : State} (hm : m.IvSet c s) : m.TakesData c s where
  toCommon := hm.toCommon
  phase := .inl hm.phase
  ek0 := hm.ek0
  hold := by simp [hm.hold, hm.no_data, xorKeystream]
  stream := by
    refine ⟨_, _, _, hm.acc, hm.ctr, hm.buf, ?_⟩
    rw [openStream, if_pos hm.phase, ghash, ghash, foldPartial_stream, hm.ks, ciphertext_of_no_data hm.no_data]
    exact streamAt_nil ..

/-- R98: in AADDONE the stream is the one before the first data byte. -/
theorem Message.AadDone.takesData {c : Config} {m : Message} {s : State} (hm : m.AadDone c s) : m.TakesData c s where
  toCommon := hm.toCommon
  phase := .inr (.inl hm.phase)
  ek0 := hm.ek0
  hold := by simp [hm.hold, hm.no_data, xorKeystream]
  stream := by
    refine ⟨_, _, _, hm.acc, hm.ctr, hm.buf, ?_⟩
    rw [openStream, if_neg (by simp [hm.phase]), hm.ks, ciphertext_of_no_data hm.no_data]
    exact streamAt_nil ..

/-- R98: in DATADONE PROCESS goes on with the stream as it is. -/
theorem Message.DataDone.takesData {c : Config} {m : Message} {s : State} (hm : m.DataDone c s) : m.TakesData c s where
  toCommon := hm.toCommon
  phase := .inr (.inr hm.phase)
  ek0 := hm.ek0
  hold := hm.hold
  stream := by
    refine ⟨_, _, _, hm.acc, hm.ctr, hm.buf, ?_⟩
    rw [openStream, if_neg (by simp [hm.phase])]
    exact {
      acc := ghashFrom_append _ _ _ (pad16_length_mod _)
      buf := rfl
      ctr := by rw [m.ciphertext_length]
      ks := by rw [m.ciphertext_length]; exact hm.ks }

/-- R26: a stream at a block boundary has nothing waiting, and one inside a block has a keystream block. -/
theorem StreamAt.ks_ready {c : Config} {key : Key} {h j0 y : Block} {pre : List Byte} {d : Stream}
    (hd : StreamAt c key h j0 y pre d) : d.buf = [] ∨ d.ks.isSome = true := by
  by_cases hz : pre.length % 16 = 0
  · exact .inl (by rw [hd.buf]; exact List.length_eq_zero_iff.1 (by rw [restPart_length, hz]))
  · exact .inr (by rw [hd.ks, if_neg hz]; rfl)

/-- R26: the state PROCESS leaves, once its stream stands for the ciphertext with the payload's. -/
theorem Message.TakesData.closeStream {c : Config} {m : Message} {s : State} {x : List Byte} {d : Stream}
    (hm : m.TakesData c s) (hfit : m.data.length + x.length ≤ Config.maxData)
    (hd : StreamAt c m.key (subkey c m.key) (m.j0 c) (ghash (subkey c m.key) (pad16 m.aad))
      ({ m with data := m.data ++ x }.ciphertext c) d)
    (hout : d.out = xorKeystreamFrom c m.key (m.j0 c) m.data.length x) :
    { m with data := m.data ++ x }.DataDone c
      (s.closeStream .dataDone m.dir (BitVec.ofNat 64 m.data.length) x.length d) where
  keyctx := hm.keyctx
  h := hm.h
  dir := hm.dir
  taglen := hm.taglen
  alen := hm.alen
  alen_le := hm.alen_le
  dlen := by simp [BitVec.ofNat_add]
  dlen_le := by simpa using hfit
  err := hm.err
  phase := rfl
  acc := congrArg some (hd.acc.trans (ghashFrom_append _ _ _ (pad16_length_mod _)).symm)
  buf := congrArg some hd.buf
  ctr := congrArg some (by rw [hd.ctr, Message.ciphertext_length]; rfl)
  ek0 := hm.ek0
  ks := by rw [State.closeStream_ks, hd.ks, Message.ciphertext_length]; rfl
  hold := by
    rw [State.closeStream_hold, hm.hold, hout]
    cases m.dir
    · rfl
    · exact (xorKeystream_append ..).symm

/-- R98, R99, R26: PROCESS within the limits extends the message. -/
theorem Message.TakesData.exec_process {m : Message} {s : State} {x : List Byte} (hm : m.TakesData Config.chip s)
    (hfit : m.data.length + x.length ≤ Config.maxData) :
    ∃ t, exec (.process x) s = .next t ∧ { m with data := m.data ++ x }.DataDone Config.chip t ∧
      t.rsp = s.rsp ++ [⟨.ok, .dataDone,
        emitted m.dir (xorKeystreamFrom Config.chip m.key (m.j0 Config.chip) m.data.length x), []⟩] := by
  obtain ⟨acc, ctr, buf, hacc, hctr, hbuf, hopen⟩ := hm.stream
  obtain ⟨hstream, hout, -⟩ := xorBytes_stream m.dir x hopen
  rw [m.ciphertext_length, ← m.ciphertext_append] at hstream
  rw [openStream_out, m.ciphertext_length, List.nil_append] at hout
  have hhold : holdFits Config.chip m.dir s.hold.length x.length = true := by
    rw [hm.hold]
    cases m.dir
    · rfl
    · rw [if_pos rfl, xorKeystream_length]
      exact decide_eq_true hfit
  refine ⟨_, execProcessIn_completes hm.phase hm.dlen ?_ hm.dir hhold hm.keyctx hm.h hacc hctr hbuf hopen.ks_ready,
    hm.closeStream hfit hstream hout, ?_⟩
  · rwa [toNat_ofNat_of_le_maxData hm.dlen_le]
  · rw [State.closeStream_rsp, hout]

/-- Settles O43: in all three phases the registers PROCESS starts from stand for the ciphertext so far, and the data
loop keeps that. -/
theorem processKeepsTheMessage : Obligations.ProcessKeepsTheMessage := by
  intro m s x hs hfit
  have hm : m.TakesData Config.chip s := by
    rcases hs with hs | hs | hs
    · exact hs.takesData
    · exact hs.takesData
    · exact hs.takesData
  obtain ⟨t, hx, ht, hrsp⟩ := hm.exec_process hfit
  refine ⟨t, hx, ht, ?_⟩
  have hdrop : (xorKeystream Config.chip m.key (m.j0 Config.chip) (m.data ++ x)).drop m.data.length =
      xorKeystreamFrom Config.chip m.key (m.j0 Config.chip) m.data.length x := by
    rw [xorKeystream_append, List.drop_left' (xorKeystream_length ..)]
  rw [hrsp, hdrop]
  cases m.dir <;> rfl

/-- Settles O41: the only case of INIT that leaves CREATED is its success, which writes every element. -/
theorem initBeginsAMessage : Obligations.InitBeginsAMessage := by
  intro d n key iv s t hx hp
  rcases execInitIn_cases hx with ⟨-, rfl⟩ | ⟨-, -, rfl⟩ | ⟨-, -, rfl⟩
  · cases hp
  · cases hp
  · exact ⟨⟨rfl, rfl, rfl, rfl, rfl, Nat.zero_le _, rfl, Nat.zero_le _, rfl⟩, rfl, rfl, rfl, rfl, rfl, rfl, rfl, rfl, rfl⟩

/-- R26, R92: SET_IV of the message's IV. -/
theorem Message.Created.exec_setIv {m : Message} {s : State} (hm : m.Created Config.chip s) (hiv : m.iv ≠ []) :
    ∃ t, exec (.setIv m.iv) s = .next t ∧ m.IvSet Config.chip t := by
  refine ⟨_, execSetIvIn_completes hm.phase hiv hm.keyctx hm.h, ?_⟩
  exact {
    keyctx := hm.keyctx, h := hm.h, dir := hm.dir, taglen := hm.taglen, alen := hm.alen, alen_le := hm.alen_le
    dlen := hm.dlen, dlen_le := hm.dlen_le, err := hm.err
    phase := rfl
    acc := by rw [hm.no_aad]; rfl
    buf := by rw [hm.no_aad]; exact hm.buf
    ctr := rfl
    ek0 := rfl
    ks := hm.ks
    hold := hm.hold
    no_data := hm.no_data }

/-- R26, R94: ADD_AAD extends the AAD of the message. -/
theorem Message.IvSet.exec_addAad {m : Message} {s : State} {x : List Byte} (hm : m.IvSet Config.chip s)
    (hfit : m.aad.length + x.length ≤ 2 ^ 61 - 1) :
    ∃ t, exec (.addAad x) s = .next t ∧ { m with aad := m.aad ++ x }.IvSet Config.chip t := by
  have hlen : (BitVec.ofNat 64 m.aad.length).toNat = m.aad.length := by
    rw [BitVec.toNat_ofNat, Nat.mod_eq_of_lt (by omega)]
  have habs := absorb_stream (subkey Config.chip m.key) 0 m.aad x
  refine ⟨_, execAddAadIn_completes hm.phase hm.alen (by rwa [hlen]) hm.h hm.acc hm.buf, ?_⟩
  exact {
    keyctx := hm.keyctx, h := hm.h, dir := hm.dir, taglen := hm.taglen
    alen := by simp [BitVec.ofNat_add]
    alen_le := by rw [List.length_append]; exact hfit
    dlen := hm.dlen, dlen_le := hm.dlen_le, err := hm.err
    phase := rfl
    acc := congrArg (some ∘ Prod.fst) habs
    buf := congrArg (some ∘ Prod.snd) habs
    ctr := hm.ctr
    ek0 := hm.ek0
    ks := hm.ks
    hold := hm.hold
    no_data := hm.no_data }

/-- R26, R96: FINISH_AAD folds the AAD that waits. -/
theorem Message.IvSet.exec_finishAad {m : Message} {s : State} (hm : m.IvSet Config.chip s) :
    ∃ t, exec .finishAad s = .next t ∧ m.AadDone Config.chip t := by
  refine ⟨_, execFinishAad_completes hm.phase hm.h hm.acc hm.buf, ?_⟩
  exact {
    keyctx := hm.keyctx, h := hm.h, dir := hm.dir, taglen := hm.taglen, alen := hm.alen, alen_le := hm.alen_le
    dlen := hm.dlen, dlen_le := hm.dlen_le, err := hm.err
    phase := rfl
    acc := congrArg some (foldPartial_stream ..)
    buf := rfl
    ctr := hm.ctr
    ek0 := hm.ek0
    ks := hm.ks
    hold := hm.hold
    no_data := hm.no_data }

/-- Settles O42: command by command. -/
theorem aadCommandsKeepTheMessage : Obligations.AadCommandsKeepTheMessage :=
  ⟨fun _ _ hm hiv => hm.exec_setIv hiv, fun _ _ _ hm hfit => hm.exec_addAad hfit, fun _ _ hm => hm.exec_finishAad⟩

/-! ### The step on what is not a command -/

/-- R28, R150: the step with no event pending. -/
theorem step_of_host_nil {s : State} (hs : s.host = []) : step s = .next s := by
  simp [step, State.takeEvent, hs]

/-- R150: the step on a reset event. -/
theorem step_of_reset {s : State} {rest : List HostEvent} (hs : s.host = .reset :: rest) :
    step s = .next { s with host := rest }.hardwareReset := by
  simp [step, takeEvent_of_host_cons hs]

/-- R127: the step on a pair that does not decode. -/
theorem step_of_decode_error {s : State} {h : Header} {p : List Byte} {rest : List HostEvent} {e : Illegal}
    (hs : s.host = .command h p :: rest) (hd : decode h p = .error e) :
    step s = .next ({ s with host := rest }.raiseError .illegalCommand) := by
  simp [step, takeEvent_of_host_cons hs, hd]

/-- Settles O9: hardware reset writes every element, and keeps the ports. -/
theorem resetLeavesNoValueAndTheCoreWaits : Obligations.ResetLeavesNoValueAndTheCoreWaits :=
  ⟨⟨rfl, rfl, rfl, rfl, rfl⟩, fun _ _ hs => step_of_reset hs, fun _ => step_of_host_nil⟩

/-! ### The invariant (R25, R26): what it does not depend on -/

/-- A core without a session stays one when the host's events change. -/
theorem dropSession_setHost {s : State} (hs : s.dropSession = s) (es : List HostEvent) :
    { s with host := es }.dropSession = { s with host := es } :=
  congrArg (fun u : State => { u with host := es }) hs

/-- The invariant says nothing of the host's events. -/
theorem State.Inv.setHost {c : Config} {s : State} (hi : s.Inv c) (es : List HostEvent) :
    { s with host := es }.Inv c := by
  obtain ⟨hphase, herr⟩ := hi
  refine ⟨?_, herr⟩
  unfold State.PhaseInv at hphase ⊢
  cases hp : s.phase <;> simp only [hp] at hphase ⊢
  case idle | finished | failed => simpa only [hp] using dropSession_setHost hphase es
  case created | ivSet | aadDone | dataDone => exact ⟨{ hphase.1 with }, hphase.2⟩

/-! ### What the invariant gives a command to work with -/

/-- R22: outside FAILED no error is recorded. -/
theorem State.Inv.err_ok {c : Config} {s : State} (hi : s.Inv c) (hp : s.phase ≠ .failed) : s.err = .ok := hi.2.2 hp

/-- R25: a phase that admits a command other than INIT has a session. -/
theorem State.Inv.live {c : Config} {s : State} {i : Instr} {p : Phase} (hi : s.Inv c) (hinit : i.isInit = false)
    (ht : transition s.phase i = some p) : s.Live c := by
  obtain ⟨hphase, -⟩ := hi
  unfold State.PhaseInv at hphase
  cases hp : s.phase <;> simp only [hp] at hphase ht
  case created | ivSet | aadDone | dataDone => exact hphase.1
  case idle | finished | failed => cases i <;> simp [transition, Instr.isInit] at ht hinit

/-- R25, R26: what the three phases that allow PROCESS have in common; the bytes that wait are those after the AAD is
closed (R97). -/
structure State.DataReady (c : Config) (s : State) : Prop where
  live : s.Live c
  ivKnown : s.IvKnown
  waiting : ∀ n b, s.dlen = some n → s.buf = some b →
    (if s.phase = .ivSet then [] else b).length = n.toNat % 16 ∧
      (s.ks = none ↔ (if s.phase = .ivSet then [] else b) = [])
  hold_enc : s.dir = some .enc → s.hold = []
  hold_dec : ∀ n, s.dir = some .dec → s.dlen = some n → s.hold.length = n.toNat

/-- R25, R26: before the first data byte nothing waits once the AAD is closed, and nothing is held. -/
theorem dataReady_of_no_data {c : Config} {s : State} (hl : s.Live c) (hiv : s.IvKnown) (hks : s.ks = none)
    (hn : s.dlen = some 0) (hhold : s.hold = []) (hbuf : s.phase = .ivSet ∨ s.buf = some []) : s.DataReady c where
  live := hl
  ivKnown := hiv
  waiting n b hn' hb := by
    have hempty : (if s.phase = .ivSet then [] else b) = [] := by
      rcases hbuf with hp | hb'
      · exact if_pos hp
      · simp [Option.some.inj (hb.symm.trans hb')]
    simp [hempty, hks, ← Option.some.inj (hn.symm.trans hn')]
  hold_enc _ := hhold
  hold_dec n _ hn' := by simp [hhold, ← Option.some.inj (hn.symm.trans hn')]

theorem State.Inv.dataReady {c : Config} {s : State} (hi : s.Inv c)
    (hp : s.phase = .ivSet ∨ s.phase = .aadDone ∨ s.phase = .dataDone) : s.DataReady c := by
  obtain ⟨hphase, -⟩ := hi
  rcases hp with hp | hp | hp <;> simp only [State.PhaseInv, hp] at hphase
  · obtain ⟨hl, hiv, hks, hn, hhold, -⟩ := hphase
    exact dataReady_of_no_data hl hiv hks hn hhold (.inl hp)
  · obtain ⟨hl, hiv, hks, hn, hhold, hbuf⟩ := hphase
    exact dataReady_of_no_data hl hiv hks hn hhold (.inr hbuf)
  · obtain ⟨hl, hiv, hks, hlen, henc, hdec⟩ := hphase
    refine ⟨hl, hiv, fun n b hn hb => ?_, henc, hdec⟩
    rw [if_neg (by simp [hp]), hks, hb, Option.some.injEq]
    exact ⟨hlen n b hn hb, Iff.rfl⟩

/-! ### The invariant command by command -/

/-- A 64-bit byte counter counts on as long as it does not wrap. -/
theorem toNat_add_ofNat_of_lt {n : BitVec 64} {k : Nat} (h : n.toNat + k < 2 ^ 64) :
    (n + BitVec.ofNat 64 k).toNat = n.toNat + k := by
  rw [BitVec.toNat_add, BitVec.toNat_ofNat, Nat.mod_eq_of_lt (by omega : k < 2 ^ 64), Nat.mod_eq_of_lt h]

/-- R94: how many bytes wait after the loop of ADD_AAD. -/
theorem absorb_length {h : Block} {st : Block × List Byte} (x : List Byte) {n : Nat} (hn : st.2.length = n % 16) :
    (absorb h st x).2.length = (n + x.length) % 16 := by
  induction x generalizing st n with
  | nil => simpa [absorb] using hn
  | cons b x ih =>
    have hb : (absorbByte h st b).2.length = (n + 1) % 16 := by
      unfold absorbByte
      simp only [List.length_append, List.length_singleton, hn]
      split_ifs <;> simp <;> omega
    rw [absorb, List.foldl_cons, List.length_cons, ← Nat.add_assoc, Nat.add_right_comm]
    exact ih hb

/-- R22, R133: `raise` leaves a core without a session, in FAILED with an error recorded. -/
theorem State.Inv.raiseError {c : Config} {s : State} (hi : s.Inv c) {st : Status} (hst : st ≠ .ok)
    (cs : List CipherRequest) : ((s.request cs).raiseError st).Inv c := by
  have herr : s.stickyErr st ≠ .ok := by
    unfold State.stickyErr
    split_ifs with hp
    · exact fun he => hi.2.1 he hp
    · exact hst
  exact ⟨rfl, fun he => absurd he herr, fun hp => absurd rfl hp⟩

/-- R90: INIT. -/
theorem inv_exec_init {d : Dir} {n : BitVec 5} {key : List Byte} {s t : State} (hi : s.Inv Config.chip)
    (hx : exec (.init d n key) s = .next t) : t.Inv Config.chip := by
  rcases execInitIn_cases hx with ⟨-, rfl⟩ | ⟨-, -, rfl⟩ | ⟨hkey, htag, rfl⟩
  · exact hi.raiseError (by decide) _
  · exact hi.raiseError (by decide) _
  · have hl : State.Live Config.chip
        (((s.request [.keySetup key, .encrypt 0]).createSession Config.chip d n key).respond .ok [] []) :=
      ⟨⟨_, rfl, hkey, rfl⟩, rfl, ⟨_, rfl, Nat.zero_le _⟩, ⟨_, rfl, Nat.zero_le _⟩, rfl, ⟨_, rfl, htag⟩,
        ⟨_, rfl, Nat.zero_le _⟩, Nat.zero_le _⟩
    exact ⟨⟨hl, rfl, rfl, rfl, rfl, rfl, rfl, rfl, rfl⟩, by simp⟩

/-- The same for a command that fails before any request. -/
theorem State.Inv.raiseError_bare {c : Config} {s : State} (hi : s.Inv c) {st : Status} (hst : st ≠ .ok) :
    (s.raiseError st).Inv c := by
  simpa [State.request] using hi.raiseError hst []

/-- R92: SET_IV. -/
theorem inv_exec_setIv {iv : List Byte} {s t : State} (hi : s.Inv Config.chip)
    (hx : exec (.setIv iv) s = .next t) : t.Inv Config.chip := by
  rcases execSetIvIn_cases hx with ⟨-, rfl⟩ | ⟨-, -, rfl⟩ | ⟨hp, -, key, h, -, -, rfl⟩
  · exact hi.raiseError_bare (by decide)
  · exact hi.raiseError_bare (by decide)
  · have herr := hi.err_ok (by simp [hp])
    obtain ⟨hphase, -⟩ := hi
    simp only [State.PhaseInv, hp] at hphase
    obtain ⟨hl, -, -, hks, -, halen, hdlen, hbuf, hhold⟩ := hphase
    refine ⟨⟨{ hl with acc := rfl }, ⟨rfl, rfl⟩, hks, hdlen, hhold, fun a b ha hb => ?_⟩, by simp [herr]⟩
    simp [← Option.some.inj (halen.symm.trans ha), ← Option.some.inj (hbuf.symm.trans hb)]

/-- R94, R95: ADD_AAD. -/
theorem inv_exec_addAad {aad : List Byte} {s t : State} (hi : s.Inv Config.chip)
    (hx : exec (.addAad aad) s = .next t) : t.Inv Config.chip := by
  rcases execAddAadIn_cases hx with ⟨-, rfl⟩ | ⟨-, _, -, -, rfl⟩ | ⟨hp, a, h, acc, buf, ha, hfit, -, -, hbuf, rfl⟩
  · exact hi.raiseError_bare (by decide)
  · exact hi.raiseError_bare (by decide)
  · have herr := hi.err_ok (by simp [hp])
    obtain ⟨hphase, -⟩ := hi
    simp only [State.PhaseInv, hp] at hphase
    obtain ⟨hl, hiv, hks, hdlen, hhold, hlen⟩ := hphase
    have hsum : (a + BitVec.ofNat 64 aad.length).toNat = a.toNat + aad.length := by
      have hmax : Config.chip.maxAad = 2 ^ 61 - 1 := rfl
      exact toNat_add_ofNat_of_lt (by omega)
    have habs : (absorb h (acc, buf) aad).2.length = (a + BitVec.ofNat 64 aad.length).toNat % 16 := by
      rw [hsum]
      exact absorb_length aad (hlen a buf ha hbuf)
    refine ⟨⟨{ hl with acc := rfl, alen := ⟨_, rfl, hsum ▸ hfit⟩, buf := ⟨_, rfl, by omega⟩ }, hiv, hks, hdlen, hhold, ?_⟩,
      by simp [herr]⟩
    rintro _ _ ⟨⟩ ⟨⟩
    exact habs

/-- R96: FINISH_AAD. -/
theorem inv_exec_finishAad {s t : State} (hi : s.Inv Config.chip) (hx : exec .finishAad s = .next t) :
    t.Inv Config.chip := by
  rcases execFinishAad_cases hx with ⟨-, rfl⟩ | ⟨hp, h, acc, buf, -, -, -, rfl⟩
  · exact hi.raiseError_bare (by decide)
  · have herr := hi.err_ok (by simp [hp])
    obtain ⟨hphase, -⟩ := hi
    simp only [State.PhaseInv, hp] at hphase
    obtain ⟨hl, hiv, hks, hdlen, hhold, -⟩ := hphase
    exact ⟨⟨{ hl with acc := rfl, buf := ⟨_, rfl, Nat.zero_le _⟩ }, hiv, hks, hdlen, hhold, rfl⟩, by simp [herr]⟩

/-- R98, R99: the state PROCESS leaves. -/
theorem State.DataReady.closeStream {s : State} (hs : s.DataReady Config.chip) (herr : s.err = .ok) {data : List Byte}
    {n : BitVec 64} {d : Dir} {key : Key} {h acc ctr : Block} {buf : List Byte} (hn : s.dlen = some n)
    (hfit : n.toNat + data.length ≤ Config.maxData) (hd : s.dir = some d)
    (hhold : holdFits Config.chip d s.hold.length data.length = true) (hbuf : s.buf = some buf) :
    (s.closeStream .dataDone d n data.length
      (xorBytes Config.chip key h d (openStream s.phase h acc ctr s.ks buf) data)).Inv Config.chip := by
  obtain ⟨hl, hiv, hwait, henc, hdec⟩ := hs
  obtain ⟨hlen, hks⟩ := hwait n buf hn hbuf
  obtain ⟨hbuf', hks', -, -⟩ := xorBytes_shape (c := Config.chip) (key := key) (h := h) (dir := d)
    (d := openStream s.phase h acc ctr s.ks buf) data (by simpa using hlen) (by simpa using hks)
  have hout := xorBytes_out_length Config.chip key h d (openStream s.phase h acc ctr s.ks buf) data
  rw [openStream_out, List.length_nil, Nat.zero_add] at hout
  generalize xorBytes Config.chip key h d (openStream s.phase h acc ctr s.ks buf) data = x at hbuf' hks' hout
  have hsum : (n + BitVec.ofNat 64 data.length).toNat = n.toNat + data.length := by
    simp only [Config.maxData] at hfit
    exact toNat_add_ofNat_of_lt (by omega)
  have hheld : (s.hold ++ heldBack d x.out).length ≤ Config.chip.holdCap := by
    cases d
    · simp [henc hd, heldBack]
    · simpa [heldBack, hout, holdFits] using hhold
  refine ⟨⟨{ hl with acc := rfl, dlen := ⟨_, rfl, hsum ▸ hfit⟩, buf := ⟨_, rfl, by omega⟩, hold := hheld }, ⟨rfl, hiv.2⟩, ?_,
    ?_, fun hd' => ?_, ?_⟩, by simp [herr]⟩
  · simpa using hks'
  · rintro _ _ ⟨⟩ ⟨⟩
    rw [hsum, hbuf']
  · cases Option.some.inj (hd.symm.trans hd')
    simp [henc hd, heldBack]
  · rintro _ hd' ⟨⟩
    cases Option.some.inj (hd.symm.trans hd')
    simp [heldBack, hout, hsum, hdec n hd hn]

/-- R98: PROCESS. -/
theorem inv_exec_process {data : List Byte} {s t : State} (hi : s.Inv Config.chip)
    (hx : exec (.process data) s = .next t) : t.Inv Config.chip := by
  rcases execProcessIn_cases hx with ⟨-, rfl⟩ | ⟨-, rfl, -⟩ |
    ⟨ht, n, d, key, h, acc, ctr, buf, hn, hfit, hd, hhold, -, -, -, -, hbuf, -, rfl⟩
  · exact hi.raiseError_bare (by decide)
  · exact hi.raiseError_bare (by decide)
  · obtain ⟨-, hp⟩ := transition_process.1 ht
    exact (hi.dataReady hp).closeStream (hi.err_ok (by rcases hp with hp | hp | hp <;> simp [hp])) hn hfit hd hhold hbuf

/-- R100, R82: FINISH ends the session, one way or the other. -/
theorem inv_exec_finish {e : List Byte} {s t : State} (hi : s.Inv Config.chip) (hx : exec (.finish e) s = .next t) :
    t.Inv Config.chip := by
  rcases execFinish_cases hx with ⟨-, rfl⟩ | ⟨-, d, n, -, -, -, rfl⟩ |
    ⟨hp, d, n, h, acc, buf, a, len, ek0, -, -, -, -, -, -, -, -, -, rfl⟩
  · exact hi.raiseError_bare (by decide)
  · exact hi.raiseError_bare (by decide)
  · have hend (o tag : List Byte) : ((s.endSession .finished).respond .ok o tag).Inv Config.chip :=
      ⟨rfl, by simp [hi.err_ok (by simp [hp])]⟩
    rcases conclude_cases .finished d (sessionTag ek0 (finalAcc h acc buf a len) n) e s with ⟨-, hc⟩ | ⟨-, -, hc⟩ | ⟨-, -, hc⟩
      <;> rw [hc]
    · exact hend _ _
    · exact hend _ _
    · exact hi.raiseError_bare (by decide)

/-- R25, R26: every command keeps the invariant. -/
theorem inv_exec {i : Instr} {s t : State} (hi : s.Inv Config.chip) (hx : exec i s = .next t) : t.Inv Config.chip := by
  cases i with
  | init d n key => exact inv_exec_init hi hx
  | setIv iv => exact inv_exec_setIv hi hx
  | addAad aad => exact inv_exec_addAad hi hx
  | finishAad => exact inv_exec_finishAad hi hx
  | process data => exact inv_exec_process hi hx
  | finish e => exact inv_exec_finish hi hx

/-- Settles O36: waiting changes nothing, reset and an illegal command leave no session, and the six commands keep it. -/
theorem stepKeepsTheInvariant : Obligations.StepKeepsTheInvariant := by
  intro s t hi hx
  rcases step_cases hx with ⟨-, rfl⟩ | ⟨rest, -, rfl⟩ | ⟨_, _, rest, _, -, -, rfl⟩ | ⟨_, _, rest, i, -, -, hx⟩
  · exact hi
  · exact ⟨rfl, by simp⟩
  · exact (hi.setHost rest).raiseError_bare (by decide)
  · exact inv_exec (hi.setHost rest) hx

/-- Settles O35: after reset there is no session. -/
theorem resetMeetsTheInvariant : Obligations.ResetMeetsTheInvariant := ⟨rfl, by simp [State.reset]⟩

/-! ### Under the invariant every step answers -/

/-- R80, R124: a command that the phase does not allow raises SequenceError, before it reads any element. -/
theorem exec_of_not_admitted {i : Instr} {s : State} (ht : transition s.phase i = none) :
    exec i s = .next (s.raiseError .sequenceError) := by
  cases i with
  | init d n key => cases hp : s.phase <;> simp [transition] at ht
  | setIv iv => simp only [exec_setIv, execSetIvIn, ht]
  | addAad aad => simp only [exec_addAad, execAddAadIn, ht]
  | finishAad => simp only [exec_finishAad, execFinishAad, ht]
  | process data => simp only [exec_process, execProcessIn, ht]
  | finish e => simp only [exec_finish, execFinish, ht]

/-- R98: PROCESS answers in a session that is ready for data. -/
theorem State.DataReady.exec_process_answers {s : State} (hs : s.DataReady Config.chip)
    (hp : s.phase = .ivSet ∨ s.phase = .aadDone ∨ s.phase = .dataDone) (data : List Byte) :
    ∃ t, exec (.process data) s = .next t := by
  obtain ⟨⟨⟨key, hk, -, hh⟩, hacc, -, ⟨n, hn, -⟩, hdir, -, ⟨buf, hbuf, -⟩, -⟩, ⟨hctr, -⟩, hwait, -, -⟩ := hs
  obtain ⟨acc, hacc⟩ := Option.isSome_iff_exists.1 hacc
  obtain ⟨d, hd⟩ := Option.isSome_iff_exists.1 hdir
  obtain ⟨ctr, hctr⟩ := Option.isSome_iff_exists.1 hctr
  have ht : transition s.phase (.process data) = some .dataDone := transition_process.2 ⟨rfl, hp⟩
  by_cases hfit : n.toNat + data.length ≤ Config.maxData
  · cases hhold : holdFits Config.chip d s.hold.length data.length
    · exact ⟨s.raiseError .capacityExceeded, by
        simp [exec_process, execProcessIn, ht, hn, hd, hhold]⟩
    · refine ⟨_, execProcessIn_completes hp hn hfit hd hhold hk hh hacc hctr hbuf ?_⟩
      rw [openStream_buf, openStream_ks, ← (hwait n buf hn hbuf).2, ← Option.not_isSome_iff_eq_none]
      exact (em _).symm
  · exact ⟨s.raiseError .capacityExceeded, by simp [exec_process, execProcessIn, ht, hn, dataFits, hfit]⟩

/-- R25: under the invariant every command answers: where the phase admits it, every element it reads holds a value. -/
theorem exec_answers {s : State} (hi : s.Inv Config.chip) (i : Instr) : ∃ t, exec i s = .next t := by
  cases ht : transition s.phase i with
  | none => exact ⟨_, exec_of_not_admitted ht⟩
  | some p =>
    cases i with
    | init d n key => exact ⟨_, rfl⟩
    | setIv iv =>
      obtain ⟨key, hk, -, hh⟩ := (hi.live rfl ht).key
      simp only [exec_setIv, execSetIvIn, ht, hk, hh, readReg_some]
      split_ifs <;> exact ⟨_, rfl⟩
    | addAad aad =>
      obtain ⟨⟨key, -, -, hh⟩, hacc, ⟨a, ha, -⟩, -, -, -, ⟨buf, hbuf, -⟩, -⟩ := hi.live rfl ht
      obtain ⟨acc, hacc⟩ := Option.isSome_iff_exists.1 hacc
      simp only [exec_addAad, execAddAadIn, ht, ha, hh, hacc, hbuf, readReg_some]
      split_ifs <;> exact ⟨_, rfl⟩
    | finishAad =>
      obtain ⟨⟨key, -, -, hh⟩, hacc, -, -, -, -, ⟨buf, hbuf, -⟩, -⟩ := hi.live rfl ht
      obtain ⟨acc, hacc⟩ := Option.isSome_iff_exists.1 hacc
      simp only [exec_finishAad, execFinishAad, ht, hh, hacc, hbuf, readReg_some]
      exact ⟨_, rfl⟩
    | process data =>
      obtain ⟨-, hp⟩ := transition_process.1 ht
      exact (hi.dataReady hp).exec_process_answers hp data
    | finish e =>
      obtain ⟨-, hp⟩ := transition_finish.1 ht
      obtain ⟨⟨⟨key, -, -, hh⟩, hacc, ⟨a, ha, -⟩, ⟨n, hn, -⟩, hdir, ⟨tl, htl, -⟩, ⟨buf, hbuf, -⟩, -⟩, ⟨-, hek0⟩, -, -, -⟩ :=
        hi.dataReady (.inr (.inr hp))
      obtain ⟨acc, hacc⟩ := Option.isSome_iff_exists.1 hacc
      obtain ⟨d, hd⟩ := Option.isSome_iff_exists.1 hdir
      obtain ⟨ek0, hek0⟩ := Option.isSome_iff_exists.1 hek0
      simp only [exec_finish, execFinish, ht, hd, htl, hh, hacc, hbuf, ha, hn, hek0, readReg_some]
      split_ifs <;> exact ⟨_, rfl⟩

/-- Settles O37: waiting, reset and an illegal command answer from every state, a command from every state that meets the
invariant. -/
theorem noStepStopsUnderTheInvariant : Obligations.NoStepStopsUnderTheInvariant := by
  intro s hi
  cases hs : s.host with
  | nil => exact ⟨_, step_of_host_nil hs⟩
  | cons e rest =>
    cases e with
    | reset => exact ⟨_, step_of_reset hs⟩
    | command h p =>
      cases hd : decode h p with
      | error e => exact ⟨_, step_of_decode_error hs hd⟩
      | ok i =>
        obtain ⟨t, ht⟩ := exec_answers (hi.setHost rest) i
        exact ⟨t, (step_of_decode_ok hs hd).trans ht⟩

/-! ### ERR (R22) -/

/-- R130: status code 0 is OK. -/
theorem Status.code_eq_zero_iff {st : Status} : st.code = 0 ↔ st = .ok := by cases st <;> decide

/-- R22: what a command does to ERR: an error leaves ERR as `raise` does, a success leaves it alone but for INIT, which clears
it. -/
theorem exec_err {i : Instr} {s t : State} {r : Response} (hx : exec i s = .next t) (hr : t.rsp = s.rsp ++ [r]) :
    (r.status ≠ .ok ∧ t.err = s.stickyErr r.status) ∨
    (r.status = .ok ∧ t.err = if i.isInit = true then .ok else s.err) := by
  rcases exec_cases hx with ⟨st, cs, hst, rfl, -⟩ | ⟨d, n, key, rfl, -, -, rfl⟩ | ⟨iv, key, h, rfl, -, -, -, -, rfl⟩ |
    ⟨aad, rfl, -, a, h, acc, buf, -, -, -, -, -, rfl⟩ | ⟨rfl, -, h, acc, buf, -, -, -, rfl⟩ |
    ⟨data, rfl, -, n, d, key, h, acc, ctr, buf, -, -, -, -, -, -, -, -, -, -, rfl⟩ | ⟨e, o, tag, rfl, -, rfl, -⟩ <;>
  obtain rfl : _ = r := by simpa using hr
  · exact .inl ⟨hst, rfl⟩
  all_goals exact .inr ⟨rfl, rfl⟩

/-- R22: the same for a step on a pair, legal or not. -/
theorem step_err {s t : State} {h : Header} {p : List Byte} {rest : List HostEvent} {r : Response}
    (hs : s.host = .command h p :: rest) (hx : step s = .next t) (hr : t.rsp = s.rsp ++ [r]) :
    (r.status ≠ .ok ∧ t.err = s.stickyErr r.status) ∨
    (r.status = .ok ∧ ∃ i, decode h p = .ok i ∧ t.err = if i.isInit = true then .ok else s.err) := by
  cases hd : decode h p with
  | error e =>
    cases (step_of_decode_error hs hd).symm.trans hx
    obtain rfl : _ = r := by simpa using hr
    exact .inl ⟨by decide, rfl⟩
  | ok i =>
    rcases exec_err ((step_of_decode_ok hs hd).symm.trans hx) hr with herr | ⟨hok, herr⟩
    · exact .inl herr
    · exact .inr ⟨hok, i, rfl, herr⟩

/-- Settles O14: the four cases are those of `step_err`, an error split by whether an earlier one is recorded. -/
theorem errKeepsTheFirstError : Obligations.ErrKeepsTheFirstError := by
  refine ⟨rfl, fun s t hx => ⟨fun rest hs => ?_, fun h p rest r hs hr => ?_⟩⟩
  · cases (step_of_reset hs).symm.trans hx
    rfl
  · simp only [ne_eq, Status.code_eq_zero_iff]
    rcases step_err hs hx hr with ⟨hne, herr⟩ | ⟨hok, i, hd, herr⟩
    · exact ⟨fun _ hp => herr.trans (if_neg hp), fun _ hp => herr.trans (if_pos hp), fun h => absurd h hne,
        fun h => absurd h hne⟩
    · refine ⟨fun h => absurd hok h, fun h => absurd hok h, ?_, fun _ hni => ?_⟩
      · rintro - ⟨d, n, key, hi⟩
        cases hd.symm.trans hi
        exact herr
      · have hinit : i.isInit = false := by
          cases i with
          | init d n key => exact absurd hd (hni d n key)
          | _ => rfl
        simpa [hinit] using herr

/-! ### What a command leaves unchanged (R10) -/

/-- Settles O38: case by case of what a command can do. -/
theorem sessionConstantsStay : Obligations.SessionConstantsStay := by
  intro i s t hx hinit
  rcases exec_cases hx with ⟨st, cs, -, rfl, -⟩ | ⟨d, n, key, rfl, -, -, rfl⟩ | ⟨iv, key, h, rfl, -, -, -, -, rfl⟩ |
    ⟨aad, rfl, -, a, h, acc, buf, -, -, -, -, -, rfl⟩ | ⟨rfl, -, h, acc, buf, -, -, -, rfl⟩ |
    ⟨data, rfl, -, n, d, key, h, acc, ctr, buf, -, -, -, -, -, -, -, -, -, -, rfl⟩ | ⟨e, o, tag, rfl, -, rfl, -⟩
  · exact ⟨fun hp => absurd rfl hp, fun _ => rfl⟩
  · cases hinit
  · simp [Instr.isSetIv]
  · simp
  · simp
  · simp
  · exact ⟨fun _ hp => absurd rfl hp, fun _ => rfl⟩

/-- Settles O40: each success writes the elements its rule names, and PROCESS adds to HOLD in a DEC session alone. -/
theorem commandsWriteOnlyTheirRegisters : Obligations.CommandsWriteOnlyTheirRegisters := by
  intro i s t hx
  refine ⟨(exec_ports hx).1, fun hp => ?_⟩
  rcases exec_cases hx with ⟨st, cs, -, rfl, -⟩ | ⟨d, n, key, rfl, -, -, rfl⟩ | ⟨iv, key, h, rfl, -, -, -, -, rfl⟩ |
    ⟨aad, rfl, hs, a, h, acc, buf, -, -, -, -, -, rfl⟩ | ⟨rfl, -, h, acc, buf, -, -, -, rfl⟩ |
    ⟨data, rfl, -, n, d, key, h, acc, ctr, buf, -, -, hd, -, -, -, -, -, -, -, rfl⟩ | ⟨e, o, tag, rfl, -, rfl, -⟩
  · exact absurd rfl hp
  · trivial
  · simp
  · simp [hs]
  · simp
  · simp [hd]
    rintro rfl
    simp [heldBack]
  · exact ⟨rfl, rfl, rfl⟩

/-- R71: inc32 leaves the upper 96 bits alone. -/
theorem inc32_ushiftRight (x : Block) : inc32 x >>> 32 = x >>> 32 := by
  have hmask : (0xFFFFFFFF#128 : Block) >>> 32 = 0#128 := by decide
  have hmask' : (~~~(0xFFFFFFFF#128) : Block) >>> 32 = BitVec.allOnes 128 >>> 32 := by decide
  rw [inc32, BitVec.ushiftRight_or_distrib, BitVec.ushiftRight_and_distrib, BitVec.ushiftRight_and_distrib, hmask, hmask',
    ← BitVec.ushiftRight_and_distrib, BitVec.and_allOnes, BitVec.and_zero, BitVec.or_zero]

/-- R72, R73: XOR_BYTE leaves the upper 96 bits of CTR alone. -/
theorem xorByte_ctr_ushiftRight (c : Config) (key : Key) (h : Block) (dir : Dir) (d : Stream) (b : Byte) :
    (xorByte c key h dir d b).ctr >>> 32 = d.ctr >>> 32 := by
  by_cases hb : d.buf = []
  · simp [xorByte, hb, ksNext, xorStore, inc32_ushiftRight]
  · simp only [xorByte, hb, if_false, xorStore]
    split_ifs <;> rfl

/-- R98: the loop of PROCESS leaves the upper 96 bits of CTR alone. -/
theorem xorBytes_ctr_ushiftRight (c : Config) (key : Key) (h : Block) (dir : Dir) (d : Stream) (x : List Byte) :
    (xorBytes c key h dir d x).ctr >>> 32 = d.ctr >>> 32 := by
  induction x generalizing d with
  | nil => rfl
  | cons b x ih => exact (ih _).trans (xorByte_ctr_ushiftRight ..)

/-- Settles O39: of the commands other than INIT and SET_IV only PROCESS writes CTR, by increments. -/
theorem counterPrefixStays : Obligations.CounterPrefixStays := by
  intro i s t x y hx hinit hiv hctr hctr'
  rcases exec_cases hx with ⟨st, cs, -, rfl, -⟩ | ⟨d, n, key, rfl, -, -, rfl⟩ | ⟨iv, key, h, rfl, -, -, -, -, rfl⟩ |
    ⟨aad, rfl, -, a, h, acc, buf, -, -, -, -, -, rfl⟩ | ⟨rfl, -, h, acc, buf, -, -, -, rfl⟩ |
    ⟨data, rfl, -, n, d, key, h, acc, ctr, buf, -, -, -, -, -, -, -, hctr'', -, -, rfl⟩ | ⟨e, o, tag, rfl, -, rfl, -⟩
  · cases hctr'
  · cases hinit
  · cases hiv
  · cases hctr.symm.trans hctr'
    rfl
  · cases hctr.symm.trans hctr'
    rfl
  · cases hctr.symm.trans hctr''
    cases hctr'
    rw [xorBytes_ctr_ushiftRight, openStream_ctr]
  · cases hctr'

/-! ### What a host can tell apart (R27) -/

/-- R27: the equality of the public parts, part by part. -/
structure State.SamePublic (s t : State) : Prop where
  phase : s.phase = t.phase
  err : s.err = t.err
  dir : s.dir = t.dir
  taglen : s.taglen = t.taglen
  alen : s.alen = t.alen
  dlen : s.dlen = t.dlen
  buf : s.buf.map List.length = t.buf.map List.length
  hold : s.hold.length = t.hold.length
  keyctx : s.keyctx.isSome = t.keyctx.isSome
  h : s.h.isSome = t.h.isSome
  acc : s.acc.isSome = t.acc.isSome
  ctr : s.ctr.isSome = t.ctr.isSome
  ek0 : s.ek0.isSome = t.ek0.isSome
  ks : s.ks.isSome = t.ks.isSome

theorem publicPart_eq_iff {s t : State} : s.publicPart = t.publicPart ↔ s.SamePublic t := by
  simp only [State.publicPart, Prod.mk.injEq, List.cons.injEq, and_true]
  constructor
  · rintro ⟨hphase, herr, hdir, htag, halen, hdlen, hbuf, hhold, hkey, hh, hacc, hctr, hek0, hks⟩
    exact ⟨hphase, herr, hdir, htag, halen, hdlen, hbuf, hhold, hkey, hh, hacc, hctr, hek0, hks⟩
  · rintro ⟨hphase, herr, hdir, htag, halen, hdlen, hbuf, hhold, hkey, hh, hacc, hctr, hek0, hks⟩
    exact ⟨hphase, herr, hdir, htag, halen, hdlen, hbuf, hhold, hkey, hh, hacc, hctr, hek0, hks⟩

/-- R27: a host that sees the outcome `o` from `s` and the outcome `o'` from `t` cannot tell the two apart: where `o` answers,
`o'` answers with the same response, and leaves the same public part. -/
def SameAnswer (s t : State) (o o' : Host.Outcome State Fault Refusal) : Prop :=
  ∀ s', o = .next s' → ∃ t' r, o' = .next t' ∧ s'.publicPart = t'.publicPart ∧ s'.rsp = s.rsp ++ [r] ∧
    t'.rsp = t.rsp ++ [r]

theorem sameAnswer_next {s t s' t' : State} {r : Response} (hp : s'.SamePublic t') (hs : s'.rsp = s.rsp ++ [r])
    (ht : t'.rsp = t.rsp ++ [r]) : SameAnswer s t (.next s') (.next t') := by
  rintro _ ⟨⟩
  exact ⟨t', r, rfl, publicPart_eq_iff.2 hp, hs, ht⟩

/-- R133: `raise` leaves a public part and answers with a response in which no secret shows. -/
theorem sameAnswer_raiseError {s t : State} (hst : s.SamePublic t) (st : Status) :
    SameAnswer s t (.next (s.raiseError st)) (.next (t.raiseError st)) := by
  have herr : s.stickyErr st = t.stickyErr st := by rw [State.stickyErr, State.stickyErr, hst.phase, hst.err]
  exact sameAnswer_next ⟨rfl, herr, rfl, rfl, rfl, rfl, rfl, rfl, rfl, rfl, rfl, rfl, rfl, rfl⟩ rfl rfl

/-- That two elements both hold a value does not depend on the values. (Stated of any two values, so that no proof compares
two results of the cipher or of the multiplier.) -/
theorem isSome_some_congr {α : Type} (a b : α) : (some a).isSome = (some b).isSome := rfl

/-- The number of bytes that wait, of two elements that both hold a value. -/
theorem map_length_some_congr {b b' : List Byte} (hb : b.length = b'.length) :
    (some b).map List.length = (some b').map List.length := congrArg some hb

/-- The read of an element of which only its being there is public. -/
theorem sameAnswer_readReg {α : Type} {s t : State} {r : Reg} {v v' : Option α}
    {k k' : α → Host.Outcome State Fault Refusal} (hv : v.isSome = v'.isSome)
    (hk : ∀ a b, v = some a → v' = some b → SameAnswer s t (k a) (k' b)) :
    SameAnswer s t (readReg r v k) (readReg r v' k') := by
  cases v with
  | none => exact fun _ hx => nomatch hx
  | some a =>
    obtain ⟨b, rfl⟩ := Option.isSome_iff_exists.1 hv.symm
    exact hk a b rfl rfl

/-- The read of an element that is itself public. -/
theorem sameAnswer_readReg_public {α : Type} {s t : State} {r : Reg} {v : Option α}
    {k k' : α → Host.Outcome State Fault Refusal} (hk : ∀ a, v = some a → SameAnswer s t (k a) (k' a)) :
    SameAnswer s t (readReg r v k) (readReg r v k') :=
  sameAnswer_readReg rfl fun a b ha hb => by
    cases ha.symm.trans hb
    exact hk a ha

/-- A check of public values. -/
theorem sameAnswer_ite {s t : State} {p : Prop} [Decidable p] {a b a' b' : Host.Outcome State Fault Refusal}
    (ha : SameAnswer s t a a') (hb : SameAnswer s t b b') : SameAnswer s t (if p then a else b) (if p then a' else b') := by
  split_ifs
  · exact ha
  · exact hb

/-! ### The shape of the byte streams -/

/-- R94: how many bytes wait after ADD_AAD depends on the lengths alone. -/
theorem absorb_length_congr {h h' : Block} {st st' : Block × List Byte} {x x' : List Byte}
    (hst : st.2.length = st'.2.length) (hx : x.length = x'.length) :
    (absorb h st x).2.length = (absorb h' st' x').2.length := by
  induction x generalizing st st' x' with
  | nil =>
    obtain rfl : x' = [] := List.length_eq_zero_iff.1 hx.symm
    exact hst
  | cons b x ih =>
    obtain ⟨b', x', rfl⟩ := List.exists_cons_of_length_eq_add_one hx.symm
    have hb : (absorbByte h st b).2.length = (absorbByte h' st' b').2.length := by
      simp only [absorbByte, List.length_append, List.length_singleton, hst]
      split_ifs <;> simp [hst]
    exact (ih hb (by simpa using hx) :)

/-- What a host can know of a PROCESS stream: how many bytes wait, whether a keystream block is open, how many bytes came
out. -/
structure Stream.SameShape (d d' : Stream) : Prop where
  buf : d.buf.length = d'.buf.length
  ks : d.ks.isSome = d'.ks.isSome
  out : d.out.length = d'.out.length

theorem Stream.SameShape.buf_eq_nil_iff {d d' : Stream} (hd : d.SameShape d') : d.buf = [] ↔ d'.buf = [] := by
  rw [← List.length_eq_zero_iff, hd.buf, List.length_eq_zero_iff]

/-- R73: the second half of XOR_BYTE takes its branch by the number of bytes that wait. -/
theorem xorStore_sameShape {h h' : Block} {dir : Dir} {d d' : Stream} {ks ks' : Block} {b b' : Byte}
    (hd : d.SameShape d') : (xorStore h dir d ks b).SameShape (xorStore h' dir d' ks' b') := by
  simp only [xorStore, List.length_append, List.length_singleton, hd.buf]
  split_ifs
  · exact ⟨rfl, rfl, by simp [hd.out]⟩
  · exact ⟨by simp [hd.buf], rfl, by simp [hd.out]⟩

/-- R73: the shape after XOR_BYTE depends on the shape before alone. -/
theorem xorByte_sameShape {c : Config} {key key' : Key} {h h' : Block} {dir : Dir} {d d' : Stream} {b b' : Byte}
    (hd : d.SameShape d') : (xorByte c key h dir d b).SameShape (xorByte c key' h' dir d' b') := by
  simp only [xorByte, hd.buf_eq_nil_iff]
  split_ifs
  · exact xorStore_sameShape ⟨hd.buf, rfl, hd.out⟩
  · exact xorStore_sameShape hd

/-- R98: and so does the shape after the loop. -/
theorem xorBytes_sameShape {c : Config} {key key' : Key} {h h' : Block} {dir : Dir} {d d' : Stream} {x x' : List Byte}
    (hd : d.SameShape d') (hx : x.length = x'.length) :
    (xorBytes c key h dir d x).SameShape (xorBytes c key' h' dir d' x') := by
  induction x generalizing d d' x' with
  | nil =>
    obtain rfl : x' = [] := List.length_eq_zero_iff.1 hx.symm
    exact hd
  | cons b x ih =>
    obtain ⟨b', x', rfl⟩ := List.exists_cons_of_length_eq_add_one hx.symm
    exact (ih (xorByte_sameShape hd (b := b) (b' := b')) (by simpa using hx) :)

/-- R97, R98: PROCESS starts from streams of one shape. -/
theorem openStream_sameShape {p : Phase} {h h' acc acc' ctr ctr' : Block} {ks ks' : Option Block} {buf buf' : List Byte}
    (hbuf : buf.length = buf'.length) (hks : ks.isSome = ks'.isSome) :
    (openStream p h acc ctr ks buf).SameShape (openStream p h' acc' ctr' ks' buf') := by
  refine ⟨?_, by simpa using hks, by simp⟩
  simp only [openStream_buf]
  split_ifs
  · rfl
  · exact hbuf

/-- R15: the read of KS by streams of one shape. -/
theorem sameAnswer_readKs {s t : State} {d d' : Stream} {k k' : Host.Outcome State Fault Refusal} (hd : d.SameShape d')
    (hk : SameAnswer s t k k') : SameAnswer s t (readKs d k) (readKs d' k') := by
  simp only [readKs, hd.buf_eq_nil_iff]
  exact sameAnswer_ite hk (sameAnswer_readReg hd.ks fun _ _ _ _ => hk)

/-! ### The commands of a DEC session reveal nothing -/

/-- R80: the phase table reads no payload. -/
theorem transition_congr {i j : Instr} (hij : sameShape i j = true) (p : Phase) : transition p i = transition p j := by
  cases i <;> cases j <;> simp [sameShape] at hij <;> cases p <;> rfl

section
variable {s t : State} (hst : s.SamePublic t) {x y : List Byte} (hlen : x.length = y.length)
include hst

/-- BUF of two states with one public part. -/
theorem State.SamePublic.buf_isSome : s.buf.isSome = t.buf.isSome := by
  simpa using congrArg Option.isSome hst.buf

theorem State.SamePublic.buf_length {b b' : List Byte} (hb : s.buf = some b) (hb' : t.buf = some b') :
    b.length = b'.length := by
  simpa [hb, hb'] using hst.buf

include hlen

/-- R90: INIT. -/
theorem sameAnswer_init (c : Config) (d : Dir) (n : BitVec 5) :
    SameAnswer s t (execInitIn c d n x s) (execInitIn c d n y t) := by
  have hraise (st : Status) : SameAnswer s t (.next ((s.request [.keySetup x]).raiseError st))
      (.next ((t.request [.keySetup y]).raiseError st)) :=
    sameAnswer_raiseError (s := s.request _) (t := t.request _) { hst with } st
  simp only [execInitIn, hlen]
  split_ifs
  · exact hraise _
  · exact hraise _
  · exact sameAnswer_next ⟨rfl, rfl, rfl, rfl, rfl, rfl, rfl, rfl, rfl, rfl, rfl, rfl, rfl, rfl⟩ rfl rfl

/-- R92: SET_IV. -/
theorem sameAnswer_setIv (c : Config) : SameAnswer s t (execSetIvIn c x s) (execSetIvIn c y t) := by
  rw [execSetIvIn, execSetIvIn, ← hst.phase, ← transition_congr (i := .setIv x) (j := .setIv y) (beq_iff_eq.2 hlen), ← hlen]
  cases transition s.phase (.setIv x) with
  | none => exact sameAnswer_raiseError hst _
  | some p =>
    refine sameAnswer_ite (sameAnswer_raiseError hst _) (sameAnswer_readReg hst.keyctx fun key key' _ _ =>
      sameAnswer_readReg hst.h fun h h' _ _ => sameAnswer_next (r := ⟨.ok, p, [], []⟩) ?_ rfl rfl)
    -- named values here and in the response, so that the two states themselves are not compared
    exact { hst with
      phase := Eq.refl p, acc := isSome_some_congr _ _, ctr := isSome_some_congr _ _, ek0 := isSome_some_congr _ _ }

/-- R94: ADD_AAD. -/
theorem sameAnswer_addAad (c : Config) : SameAnswer s t (execAddAadIn c x s) (execAddAadIn c y t) := by
  rw [execAddAadIn, execAddAadIn, ← hst.phase, ← transition_congr (i := .addAad x) (j := .addAad y) (beq_iff_eq.2 hlen),
    ← hlen, ← hst.alen]
  cases transition s.phase (.addAad x) with
  | none => exact sameAnswer_raiseError hst _
  | some p =>
    refine sameAnswer_readReg_public fun a _ => sameAnswer_ite (sameAnswer_raiseError hst _)
      (sameAnswer_readReg hst.h fun h h' _ _ => sameAnswer_readReg hst.acc fun acc acc' _ _ =>
        sameAnswer_readReg hst.buf_isSome fun b b' hb hb' => sameAnswer_next (r := ⟨.ok, p, [], []⟩) ?_ rfl rfl)
    exact { hst with
      phase := rfl, acc := isSome_some_congr _ _, alen := rfl
      buf := map_length_some_congr (absorb_length_congr (hst.buf_length hb hb') hlen) }

omit hlen in
/-- R96: FINISH_AAD. -/
theorem sameAnswer_finishAad : SameAnswer s t (execFinishAad s) (execFinishAad t) := by
  rw [execFinishAad, execFinishAad, ← hst.phase]
  cases transition s.phase .finishAad with
  | none => exact sameAnswer_raiseError hst _
  | some p =>
    refine sameAnswer_readReg hst.h fun h h' _ _ => sameAnswer_readReg hst.acc fun acc acc' _ _ =>
      sameAnswer_readReg hst.buf_isSome fun b b' _ _ => sameAnswer_next (r := ⟨.ok, p, [], []⟩) ?_ rfl rfl
    exact { hst with phase := rfl, acc := isSome_some_congr _ _, buf := rfl }

omit hlen in
/-- R99: in a DEC session the bytes PROCESS puts out are held, and the response carries none of them. -/
theorem sameAnswer_closeStream {d d' : Stream} (hd : d.SameShape d') (p : Phase) (n : BitVec 64) (len : Nat) :
    SameAnswer s t (.next (s.closeStream p .dec n len d)) (.next (t.closeStream p .dec n len d')) := by
  refine sameAnswer_next ?_ rfl rfl
  exact { hst with
    phase := rfl, acc := isSome_some_congr _ _, ctr := isSome_some_congr _ _, dlen := rfl, ks := hd.ks
    buf := map_length_some_congr hd.buf
    hold := by simp [heldBack, hst.hold, hd.out] }

/-- R98: PROCESS. -/
theorem sameAnswer_process (c : Config) (hdec : s.dir = some .dec) :
    SameAnswer s t (execProcessIn c x s) (execProcessIn c y t) := by
  rw [execProcessIn, execProcessIn, ← hst.phase, ← transition_congr (i := .process x) (j := .process y) (beq_iff_eq.2 hlen),
    ← hlen, ← hst.dlen, ← hst.dir, ← hst.hold]
  cases transition s.phase (.process x) with
  | none => exact sameAnswer_raiseError hst _
  | some p =>
    refine sameAnswer_readReg_public fun n _ => sameAnswer_ite (sameAnswer_raiseError hst _) <|
      sameAnswer_readReg_public fun d hd => sameAnswer_ite (sameAnswer_raiseError hst _) <|
      sameAnswer_readReg hst.keyctx fun key key' _ _ => sameAnswer_readReg hst.h fun h h' _ _ =>
      sameAnswer_readReg hst.acc fun acc acc' _ _ => sameAnswer_readReg hst.ctr fun ctr ctr' _ _ =>
      sameAnswer_readReg hst.buf_isSome fun b b' hb hb' => ?_
    obtain rfl : d = .dec := Option.some.inj (hd.symm.trans hdec)
    have hopen := openStream_sameShape (p := s.phase) (h := h) (h' := h') (acc := acc) (acc' := acc') (ctr := ctr)
      (ctr' := ctr') (hst.buf_length hb hb') hst.ks
    exact sameAnswer_readKs hopen (sameAnswer_closeStream hst (xorBytes_sameShape hopen hlen) p n _)

end

/-- Settles O49: command by command; a FINISH is left out by hypothesis, and so is a pair of different commands. -/
theorem decSessionRevealsNothingBeforeFinish : Obligations.DecSessionRevealsNothingBeforeFinish := by
  intro i j s t s' hpub hdec hij hfin hx
  have hst := publicPart_eq_iff.1 hpub
  have hview : SameAnswer s t (exec i s) (exec j t) := by
    cases i <;> cases j <;> simp [sameShape] at hij
    case init.init =>
      obtain ⟨⟨rfl, rfl⟩, hlen⟩ := hij
      exact sameAnswer_init hst hlen _ _ _
    case setIv.setIv => exact sameAnswer_setIv hst hij _
    case addAad.addAad => exact sameAnswer_addAad hst hij _
    case finishAad.finishAad => exact sameAnswer_finishAad hst
    case process.process => exact sameAnswer_process hst hij _ hdec
    case finish.finish => cases hfin
  exact hview s' hx

end Sys2Proof.Machine

/-! ## Proofs of the memory family (20_memory.md): the cipher requests of a command (R35) -/

namespace Sys2Proof.Machine

/-- R47: the status a response carries is the last one. -/
@[simp] theorem State.lastStatus_respond (s : State) (st : Status) (o tag : List Byte) :
    (s.respond st o tag).lastStatus = st := by simp [State.lastStatus]

/-- R133: the status of an error is the last one. -/
@[simp] theorem State.lastStatus_raiseError (s : State) (st : Status) : (s.raiseError st).lastStatus = st := by
  simp [State.lastStatus]

/-- R98: PROCESS ends with OK. -/
@[simp] theorem State.lastStatus_closeStream (s : State) (p : Phase) (d : Dir) (n : BitVec 64) (len : Nat) (x : Stream) :
    (s.closeStream p d n len x).lastStatus = .ok := by simp [State.lastStatus]

/-- R97: closing the AAD makes no cipher request. -/
@[simp] theorem openStream_requests (p : Phase) (h acc ctr : Block) (ks : Option Block) (buf : List Byte) :
    (openStream p h acc ctr ks buf).requests = [] := by
  unfold openStream; split_ifs <;> rfl

/-- R72, R73: at a block boundary KS is not read, so the requests do not depend on it. -/
theorem xorBytes_requests_setKs (c : Config) (key : Key) (h : Block) (dir : Dir) {d : Stream} (x : List Byte)
    (hd : d.buf = []) (ks : Option Block) :
    (xorBytes c key h dir { d with ks := ks } x).requests = (xorBytes c key h dir d x).requests := by
  cases x with
  | nil => rfl
  | cons b x => simp [xorBytes, xorByte, hd, ksNext]

/-- R72, R78: the requests of the loop of PROCESS, KS holding a value wherever it is read: one for each block begun. -/
theorem xorBytes_requests {c : Config} {key : Key} {h : Block} {dir : Dir} {d : Stream} (x : List Byte) {n : Nat}
    (hb : d.buf.length = n % 16) (hks : d.buf = [] ∨ d.ks.isSome = true) :
    (xorBytes c key h dir d x).requests = d.requests ++
      (List.range (blocksBegun (n + x.length) - blocksBegun n)).map fun j => .encrypt (inc32Iter d.ctr j) := by
  by_cases hd : d.buf = []
  · rw [← xorBytes_requests_setKs c key h dir x hd none]
    obtain ⟨-, -, -, hr⟩ := xorBytes_shape (c := c) (key := key) (h := h) (dir := dir) (d := { d with ks := none }) x hb
      (by simp [hd])
    exact hr
  · have hsome : d.ks ≠ none := Option.isSome_iff_ne_none.1 (hks.resolve_left hd)
    obtain ⟨-, -, -, hr⟩ := xorBytes_shape (c := c) (key := key) (h := h) (dir := dir) x hb (by simp [hd, hsome])
    exact hr

/-- R26: the bytes waiting where PROCESS starts tell how far the data is into its block. -/
theorem openStream_buf_length {p : Phase} {n : Nat} {h acc ctr : Block} {ks : Option Block} {buf : List Byte}
    (hp : p = .ivSet ∨ p = .aadDone ∨ p = .dataDone) (hdata : p = .dataDone → buf.length = n % 16)
    (hfirst : p ≠ .dataDone → n = 0) (haad : p = .aadDone → buf = []) :
    (openStream p h acc ctr ks buf).buf.length = n % 16 := by
  rcases hp with rfl | rfl | rfl
  · simp [hfirst]
  · simp [hfirst, haad]
  · simp [hdata]

/-- R98, R78: a PROCESS that succeeds requests E(CTR), E(inc32 CTR), ... for the blocks its bytes begin. -/
theorem exec_process_ciph {data : List Byte} {s t : State} {n : BitVec 64} {ctr : Block} {buf : List Byte}
    (hx : exec (.process data) s = .next t) (hok : t.lastStatus = .ok) (hn : s.dlen = some n) (hctr : s.ctr = some ctr)
    (hbuf : s.buf = some buf) (hdata : s.phase = .dataDone → buf.length = n.toNat % 16)
    (hfirst : s.phase ≠ .dataDone → s.dlen = some 0) (haad : s.phase = .aadDone → buf = []) :
    t.ciph = s.ciph ++ (List.range (blocksBegun (n.toNat + data.length) - blocksBegun n.toNat)).map
      fun j => .encrypt (inc32Iter ctr j) := by
  rcases execProcessIn_cases hx with ⟨-, rfl⟩ | ⟨-, rfl, -⟩ |
    ⟨hp, n', d, key, h, acc, ctr', buf', hn', -, -, -, -, -, -, hctr', hbuf', hks, rfl⟩
  · simp at hok
  · simp at hok
  · cases hn.symm.trans hn'
    cases hctr.symm.trans hctr'
    cases hbuf.symm.trans hbuf'
    have hzero : s.phase ≠ .dataDone → n.toNat = 0 := fun hne => by
      simp [Option.some.inj (hn.symm.trans (hfirst hne))]
    have hb := openStream_buf_length (h := h) (acc := acc) (ctr := ctr) (ks := s.ks) (transition_process.1 hp).2 hdata
      hzero haad
    simp [xorBytes_requests data hb hks]

/-- R92, R35: a SET_IV that succeeds requests E(J0). -/
theorem exec_setIv_ciph {iv : List Byte} {s t : State} {h : Block} (hx : exec (.setIv iv) s = .next t)
    (hok : t.lastStatus = .ok) (hh : s.h = some h) : t.ciph = s.ciph ++ [.encrypt (deriveJ0 h iv)] := by
  rcases execSetIvIn_cases hx with ⟨-, rfl⟩ | ⟨-, -, rfl⟩ | ⟨-, -, key, h', -, hh', rfl⟩
  · simp at hok
  · simp at hok
  · cases hh.symm.trans hh'
    simp

/-- R90, R35: INIT requests the key set-up whatever its outcome, and E(0) where it succeeds. -/
theorem exec_init_ciph {d : Dir} {n : BitVec 5} {key : List Byte} {s t : State} (hx : exec (.init d n key) s = .next t) :
    t.ciph = s.ciph ++ if t.lastStatus = .ok then [.keySetup key, .encrypt 0] else [.keySetup key] := by
  rcases execInitIn_cases hx with ⟨-, rfl⟩ | ⟨-, -, rfl⟩ | ⟨-, -, rfl⟩ <;> simp

/-- R35: a command but INIT requests nothing if it fails, and of those that succeed only SET_IV and PROCESS do. -/
theorem exec_ciph_unchanged {i : Instr} {s t : State} (hx : exec i s = .next t) (hinit : ∀ d n key, i ≠ .init d n key)
    (h : t.lastStatus = .ok → (∀ iv, i ≠ .setIv iv) ∧ ∀ data, i ≠ .process data) : t.ciph = s.ciph := by
  rcases exec_cases hx with ⟨st, cs, -, rfl, hcs⟩ | ⟨d, n, key, rfl, -⟩ | ⟨iv, key, h', rfl, -, -, -, -, rfl⟩ |
    ⟨aad, -, -, a, h', acc, buf, -, -, -, -, -, rfl⟩ | ⟨-, -, h', acc, buf, -, -, -, rfl⟩ |
    ⟨data, rfl, -, n, d, key, h', acc, ctr, buf, -, -, -, -, -, -, -, -, -, -, rfl⟩ | ⟨e, o, tag, -, -, rfl, -⟩
  · simp [hcs hinit]
  · exact absurd rfl (hinit d n key)
  · exact absurd rfl ((h (by simp)).1 iv)
  · simp
  · simp
  · exact absurd rfl ((h (by simp)).2 data)
  · simp

/-- Settles O32: command by command; a failing command and the three that never use the cipher have one argument. -/
theorem cipherRequestsAreOnDemand : Obligations.CipherRequestsAreOnDemand := by
  refine ⟨fun _ _ _ _ _ _ => exec_process_ciph, fun _ _ _ _ => exec_setIv_ciph, fun _ _ _ _ _ => exec_init_ciph,
    fun i s t hx hi => ?_, fun i s t hx hfail hinit => exec_ciph_unchanged hx hinit fun hok => absurd hok hfail⟩
  refine exec_ciph_unchanged hx (fun d n key h => ?_) fun _ => ⟨fun iv h => ?_, fun data h => ?_⟩ <;> simp [h] at hi

end Sys2Proof.Machine

/-! ## Proofs of the encoding family (30_encoding.md): the header's fields (R41, R42), the legal pairs (R43, R44), the responses
(R47) and the assembler (R48, R49) -/

namespace Sys2Proof

/-! ### A header and its fields (R41, R42) -/

/-- R41: a header as a number, in its four fields. -/
theorem header_toNat (h : Header) :
    h.toNat = (opField h).toNat * 2 ^ 56 + (argField h).toNat * 2 ^ 48 + (rsv0Field h).toNat * 2 ^ 32 +
      (lenField h).toNat := by
  rw [opField_toNat, argField_toNat, rsv0Field_toNat, lenField_toNat]
  omega

/-- R41: ARG as a number, in its three fields. -/
theorem argField_toNat_fields (h : Header) :
    (argField h).toNat = (if dirField h then 1 else 0) * 2 ^ 7 + (rsv1Field h).toNat * 2 ^ 5 + (taglenField h).toNat := by
  rw [argField_toNat, rsv1Field_toNat, taglenField_toNat, dirField_eq]
  simp only [decide_eq_true_eq]
  split_ifs <;> omega

/-- R41: the four fields are the whole header. -/
theorem header_ext_iff {h h' : Header} : h = h' ↔ opField h = opField h' ∧ argField h = argField h' ∧
    rsv0Field h = rsv0Field h' ∧ lenField h = lenField h' := by
  refine ⟨by rintro rfl; exact ⟨rfl, rfl, rfl, rfl⟩, fun ⟨hop, harg, hrsv, hlen⟩ => BitVec.eq_of_toNat_eq ?_⟩
  rw [header_toNat h, header_toNat h', hop, harg, hrsv, hlen]

/-- R41: RSV1 is part of ARG. -/
theorem rsv1Field_eq_zero_of_argField {h : Header} (harg : argField h = 0) : rsv1Field h = 0 := by
  have hnat := argField_toNat_fields h
  rw [harg] at hnat
  refine BitVec.eq_of_toNat_eq ?_
  simp only [BitVec.ofNat_eq_ofNat, BitVec.toNat_ofNat, Nat.zero_mod] at hnat ⊢
  omega

/-- Settles O4: the sum of a header's four fields, ARG written out in its three. -/
theorem headerIsTheSumOfItsFields : Obligations.HeaderIsTheSumOfItsFields := by
  intro h hrsv0 hrsv1
  rw [header_toNat, argField_toNat_fields, hrsv0, hrsv1]
  simp only [BitVec.ofNat_eq_ofNat, BitVec.toNat_ofNat, Nat.zero_mod]
  ring

/-! ### The fields of an encoded command (R41, R44) -/

@[simp] theorem opField_encode (i : Instr) : opField (encode i) = i.op := by
  have := i.arg.isLt
  refine BitVec.eq_of_toNat_eq ?_
  rw [opField_toNat, encode_toNat]
  omega

@[simp] theorem argField_encode (i : Instr) : argField (encode i) = i.arg := by
  have := i.arg.isLt
  refine BitVec.eq_of_toNat_eq ?_
  rw [argField_toNat, encode_toNat]
  omega

@[simp] theorem rsv0Field_encode (i : Instr) : rsv0Field (encode i) = 0 := by
  refine BitVec.eq_of_toNat_eq ?_
  rw [rsv0Field_toNat, encode_toNat, show (0 : BitVec 16).toNat = 0 from rfl]
  omega

@[simp] theorem lenField_encode (i : Instr) : lenField (encode i) = BitVec.ofNat 32 i.payload.length := by
  refine BitVec.eq_of_toNat_eq ?_
  rw [lenField_toNat, encode_toNat, BitVec.toNat_ofNat]
  omega
@[simp] theorem Dir.ofBit_toBit (d : Dir) : Dir.ofBit d.toBit = d := by cases d <;> rfl

@[simp] theorem Dir.toBit_ofBit (b : Bool) : (Dir.ofBit b).toBit = b := by cases b <;> rfl

/-- R41: the ARG byte of an INIT, in its three fields. -/
theorem argField_eq_arg_init_iff {h : Header} {d : Dir} {t : BitVec 5} {key : List Byte} :
    argField h = (Instr.init d t key).arg ↔ dirField h = d.toBit ∧ rsv1Field h = 0 ∧ taglenField h = t := by
  have := (taglenField h).isLt
  have := t.isLt
  rw [← BitVec.toNat_inj, argField_toNat_fields, arg_toNat_init, ← BitVec.toNat_inj, ← BitVec.toNat_inj (y := t)]
  cases d <;> cases dirField h <;> simp [Dir.toBit] <;> omega

/-- R41: the fields of an encoded INIT. -/
theorem fields_encode_init (d : Dir) (t : BitVec 5) (key : List Byte) :
    dirField (encode (.init d t key)) = d.toBit ∧ rsv1Field (encode (.init d t key)) = 0 ∧
      taglenField (encode (.init d t key)) = t :=
  argField_eq_arg_init_iff.1 (argField_encode _)

/-- R41: RSV1 is 0 in the header of a command: INIT writes it as 0, and elsewhere ARG is 0. -/
theorem rsv1Field_encode (i : Instr) : rsv1Field (encode i) = 0 := by
  cases i with
  | init d t key => exact (fields_encode_init d t key).2.1
  | _ => exact rsv1Field_eq_zero_of_argField (argField_encode _)

/-- R44: every command has one of the six OPs. -/
theorem Instr.op_bounds (i : Instr) : 1 ≤ i.op.toNat ∧ i.op.toNat ≤ 6 := by cases i <;> simp [Instr.op]

/-- R41: outside INIT the ARG byte is 0. -/
theorem Instr.arg_eq_zero {i : Instr} (hop : i.op ≠ 0x01) : i.arg = 0 := by
  cases i with
  | init d t key => exact absurd rfl hop
  | _ => rfl

/-- R44: FINISH_AAD is the command with OP 0x04. -/
theorem Instr.eq_finishAad_of_op {i : Instr} (hop : i.op = 0x04) : i = .finishAad := by
  cases i with
  | finishAad => rfl
  | _ => exact absurd hop (by simp [Instr.op])

/-! ### The legal headers (R43) -/

/-- R43: conditions 1 to 4, those on the header alone. -/
structure LegalHeader (h : Header) : Prop where
  op : 1 ≤ (opField h).toNat ∧ (opField h).toNat ≤ 6
  reserved : rsv0Field h = 0 ∧ rsv1Field h = 0
  arg : opField h ≠ 0x01 → argField h = 0
  finishAad : opField h = 0x04 → lenField h = 0

theorem legalHeader_iff {h : Header} : LegalHeader h ↔
    (1 ≤ (opField h).toNat ∧ (opField h).toNat ≤ 6) ∧ (rsv0Field h = 0 ∧ rsv1Field h = 0) ∧
      (opField h ≠ 0x01 → argField h = 0) ∧ (opField h = 0x04 → lenField h = 0) :=
  ⟨fun ⟨hop, hrsv, harg, hlen⟩ => ⟨hop, hrsv, harg, hlen⟩, fun ⟨hop, hrsv, harg, hlen⟩ => ⟨hop, hrsv, harg, hlen⟩⟩

/-- R43: `decode` tests that condition 1 fails by two comparisons. -/
theorem op_reserved_iff {op : BitVec 8} : (op = 0 ∨ 6 < op.toNat) ↔ ¬ (1 ≤ op.toNat ∧ op.toNat ≤ 6) := by
  rw [← BitVec.toNat_inj]
  simp only [BitVec.ofNat_eq_ofNat, BitVec.toNat_ofNat, Nat.zero_mod]
  omega

/-- R43: what decoding answers a command on, and which. -/
theorem decode_eq_ok_iff {h : Header} {p : List Byte} {i : Instr} :
    decode h p = .ok i ↔ LegalHeader h ∧ p.length = (lenField h).toNat ∧ instrOf h p = i := by
  rw [decode]
  split_ifs with hop hrsv harg hfin hlen
  · exact iff_of_false nofun fun hl => op_reserved_iff.1 hop hl.1.op
  · exact iff_of_false nofun fun hl => hrsv.elim (· hl.1.reserved.1) (· hl.1.reserved.2)
  · exact iff_of_false nofun fun hl => harg.2 (hl.1.arg harg.1)
  · exact iff_of_false nofun fun hl => hfin.2 (hl.1.finishAad hfin.1)
  · exact iff_of_false nofun fun hl => hlen hl.2.1
  · have hl : LegalHeader h :=
      ⟨not_not.1 (mt op_reserved_iff.2 hop), by tauto, by tauto, by tauto⟩
    simp [hl, not_not.1 hlen]

/-- R43: decoding fails on every other pair. -/
theorem decode_eq_error {h : Header} {p : List Byte} (hno : ¬ (LegalHeader h ∧ p.length = (lenField h).toNat)) :
    ∃ e, decode h p = .error e := by
  cases hd : decode h p with
  | error e => exact ⟨e, rfl⟩
  | ok i =>
    obtain ⟨hlegal, hlen, -⟩ := decode_eq_ok_iff.1 hd
    exact absurd ⟨hlegal, hlen⟩ hno

/-! ### Decoding after encoding -/

/-- R43: the header of a command is legal. -/
theorem legalHeader_encode (i : Instr) : LegalHeader (encode i) where
  op := by simpa using i.op_bounds
  reserved := ⟨rsv0Field_encode i, rsv1Field_encode i⟩
  arg := by simpa using Instr.arg_eq_zero
  finishAad hop := by
    cases Instr.eq_finishAad_of_op (by simpa using hop)
    rfl

/-- R42: the operands come back, those of INIT from ARG, the others from the payload. -/
theorem instrOf_encode (i : Instr) : instrOf (encode i) i.payload = i := by
  cases i with
  | init d t key =>
    obtain ⟨hdir, -, htag⟩ := fields_encode_init d t key
    simp [instrOf, Instr.op, Instr.payload, hdir, htag]
  | _ => simp [instrOf, Instr.op, Instr.payload]

/-- Settles O1: the header is legal, LEN is the payload's length, and the fields hold the operands. -/
theorem decodeOfEncodeGivesTheCommand : Obligations.DecodeOfEncodeGivesTheCommand := by
  intro i hw
  have hlen : i.payload.length < 2 ^ 32 := by simpa [Instr.wellFormed] using hw
  refine decode_eq_ok_iff.2 ⟨legalHeader_encode i, ?_, instrOf_encode i⟩
  rw [lenField_encode, BitVec.toNat_ofNat, Nat.mod_eq_of_lt hlen]

/-! ### Encoding after decoding -/

/-- R44: a legal OP is that of one row. -/
theorem LegalHeader.op_cases {h : Header} (hl : LegalHeader h) : opField h = 0x01 ∨ opField h = 0x02 ∨ opField h = 0x03 ∨
    opField h = 0x04 ∨ opField h = 0x05 ∨ opField h = 0x06 := by
  obtain ⟨hlo, hhi⟩ := hl.op
  simp only [← BitVec.toNat_inj, BitVec.ofNat_eq_ofNat, BitVec.toNat_ofNat]
  omega

section
variable {h : Header} {p : List Byte} (hl : LegalHeader h)
include hl

/-- R44: the command read from a legal header has the header's OP. -/
theorem LegalHeader.op_instrOf : (instrOf h p).op = opField h := by
  rcases hl.op_cases with hop | hop | hop | hop | hop | hop <;> simp [instrOf, hop, Instr.op]

/-- R41: it has the header's ARG. -/
theorem LegalHeader.arg_instrOf : (instrOf h p).arg = argField h := by
  by_cases hop : opField h = 0x01
  · rw [instrOf, if_pos hop]
    exact (argField_eq_arg_init_iff.2 ⟨by simp, hl.reserved.2, rfl⟩).symm
  · rw [hl.arg hop]
    exact Instr.arg_eq_zero (by rwa [hl.op_instrOf])

/-- R42: and it carries the payload, which is empty in FINISH_AAD. -/
theorem LegalHeader.payload_instrOf (hlen : p.length = (lenField h).toNat) : (instrOf h p).payload = p := by
  have hnil : opField h = 0x04 → p = [] := fun hop => by simpa [hl.finishAad hop] using hlen
  rcases hl.op_cases with hop | hop | hop | hop | hop | hop <;> simp [instrOf, hop, Instr.payload, hnil]

/-- R41: encoding it gives the header back. -/
theorem LegalHeader.encode_instrOf (hlen : p.length = (lenField h).toNat) : encode (instrOf h p) = h := by
  refine header_ext_iff.2 ⟨?_, ?_, ?_, ?_⟩
  · rw [opField_encode, hl.op_instrOf]
  · rw [argField_encode, hl.arg_instrOf]
  · rw [rsv0Field_encode, hl.reserved.1]
  · rw [lenField_encode, hl.payload_instrOf hlen, hlen, BitVec.ofNat_toNat, BitVec.setWidth_eq]

end

/-- Settles O2: a pair that decodes has a legal header, and its fields are those of the command read from it. -/
theorem encodeOfDecodeGivesThePair : Obligations.EncodeOfDecodeGivesThePair := by
  intro h p i hd
  obtain ⟨hl, hlen, rfl⟩ := decode_eq_ok_iff.1 hd
  refine ⟨?_, hl.encode_instrOf hlen, hl.payload_instrOf hlen⟩
  rw [Instr.wellFormed, hl.payload_instrOf hlen, hlen]
  exact decide_eq_true (lenField h).isLt

/-! ### The rows of the opcode map (R44) -/

/-- R44: what a mask and a match value ask of a header, field by field. -/
theorem selects_iff {r : Row} {h : Header} : r.selects h = true ↔
    opField h &&& opField r.mask = opField r.value ∧ argField h &&& argField r.mask = argField r.value ∧
      rsv0Field h &&& rsv0Field r.mask = rsv0Field r.value ∧ lenField h &&& lenField r.mask = lenField r.value := by
  rw [Row.selects, beq_iff_eq, header_ext_iff]
  simp only [opField, argField, rsv0Field, lenField, BitVec.extractLsb'_and]

/-- R41, R44: the mask of the INIT row covers RSV1 alone of ARG. -/
theorem argField_and_eq_zero_iff {h : Header} : argField h &&& 0x60 = 0 ↔ rsv1Field h = 0 := by
  have hmask : ∀ b : BitVec 8, b &&& 0x60 = 0 ↔ b.toNat / 2 ^ 5 % 2 ^ 2 = 0 := by decide
  rw [hmask, ← BitVec.toNat_inj, rsv1Field_toNat, argField_toNat]
  simp only [BitVec.ofNat_eq_ofNat, BitVec.toNat_ofNat, Nat.zero_mod]
  omega

/-- R44: the rows field by field: OP and RSV0 are matched whole, ARG too but for INIT, where only RSV1 is, and LEN in FINISH_AAD
alone; every field but OP is matched against 0. -/
theorem opcodeRows_fields : ∀ r ∈ opcodeRows,
    (opField r.mask = BitVec.allOnes 8 ∧ 1 ≤ (opField r.value).toNat ∧ (opField r.value).toNat ≤ 6) ∧
    (argField r.mask = (if opField r.value = 0x01 then 0x60 else BitVec.allOnes 8) ∧ argField r.value = 0) ∧
    (rsv0Field r.mask = BitVec.allOnes 16 ∧ rsv0Field r.value = 0) ∧
    (lenField r.mask = (if opField r.value = 0x04 then BitVec.allOnes 32 else 0) ∧ lenField r.value = 0) := by
  decide

/-- R44: what the rows ask of ARG. -/
theorem argField_masked_eq_zero_iff {h : Header} :
    argField h &&& (if opField h = 0x01 then 0x60 else BitVec.allOnes 8) = 0 ↔
      rsv1Field h = 0 ∧ (opField h ≠ 0x01 → argField h = 0) := by
  split_ifs with hop
  · exact argField_and_eq_zero_iff.trans (and_iff_left (absurd hop)).symm
  · rw [BitVec.and_allOnes]
    exact ⟨fun harg => ⟨rsv1Field_eq_zero_of_argField harg, fun _ => harg⟩, fun harg => harg.2 hop⟩

/-- R44: what the rows ask of LEN. -/
theorem lenField_masked_eq_zero_iff {h : Header} :
    lenField h &&& (if opField h = 0x04 then BitVec.allOnes 32 else 0) = 0 ↔ (opField h = 0x04 → lenField h = 0) := by
  split_ifs with hop
  · rw [BitVec.and_allOnes]
    exact ⟨fun hlen _ => hlen, (· hop)⟩
  · exact iff_of_true BitVec.and_zero fun h4 => absurd h4 hop

/-- R44: a row selects the legal headers with its OP. -/
theorem selects_iff_legalHeader {r : Row} {h : Header} (hr : r ∈ opcodeRows) :
    r.selects h = true ↔ opField h = opField r.value ∧ LegalHeader h := by
  obtain ⟨⟨hopm, hop⟩, ⟨hargm, harg⟩, ⟨hrsvm, hrsv⟩, hlenm, hlen⟩ := opcodeRows_fields r hr
  rw [selects_iff, hopm, hargm, harg, hrsvm, hrsv, hlenm, hlen, BitVec.and_allOnes, BitVec.and_allOnes]
  refine and_congr_right fun hrow => ?_
  rw [← hrow] at hop ⊢
  rw [argField_masked_eq_zero_iff, lenField_masked_eq_zero_iff, legalHeader_iff]
  tauto

/-- R44: every legal OP has a row. -/
theorem exists_row_of_op : ∀ op : BitVec 8, 1 ≤ op.toNat ∧ op.toNat ≤ 6 → ∃ r ∈ opcodeRows, op = opField r.value := by
  decide

/-- R43, R44: the legal headers are those that match a row. -/
theorem exists_row_selects_iff {h : Header} : (∃ r ∈ opcodeRows, r.selects h = true) ↔ LegalHeader h := by
  constructor
  · rintro ⟨r, hr, hsel⟩
    exact ((selects_iff_legalHeader hr).1 hsel).2
  · intro hl
    obtain ⟨r, hr, hop⟩ := exists_row_of_op _ hl.op
    exact ⟨r, hr, (selects_iff_legalHeader hr).2 ⟨hop, hl⟩⟩

/-- R44: no two rows have one OP. -/
theorem row_eq_of_opField_eq : ∀ r₁ ∈ opcodeRows, ∀ r₂ ∈ opcodeRows, opField r₁.value = opField r₂.value → r₁ = r₂ := by
  decide

/-- Settles O3: decoding asks for a legal header and a payload of LEN bytes, a row for its OP and a legal header. -/
theorem legalCommandsAreThoseOfTheFiveConditions : Obligations.LegalCommandsAreThoseOfTheFiveConditions := by
  refine ⟨fun h p => ?_, fun h => ?_, fun h r₁ hr₁ r₂ hr₂ hs₁ hs₂ => ?_⟩
  · simp only [decode_eq_ok_iff, exists_and_left, exists_eq', and_true, legalHeader_iff, and_assoc]
  · rw [exists_row_selects_iff, legalHeader_iff]
  · obtain ⟨hop₁, -⟩ := (selects_iff_legalHeader hr₁).1 hs₁
    obtain ⟨hop₂, -⟩ := (selects_iff_legalHeader hr₂).1 hs₂
    exact row_eq_of_opField_eq r₁ hr₁ r₂ hr₂ (hop₁.symm.trans hop₂)

/-- Settles O5: the decoder run on the words of the table. -/
theorem listedHeadersDecodeAsListed : Obligations.ListedHeadersDecodeAsListed := by
  unfold Obligations.ListedHeadersDecodeAsListed
  decide

end Sys2Proof

namespace Sys2Proof.Machine

/-- Settles O8: a pair that decodes has a header that matches a row, and a payload of LEN bytes. -/
theorem illegalCommandsRaiseIllegalCommand : Obligations.IllegalCommandsRaiseIllegalCommand := by
  intro s h p rest hs hbad
  obtain ⟨e, he⟩ : ∃ e, decode h p = .error e := decode_eq_error fun ⟨hl, hlen⟩ => by
    obtain ⟨r, hr, hsel⟩ := exists_row_selects_iff.2 hl
    rcases hbad with hno | hne
    · exact absurd hsel (by simp [hno r hr])
    · exact hne hlen
  exact step_of_decode_error hs he

/-! ### The shape of the responses (R47) -/

/-- R101: a tag has TAGLEN bytes, TAGLEN being one that INIT accepts. -/
theorem sessionTag_length {c : Config} {n : BitVec 5} (hn : tagLengthOk c n = true) (ek0 acc : Block) :
    (sessionTag ek0 acc n).length = n.toNat := by
  have hmax : n.toNat ≤ 16 := by
    simp only [tagLengthOk, Bool.and_eq_true, decide_eq_true_eq] at hn
    exact hn.2
  rw [sessionTag, List.length_take, length_blockBytes, min_eq_left hmax]

/-- R98: the bytes a PROCESS emits: all of the output when encrypting, none when decrypting. -/
theorem emitted_ne_nil {d : Dir} {out : List Byte} (h : emitted d out ≠ []) : d = .enc ∧ emitted d out = out := by
  cases d
  · exact ⟨rfl, rfl⟩
  · exact absurd rfl h

/-- Settles O50: outcome by outcome of what a command can do; the invariant gives how many bytes a DEC session holds and how
long a tag is. -/
theorem responsesHaveTheirShape : Obligations.ResponsesHaveTheirShape := by
  intro i s t r hi hx hr
  rcases exec_cases hx with ⟨st, cs, hst, rfl, -⟩ | ⟨d, n, key, -, -, -, rfl⟩ | ⟨iv, key, h, -, -, -, -, -, rfl⟩ |
    ⟨aad, -, -, a, h, acc, buf, -, -, -, -, -, rfl⟩ | ⟨-, -, h, acc, buf, -, -, -, rfl⟩ |
    ⟨data, rfl, -, n, d, key, h, acc, ctr, buf, -, -, hd, -, -, -, -, -, -, -, rfl⟩ | ⟨e, o, tag, rfl, hp, rfl, hend⟩ <;>
  obtain rfl : _ = r := by simpa using hr
  · exact ⟨rfl, by simp, by simp, by simp [Phase.code]⟩
  · simp
  · simp
  · simp
  · simp
  · refine ⟨rfl, fun ho => ⟨rfl, .inl ⟨data, rfl, ?_⟩⟩, by simp, by simp⟩
    obtain ⟨rfl, ho⟩ := emitted_ne_nil ho
    exact ⟨hd, by rw [ho, xorBytes_out_length]; simp⟩
  · have hready := hi.dataReady (.inr (.inr hp))
    rcases hend with ⟨hdir, rfl, rfl, n, h, acc, buf, a, dlen, ek0, hn, -, -, -, -, -, -, rfl⟩ | ⟨hdir, rfl, rfl⟩
    · refine ⟨rfl, by simp, fun _ => ⟨rfl, _, n, rfl, hdir, hn, ?_⟩, by simp⟩
      obtain ⟨n', hn', hok⟩ := hready.live.taglen
      cases hn.symm.trans hn'
      exact sessionTag_length hok _ _
    · obtain ⟨n, hn, -⟩ := hready.live.dlen
      exact ⟨rfl, fun _ => ⟨rfl, .inr ⟨e, n, rfl, hdir, hn, hready.hold_dec n hdir hn⟩⟩, by simp, by simp⟩

/-! ### The words of an assembler line (R48) -/

/-- R48: the text of one operand, in which no space and no comma stands. -/
def PlainText (t : List Char) : Prop := ∀ ch ∈ t, ch ≠ ' ' ∧ ch ≠ ','

theorem plainText_cons {ch : Char} {t : List Char} : PlainText (ch :: t) ↔ (ch ≠ ' ' ∧ ch ≠ ',') ∧ PlainText t :=
  List.forall_mem_cons

/-- A space separates nothing. -/
theorem splitOperands_space (t : List Char) : splitOperands (' ' :: t) = splitOperands t := rfl

/-- A comma begins an operand. -/
theorem splitOperands_comma (t : List Char) : splitOperands (',' :: t) = [] :: splitOperands t := rfl

/-- The text before what is already cut belongs to the first operand. -/
theorem splitOperands_plain_append {x t y : List Char} {ys : List (List Char)} (hx : PlainText x)
    (ht : splitOperands t = y :: ys) : splitOperands (x ++ t) = (x ++ y) :: ys := by
  induction x with
  | nil => exact ht
  | cons ch x ih =>
    obtain ⟨⟨hspace, hcomma⟩, hx⟩ := plainText_cons.1 hx
    have hcut : splitOperands (x ++ t) = (x ++ y) :: ys := ih hx
    unfold splitOperands at hcut ⊢
    rw [List.cons_append, List.foldr_cons, hcut]
    simp [hspace, hcomma]

/-- R48: the operands of a line are cut as they were joined. -/
theorem splitOperands_joinOperands {xs : List (List Char)} (hne : xs ≠ []) (hxs : ∀ x ∈ xs, PlainText x) :
    splitOperands (joinOperands xs) = xs := by
  fun_induction joinOperands xs with
  | case1 => exact absurd rfl hne
  | case2 x => simpa using splitOperands_plain_append (t := []) (hxs x (by simp)) rfl
  | case3 x xs hxs' ih =>
    obtain ⟨hx, hxs⟩ := List.forall_mem_cons.1 hxs
    have htail : splitOperands (',' :: ' ' :: joinOperands xs) = [] :: xs := by
      rw [splitOperands_comma, splitOperands_space, ih hxs' hxs]
    simpa using splitOperands_plain_append hx htail

section
variable {m : String} (hm : ∀ ch ∈ m.toList, ch ≠ ' ')
include hm

/-- R48: the mnemonic of a line. -/
theorem takeWhile_lineOf (xs : List (List Char)) : (lineOf m xs).takeWhile (· ≠ ' ') = m.toList := by
  rw [lineOf, List.takeWhile_append_of_pos (by simpa using hm)]
  simp

/-- R48: the operands of a line. -/
theorem splitOperands_dropWhile_lineOf {xs : List (List Char)} (hne : xs ≠ []) (hxs : ∀ x ∈ xs, PlainText x) :
    splitOperands ((lineOf m xs).dropWhile (· ≠ ' ')) = xs := by
  rw [lineOf, List.dropWhile_append_of_pos (by simpa using hm), List.dropWhile_cons_of_neg (by simp), splitOperands_space,
    splitOperands_joinOperands hne hxs]

/-- R48: a line assembles to the header and payload of its command. -/
theorem assemble_lineOf {xs : List (List Char)} {i : Instr} (hi : assembleCommand m.toList xs = some i) (hne : xs ≠ [])
    (hxs : ∀ x ∈ xs, PlainText x) (hlen : i.payload.length < 2 ^ 32) :
    assemble (lineOf m xs) = some (encode i, i.payload) := by
  rw [assemble, assembleLine, takeWhile_lineOf hm, splitOperands_dropWhile_lineOf hm hne hxs, hi]
  exact if_pos (decide_eq_true hlen)

/-- R49: a pseudo-command line expands as its mnemonic and operands do. -/
theorem assembleFacade_lineOf {xs : List (List Char)} (hne : xs ≠ []) (hxs : ∀ x ∈ xs, PlainText x) :
    assembleFacade (lineOf m xs) = facadeOperands m.toList xs := by
  rw [assembleFacade, takeWhile_lineOf hm, splitOperands_dropWhile_lineOf hm hne hxs]

end

/-! ### Byte strings, directions and tag lengths as text (R5, R48) -/

/-- R5: a hex digit reads as its value. -/
theorem hexDigit_hexChar : ∀ n : BitVec 4, hexDigit (hexChar n) = some n.toNat := by decide

/-- R5: the two digits of a byte are the byte. -/
theorem ofNat_digits (b : Byte) :
    BitVec.ofNat 8 (16 * (b.extractLsb' 4 4).toNat + (b.extractLsb' 0 4).toNat) = b := by
  have := b.isLt
  refine BitVec.eq_of_toNat_eq ?_
  simp only [BitVec.toNat_ofNat, BitVec.extractLsb'_toNat, Nat.shiftRight_eq_div_pow]
  omega

/-- R5: the hex text of a byte string reads as the byte string. -/
theorem hexBytes_hexText (s : List Byte) : hexBytes (hexText s) = some s := by
  induction s with
  | nil => rfl
  | cons b s ih =>
    have hcons : hexText (b :: s) = hexChar (b.extractLsb' 4 4) :: hexChar (b.extractLsb' 0 4) :: hexText s := rfl
    rw [hcons, hexBytes, hexDigit_hexChar, hexDigit_hexChar, ih]
    exact congrArg (fun b => some (b :: s)) (ofNat_digits b)

/-- R48: so does the operand: `-` is not a hex text. -/
theorem byteOperand_hexText (s : List Byte) : byteOperand (hexText s) = some s := by
  rw [byteOperand, if_neg, hexBytes_hexText]
  cases s <;> simp [hexText]

/-- A hex digit is no separator. -/
theorem ne_separator_of_hexDigit {ch : Char} {n : Nat} (h : hexDigit ch = some n) : ch ≠ ' ' ∧ ch ≠ ',' := by
  constructor <;> rintro rfl <;> simp [hexDigit] at h

/-- R5: a hex string is the text of one operand. -/
theorem plainText_of_hexBytes {t : List Char} {s : List Byte} (h : hexBytes t = some s) : PlainText t := by
  fun_induction hexBytes t generalizing s with
  | case1 => exact nofun
  | case2 => cases h
  | case3 a b rest x y s' hs hb ha ih =>
    exact plainText_cons.2 ⟨ne_separator_of_hexDigit ha, plainText_cons.2 ⟨ne_separator_of_hexDigit hb, ih hs⟩⟩
  | case4 => cases h

/-- R48: and so is every byte string operand. -/
theorem plainText_of_byteOperand {t : List Char} {s : List Byte} (h : byteOperand t = some s) : PlainText t := by
  rw [byteOperand] at h
  split_ifs at h with hdash
  · subst hdash
    simp [PlainText]
  · exact plainText_of_hexBytes h

/-- R48: a direction reads as written. -/
theorem dirOperand_dirText (d : Dir) : dirOperand (dirText d) = some d := by cases d <;> rfl

theorem plainText_dirText (d : Dir) : PlainText (dirText d) := by cases d <;> simp [PlainText, dirText]

/-- R48: a tag length reads as written. -/
theorem taglenOperand_decimalText : ∀ t : BitVec 5, taglenOperand (decimalText t) = some t := by decide

theorem plainText_decimalText (t : BitVec 5) : PlainText (decimalText t) := by
  have hdigit : ∀ n < 10, Char.ofNat (48 + n) ≠ ' ' ∧ Char.ofNat (48 + n) ≠ ',' := by decide
  have := t.isLt
  simp only [PlainText, decimalText, List.forall_mem_cons]
  exact ⟨hdigit _ (by omega), hdigit _ (by omega), nofun⟩

/-! ### The lines (R48, R49) -/

section
variable {x : List Char} {s : List Byte} (hx : byteOperand x = some s)
include hx

/-- R48: the commands whose one operand is their payload. -/
theorem assembleCommand_payload :
    assembleCommand "SET_IV".toList [x] = some (.setIv s) ∧ assembleCommand "ADD_AAD".toList [x] = some (.addAad s) ∧
      assembleCommand "PROCESS".toList [x] = some (.process s) ∧
      assembleCommand "FINISH".toList [x] = some (.finish s) := by
  simp [assembleCommand, hx]

/-- R48: INIT, its tag length omitted. -/
theorem assembleCommand_init (d : Dir) : assembleCommand "INIT".toList [dirText d, x] = some (.init d 16 s) := by
  simp [assembleCommand, dirOperand_dirText, hx, taglenOrDefault, Config.tagDefault]

/-- R48: INIT, its tag length given. -/
theorem assembleCommand_init_taglen (d : Dir) (t : BitVec 5) :
    assembleCommand "INIT".toList [dirText d, decimalText t, x] = some (.init d t s) := by
  simp [assembleCommand, dirOperand_dirText, taglenOperand_decimalText, hx]

end

section
variable {k v a p e : List Char} {key iv aad data tag : List Byte} (hk : byteOperand k = some key)
  (hv : byteOperand v = some iv) (ha : byteOperand a = some aad) (hp : byteOperand p = some data)
  {rest : List (List Char)} {t : Option (BitVec 5)} (hplain : ∀ y ∈ rest, PlainText y) (hrest : taglenRest rest = some t)
include hk hv ha hp hplain hrest

/-- R49: a SEAL line expands to the commands of R110. -/
theorem assembleFacade_seal :
    assembleFacade (lineOf "SEAL" (k :: v :: a :: p :: rest)) = some (sealCommands key iv aad data t) := by
  rw [assembleFacade_lineOf (by simp) (by simp)]
  · simp [facadeOperands, hk, hv, ha, hp, hrest]
  · simp only [List.forall_mem_cons]
    exact ⟨plainText_of_byteOperand hk, plainText_of_byteOperand hv, plainText_of_byteOperand ha, plainText_of_byteOperand hp,
      hplain⟩

/-- R49: an OPEN line expands to the commands of R111. -/
theorem assembleFacade_open (he : byteOperand e = some tag) :
    assembleFacade (lineOf "OPEN" (k :: v :: a :: p :: e :: rest)) = some (openCommands key iv aad data tag t) := by
  rw [assembleFacade_lineOf (by simp) (by simp)]
  · simp [facadeOperands, hk, hv, ha, hp, he, hrest]
  · simp only [List.forall_mem_cons]
    exact ⟨plainText_of_byteOperand hk, plainText_of_byteOperand hv, plainText_of_byteOperand ha, plainText_of_byteOperand hp,
      plainText_of_byteOperand he, hplain⟩

end

/-- R49: the tag length given at the end of a pseudo-command line. -/
theorem taglenRest_decimalText (t : BitVec 5) : taglenRest [decimalText t] = some (some t) := by
  rw [taglenRest, taglenOperand_decimalText, Option.map_some]

/-- Settles O6: every line is its mnemonic and operands joined, which the assembler cuts again and reads one by one; the lines
without an operand and the examples of R48 are run. -/
theorem assemblerFollowsTheSyntax : Obligations.AssemblerFollowsTheSyntax := by
  refine ⟨⟨rfl, rfl, byteOperand_hexText⟩, fun x s hx hlen => ?_, ⟨by decide, by decide, by decide, by decide⟩,
    fun k v a p e key iv aad data tag hk hv ha hp he => ⟨?_, ?_, fun t => ⟨?_, ?_⟩⟩⟩
  · obtain ⟨hsetIv, haddAad, hprocess, hfinish⟩ := assembleCommand_payload hx
    have hplain := plainText_of_byteOperand hx
    have hone : ∀ y ∈ [x], PlainText y := by simpa using hplain
    refine ⟨fun d => ⟨?_, fun t => ?_⟩, ?_, ?_, ?_, ?_⟩
    · exact assemble_lineOf (by simp) (assembleCommand_init hx d) nofun (by simp [plainText_dirText, hplain]) hlen
    · exact assemble_lineOf (by simp) (assembleCommand_init_taglen hx d t) nofun
        (by simp [plainText_dirText, plainText_decimalText, hplain]) hlen
    · exact assemble_lineOf (by simp) hsetIv nofun hone hlen
    · exact assemble_lineOf (by simp) haddAad nofun hone hlen
    · exact assemble_lineOf (by simp) hprocess nofun hone hlen
    · exact assemble_lineOf (by simp) hfinish nofun hone hlen
  · exact assembleFacade_seal hk hv ha hp nofun rfl
  · exact assembleFacade_open hk hv ha hp nofun rfl he
  · exact assembleFacade_seal hk hv ha hp (by simp [plainText_decimalText]) (taglenRest_decimalText t)
  · exact assembleFacade_open hk hv ha hp (by simp [plainText_decimalText]) (taglenRest_decimalText t) he

end Sys2Proof.Machine

/-! ## Proofs of the multiplier family (40_gf128_multiplier.md): GFMUL in the field of R51, the ring laws (R53, R58), the equal
forms of the product (R56, R57), XTIME (R59), and the zero Hash Subkey (U14) -/

namespace Sys2Proof.Machine

section
open Polynomial

/-! ### A bit vector as a polynomial over GF(2) (R6) -/

section
variable {w : Nat}

/-- R6: the terms below `x^n` of the polynomial whose coefficient of `x^i` is bit `i`. -/
noncomputable def lowPoly (p : BitVec w) (n : Nat) : (ZMod 2)[X] :=
  ∑ i ∈ Finset.range n, if p.getLsbD i then X ^ i else 0

/-- R6: the polynomial whose coefficient of `x^i` is bit `i`. -/
noncomputable def bitsPoly (p : BitVec w) : (ZMod 2)[X] := lowPoly p w

/-- The polynomial of `p` has degree less than `n`. -/
def Below (p : BitVec w) (n : Nat) : Prop := ∀ i, n ≤ i → p.getLsbD i = false

theorem coeff_ite_X_pow (c : Prop) [Decidable c] (n i : Nat) :
    (if c then X ^ n else 0 : (ZMod 2)[X]).coeff i = if i = n ∧ c then 1 else 0 := by
  split <;> simp_all [coeff_X_pow]

@[simp] theorem coeff_lowPoly (p : BitVec w) (n i : Nat) :
    (lowPoly p n).coeff i = if i < n ∧ p.getLsbD i then 1 else 0 := by
  rw [lowPoly, ← Finset.sum_filter, finsetSum_coeff]
  simp [coeff_X_pow]

@[simp] theorem coeff_bitsPoly (p : BitVec w) (i : Nat) : (bitsPoly p).coeff i = if p.getLsbD i then 1 else 0 := by
  rw [bitsPoly, coeff_lowPoly]
  congr 1
  simpa using p.lt_of_getLsbD

theorem lowPoly_eq_bitsPoly {p : BitVec w} {n : Nat} (hp : Below p n) : lowPoly p n = bitsPoly p := by
  ext i
  by_cases hi : i < n
  · simp [hi]
  · simp [hi, hp i (by omega)]

theorem lowPoly_succ (p : BitVec w) (n : Nat) : lowPoly p (n + 1) = lowPoly p n + if p.getLsbD n then X ^ n else 0 :=
  Finset.sum_range_succ _ _

@[simp] theorem bitsPoly_zero : bitsPoly 0#w = 0 := by
  ext i
  simp

@[simp] theorem bitsPoly_xor (p q : BitVec w) : bitsPoly (p ^^^ q) = bitsPoly p + bitsPoly q := by
  ext i
  cases hp : p.getLsbD i <;> cases hq : q.getLsbD i <;> simp [hp, hq, CharTwo.add_self_eq_zero]

theorem bitsPoly_twoPow {n : Nat} (hn : n < w) : bitsPoly (BitVec.twoPow w n) = X ^ n := by
  ext i
  simp [hn, coeff_X_pow, eq_comm]

theorem bitsPoly_shiftLeft {p : BitVec w} {m n : Nat} (hp : Below p m) (hn : m + n ≤ w) :
    bitsPoly (p <<< n) = bitsPoly p * X ^ n := by
  ext i
  rw [coeff_mul_X_pow', coeff_bitsPoly, coeff_bitsPoly, BitVec.getLsbD_shiftLeft]
  by_cases hni : n ≤ i
  · by_cases hi : i < w
    · simp [hni, hi]
    · simp [hni, hi, hp (i - n) (by omega)]
  · simp [hni]

theorem bitsPoly_setWidth {v : Nat} {p : BitVec w} (hp : Below p v) : bitsPoly (p.setWidth v) = bitsPoly p := by
  ext i
  by_cases hi : i < v
  · simp [hi]
  · simp [hi, hp i (by omega)]

theorem bitsPoly_injective : Function.Injective (bitsPoly : BitVec w → (ZMod 2)[X]) := by
  intro p q h
  refine BitVec.eq_of_getLsbD_eq fun i _ => ?_
  have hi : (bitsPoly p).coeff i = (bitsPoly q).coeff i := by rw [h]
  rw [coeff_bitsPoly, coeff_bitsPoly] at hi
  cases hp : p.getLsbD i <;> cases hq : q.getLsbD i <;> simp [hp, hq] at hi ⊢

theorem degree_bitsPoly_lt (p : BitVec w) : (bitsPoly p).degree < w :=
  (degree_lt_iff_coeff_zero _ _).2 fun i hi => by simp [BitVec.getLsbD_of_ge _ _ hi]

theorem Below.mono {p : BitVec w} {m n : Nat} (hp : Below p m) (hmn : m ≤ n) : Below p n := fun i hi => hp i (by omega)

theorem below_width (p : BitVec w) : Below p w := fun i hi => BitVec.getLsbD_of_ge p i hi

theorem below_setWidth {v : Nat} (p : BitVec w) : Below (p.setWidth v) w := fun i hi => by
  simp [BitVec.getLsbD_of_ge p i hi]

theorem Below.xor {p q : BitVec w} {n : Nat} (hp : Below p n) (hq : Below q n) : Below (p ^^^ q) n := fun i hi => by
  simp [hp i hi, hq i hi]

theorem Below.shiftLeft {p : BitVec w} {m : Nat} (hp : Below p m) (n : Nat) : Below (p <<< n) (m + n) := fun i hi => by
  simp [hp (i - n) (by omega)]

theorem Below.ushiftRight {p : BitVec w} {m n : Nat} (hp : Below p (n + m)) : Below (p >>> n) m := fun i hi => by
  simp [hp (n + i) (by omega)]

end

/-! ### The field of GFMUL (R51) -/

/-- R51: `P(x) = x^128 + x^7 + x^2 + x + 1`. -/
noncomputable def gcmPoly : (ZMod 2)[X] := X ^ 128 + X ^ 7 + X ^ 2 + X + 1

theorem gcmPoly_eq : gcmPoly = X ^ 128 + X ^ 7 + X ^ 2 + X + 1 := by
  unfold gcmPoly
  rfl

theorem gcmPoly_natDegree : gcmPoly.natDegree = 128 := by
  unfold gcmPoly
  compute_degree!

theorem gcmPoly_monic : gcmPoly.Monic := by
  unfold gcmPoly
  monicity!

/-- R6: the polynomial view of a Block; bit 0 of the string is the coefficient of `x^0`. -/
noncomputable def blockPoly (b : Block) : (ZMod 2)[X] := bitsPoly b.reverse

/-- R51: the value of a Block modulo P. -/
noncomputable def toField (b : Block) : AdjoinRoot gcmPoly := AdjoinRoot.mk gcmPoly (blockPoly b)

@[simp] theorem coeff_blockPoly (b : Block) (i : Nat) : (blockPoly b).coeff i = if b.getMsbD i then 1 else 0 := by
  rw [blockPoly, coeff_bitsPoly, BitVec.getLsbD_reverse]

theorem isPolyOf_iff {b : Block} {p : (ZMod 2)[X]} : IsPolyOf b p ↔ p = blockPoly b := by
  simp [IsPolyOf, Polynomial.ext_iff]

theorem reverse_xor (a b : Block) : (a ^^^ b).reverse = a.reverse ^^^ b.reverse := by
  refine BitVec.eq_of_getLsbD_eq fun i _ => ?_
  rw [BitVec.getLsbD_xor, BitVec.getLsbD_reverse, BitVec.getLsbD_reverse, BitVec.getLsbD_reverse, BitVec.getMsbD_xor]

@[simp] theorem blockPoly_xor (a b : Block) : blockPoly (a ^^^ b) = blockPoly a + blockPoly b := by
  rw [blockPoly, reverse_xor, bitsPoly_xor, blockPoly, blockPoly]

@[simp] theorem toField_zero : toField 0#128 = 0 := by
  rw [toField, blockPoly, BitVec.reverse_eq_zero_iff.2 rfl, bitsPoly_zero, map_zero]

@[simp] theorem toField_xor (a b : Block) : toField (a ^^^ b) = toField a + toField b := by
  simp [toField]

theorem degree_blockPoly_lt (b : Block) : (blockPoly b).degree < gcmPoly.degree := by
  rw [degree_eq_natDegree gcmPoly_monic.ne_zero, gcmPoly_natDegree]
  exact degree_bitsPoly_lt b.reverse

/-- R51: a Block is the remainder of every polynomial of its class. -/
theorem modByMonic_eq_blockPoly {p : (ZMod 2)[X]} {b : Block} (h : AdjoinRoot.mk gcmPoly p = toField b) :
    p %ₘ gcmPoly = blockPoly b := by
  rw [modByMonic_eq_of_dvd_sub gcmPoly_monic (AdjoinRoot.mk_eq_mk.1 h),
    (modByMonic_eq_self_iff gcmPoly_monic).2 (degree_blockPoly_lt b)]

theorem toField_injective : Function.Injective toField := by
  intro a b h
  have hpoly : blockPoly a = blockPoly b := by
    rw [← modByMonic_eq_blockPoly rfl, ← modByMonic_eq_blockPoly h]
  have hrev : a.reverse = b.reverse := bitsPoly_injective hpoly
  rw [← BitVec.reverse_reverse_eq (x := a), hrev, BitVec.reverse_reverse_eq]

/-- R33, R53: ONE is the polynomial 1. -/
@[simp] theorem toField_gfOne : toField gfOne = 1 := by
  have h : gfOne.reverse = BitVec.twoPow 128 0 := by decide +kernel
  rw [toField, blockPoly, h, bitsPoly_twoPow (by omega), pow_zero, map_one]

/-- R59: the Block of the polynomial `x`. -/
def gfX : Block := 0x40000000000000000000000000000000

@[simp] theorem toField_gfX : toField gfX = AdjoinRoot.root gcmPoly := by
  have h : gfX.reverse = BitVec.twoPow 128 1 := by decide +kernel
  rw [toField, blockPoly, h, bitsPoly_twoPow (by omega), pow_one, AdjoinRoot.mk_X]

/-- R52: the Block R is `x^7 + x^2 + x + 1`. -/
theorem blockPoly_reduction : blockPoly reduction = X ^ 7 + X ^ 2 + X + 1 := by
  have h : reduction.reverse =
      BitVec.twoPow 128 7 ^^^ BitVec.twoPow 128 2 ^^^ BitVec.twoPow 128 1 ^^^ BitVec.twoPow 128 0 := by decide +kernel
  simp [blockPoly, h, bitsPoly_twoPow]

/-- R51: `x^128` reduces to `x^7 + x^2 + x + 1`. -/
theorem mk_X_pow_128 : AdjoinRoot.mk gcmPoly (X ^ 128) = toField reduction := by
  have h : X ^ 128 = gcmPoly + (X ^ 7 + X ^ 2 + X + 1) := by
    rw [← CharTwo.sub_eq_add, gcmPoly_eq]
    ring
  rw [toField, blockPoly_reduction, h, map_add, AdjoinRoot.mk_self, zero_add]

/-- R59: a shift toward the least significant end multiplies by `x`, but for the term `x^128` of the bit shifted out. -/
theorem blockPoly_ushiftRight_one (v : Block) :
    blockPoly (v >>> 1) + (if v.getLsbD 0 then X ^ 128 else 0) = X * blockPoly v := by
  have hlast : v.getMsbD 127 = v.getLsbD 0 := by simp [BitVec.getMsbD]
  ext i
  rw [coeff_add, coeff_blockPoly, BitVec.getMsbD_ushiftRight, coeff_ite_X_pow, ← hlast]
  cases i with
  | zero => simp
  | succ i =>
    rw [coeff_X_mul, coeff_blockPoly]
    rcases lt_trichotomy i 127 with hi | rfl | hi
    · simp [hi.ne, show i + 1 < 128 by omega]
    · simp
    · simp [hi.ne', BitVec.getMsbD_of_ge v i hi]

/-- R59: XTIME is multiplication by `x` modulo P. -/
theorem toField_xtime (v : Block) : toField (xtime v) = AdjoinRoot.root gcmPoly * toField v := by
  have hx : AdjoinRoot.root gcmPoly * toField v = AdjoinRoot.mk gcmPoly (X * blockPoly v) := by
    rw [map_mul, AdjoinRoot.mk_X, toField]
  rw [hx, ← blockPoly_ushiftRight_one, map_add, xtime, toField_xor]
  split
  · rw [mk_X_pow_128, toField, toField]
  · rw [map_zero, BitVec.ofNat_eq_ofNat, toField_zero, toField]

theorem toField_xtimes (y : Block) (n : Nat) : toField (xtimes y n) = AdjoinRoot.root gcmPoly ^ n * toField y := by
  induction n with
  | zero => simp [xtimes]
  | succ n ih => rw [xtimes, toField_xtime, ih, pow_succ', mul_assoc]

/-- R52: after `n` iterations Z is the product of the terms of X below `x^n` with Y. -/
theorem toField_gfmulLoop (x y : Block) (n : Nat) :
    toField (gfmulLoop x y n) = AdjoinRoot.mk gcmPoly (lowPoly x.reverse n) * toField y := by
  induction n with
  | zero => simp [gfmulLoop, lowPoly]
  | succ n ih =>
    rw [gfmulLoop, lowPoly_succ, BitVec.getLsbD_reverse]
    split <;> simp [ih, toField_xtimes, add_mul]

/-- R51: GFMUL is the product modulo P. -/
@[simp] theorem toField_gfmul (x y : Block) : toField (gfmul x y) = toField x * toField y :=
  toField_gfmulLoop x y 128

/-- Settles O51: both polynomials are the views of their Blocks, and the field product determines the remainder. -/
theorem gfmulIsTheProductModuloP : Obligations.GfmulIsTheProductModuloP := by
  intro x y p q hp hq
  rw [← gcmPoly_eq]
  refine ⟨isPolyOf_iff.2 (modByMonic_eq_blockPoly ?_), ?_⟩
  · rw [isPolyOf_iff.1 hp, isPolyOf_iff.1 hq, map_mul, toField_gfmul, toField, toField]
  · rw [← blockPoly_reduction]
    exact modByMonic_eq_blockPoly mk_X_pow_128

/-- Settles O55: multiplication by `x` in the field of R51. -/
theorem xtimeIsMultiplicationByX : Obligations.XtimeIsMultiplicationByX := by
  refine ⟨fun v => toField_injective ?_, fun v => rfl, by decide, by decide, by decide⟩
  rw [toField_xtime, ← gfX, toField_gfmul, toField_gfX]

/-! ### The ring laws (R53, R58) -/

theorem gfmul_comm (a b : Block) : gfmul a b = gfmul b a := toField_injective (by simp [mul_comm])

theorem gfmul_assoc (a b c : Block) : gfmul (gfmul a b) c = gfmul a (gfmul b c) :=
  toField_injective (by simp [mul_assoc])

theorem gfmul_xor (a b c : Block) : gfmul (a ^^^ b) c = gfmul a c ^^^ gfmul b c :=
  toField_injective (by simp [add_mul])

theorem gfOne_gfmul (a : Block) : gfmul gfOne a = a := toField_injective (by simp)

theorem zero_gfmul (a : Block) : gfmul 0 a = 0 := toField_injective (by simp)

theorem gfmul_zero (a : Block) : gfmul a 0 = 0 := by rw [gfmul_comm, zero_gfmul]

/-- R58: two updates are one update with the square of H and one with H. -/
theorem ghUpdate_ghUpdate (h acc x₁ x₂ : Block) :
    ghUpdate h (ghUpdate h acc x₁) x₂ = gfmul (acc ^^^ x₁) (gfmul h h) ^^^ gfmul x₂ h := by
  rw [ghUpdate, ghUpdate, gfmul_xor, gfmul_assoc]

/-- Settles O52: the laws of the field of R51, carried back to the Blocks. -/
theorem blocksAreACommutativeRing : Obligations.BlocksAreACommutativeRing :=
  ⟨gfmul_comm, gfmul_assoc, gfmul_xor, gfOne_gfmul, zero_gfmul, ghUpdate_ghUpdate⟩

/-! ### The zero Hash Subkey (U14) -/

/-- R61: with H = ZERO every update leaves ACC at ZERO. -/
theorem ghashFrom_zero (d : List Byte) : ghashFrom 0 0 d = 0 := by
  have hupdate (acc x : Block) : ghUpdate 0 acc x = 0 := gfmul_zero _
  rw [ghashFrom]
  induction blocksOf d with
  | nil => rfl
  | cons x xs ih => rw [List.foldl_cons, hupdate, ih]

theorem ghash_zero (d : List Byte) : ghash 0 d = 0 := ghashFrom_zero d

/-- Settles O56: the GHASH that masks the encrypted initial counter is ZERO. -/
theorem zeroSubkeyGivesTheBareTag : Obligations.ZeroSubkeyGivesTheBareTag := by
  intro c m hm
  rw [Message.tag, hm]
  refine ⟨ghash_zero, ?_⟩
  rw [ghash_zero, BitVec.ofNat_eq_ofNat, BitVec.xor_zero]

/-! ### The polynomial product (R51) -/

theorem below_clmul (a : BitVec 256) {b : BitVec 256} {m : Nat} (hb : Below b m) (n : Nat) :
    Below (clmul a b n) (n + m - 1) := by
  induction n with
  | zero => intro i _; simp [clmul]
  | succ n ih =>
    have hlow : Below (clmul a b n) (n + 1 + m - 1) := ih.mono (by omega)
    rw [clmul]
    split
    · exact hlow.xor ((hb.shiftLeft n).mono (by omega))
    · exact hlow

/-- R51: no bit of the carry-less product is lost, so it is the product of polynomials. -/
theorem bitsPoly_clmul_lowPoly {a b : BitVec 256} {m n : Nat} (hb : Below b m) (hn : n + m ≤ 256) :
    bitsPoly (clmul a b n) = lowPoly a n * bitsPoly b := by
  induction n with
  | zero => simp [clmul, lowPoly]
  | succ n ih =>
    rw [clmul, lowPoly_succ, add_mul, ← ih (by omega)]
    split
    · rw [bitsPoly_xor, bitsPoly_shiftLeft hb (by omega), mul_comm]
    · rw [zero_mul, add_zero]

theorem bitsPoly_clmul {a b : BitVec 256} {m n : Nat} (ha : Below a n) (hb : Below b m) (hn : n + m ≤ 256) :
    bitsPoly (clmul a b n) = bitsPoly a * bitsPoly b := by
  rw [bitsPoly_clmul_lowPoly hb hn, lowPoly_eq_bitsPoly ha]

theorem bitsPoly_polyOfBlock (b : Block) : bitsPoly (polyOfBlock b) = blockPoly b :=
  bitsPoly_setWidth ((below_width _).mono (by omega))

theorem toField_blockOfPoly {p : BitVec 256} (hp : Below p 128) :
    toField (blockOfPoly p) = AdjoinRoot.mk gcmPoly (bitsPoly p) := by
  rw [toField, blockPoly, blockOfPoly, BitVec.reverse_reverse_eq, bitsPoly_setWidth hp]

/-- R51: the 256-bit word of P. -/
theorem bitsPoly_fieldPoly : bitsPoly fieldPoly = gcmPoly := by
  have h : fieldPoly = BitVec.twoPow 256 128 ^^^ BitVec.twoPow 256 7 ^^^ BitVec.twoPow 256 2 ^^^ BitVec.twoPow 256 1 ^^^
      BitVec.twoPow 256 0 := by decide +kernel
  simp [h, bitsPoly_twoPow, gcmPoly_eq]

theorem getLsbD_fieldPoly_128 : fieldPoly.getLsbD 128 = true := by decide +kernel

theorem below_fieldPoly : Below fieldPoly 129 := by
  intro i hi
  have hlt : fieldPoly.toNat < 2 ^ 129 := by decide +kernel
  exact Nat.testBit_lt_two_pow (hlt.trans_le (Nat.pow_le_pow_right (by omega) hi))

/-! ### The two reductions (R56) -/

/-- R56: one step of the bit-by-bit reduction. -/
theorem below_reduceStep {p : BitVec 256} {n : Nat} (hp : Below p (128 + (n + 1))) (hn : n < 128) :
    Below (if p.getLsbD (128 + n) then p ^^^ (fieldPoly <<< n) else p) (128 + n) := by
  intro i hi
  rcases hi.eq_or_lt with rfl | hi
  · split
    next hbit =>
      rw [BitVec.getLsbD_xor, BitVec.getLsbD_shiftLeft, hbit, Nat.add_sub_cancel, getLsbD_fieldPoly_128]
      simp [show 128 + n < 256 by omega]
    next hbit => exact Bool.eq_false_iff.2 hbit
  · have hbit : p.getLsbD i = false := hp i (by omega)
    have hfield : fieldPoly.getLsbD (i - n) = false := below_fieldPoly _ (by omega)
    split <;> simp [hbit, hfield]

theorem reduceFrom_spec {p : BitVec 256} {n : Nat} (hp : Below p (128 + n)) (hn : n ≤ 127) :
    Below (reduceFrom p n) 128 ∧
      AdjoinRoot.mk gcmPoly (bitsPoly (reduceFrom p n)) = AdjoinRoot.mk gcmPoly (bitsPoly p) := by
  induction n generalizing p with
  | zero => exact ⟨hp, rfl⟩
  | succ n ih =>
    obtain ⟨hbelow, hmk⟩ := ih (below_reduceStep hp (by omega)) (by omega)
    refine ⟨hbelow, hmk.trans ?_⟩
    split
    · simp [bitsPoly_shiftLeft below_fieldPoly (show 129 + n ≤ 256 by omega), bitsPoly_fieldPoly]
    · rfl

/-- R56: the high half `T` and the rest. -/
theorem bitsPoly_high_low (p : BitVec 256) :
    bitsPoly p = bitsPoly ((p.setWidth 128).setWidth 256) + bitsPoly (p >>> 128) * X ^ 128 := by
  have hhigh : Below (p >>> 128) 128 := (below_width p).ushiftRight
  rw [← bitsPoly_shiftLeft hhigh (by omega), ← bitsPoly_xor]
  congr 1
  refine BitVec.eq_of_getLsbD_eq fun i hi => ?_
  by_cases hlow : i < 128
  · simp [hi, hlow]
  · simp [hi, hlow, show 128 + (i - 128) = i by omega]

/-- R56: a fold keeps the remainder, since it puts `x^7 + x^2 + x + 1` for `x^128`. -/
theorem mk_bitsPoly_foldHigh (p : BitVec 256) :
    AdjoinRoot.mk gcmPoly (bitsPoly (foldHigh p)) = AdjoinRoot.mk gcmPoly (bitsPoly p) := by
  have hhigh : Below (p >>> 128) 128 := (below_width p).ushiftRight
  have hfold : bitsPoly (foldHigh p) =
      bitsPoly ((p.setWidth 128).setWidth 256) + bitsPoly (p >>> 128) * blockPoly reduction := by
    rw [foldHigh, bitsPoly_xor, bitsPoly_xor, bitsPoly_xor, bitsPoly_xor, bitsPoly_shiftLeft hhigh (by omega),
      bitsPoly_shiftLeft hhigh (by omega), bitsPoly_shiftLeft hhigh (by omega), blockPoly_reduction]
    ring
  rw [hfold, bitsPoly_high_low p, map_add, map_add, map_mul, map_mul, mk_X_pow_128, toField]

theorem Below.foldHigh {p : BitVec 256} {k n : Nat} (hp : Below p (128 + k)) (hn : 128 ≤ n) (hk : k + 7 ≤ n) :
    Below (foldHigh p) n := by
  have hhigh : Below (p >>> 128) k := hp.ushiftRight
  have hlow : Below ((p.setWidth 128).setWidth 256) n := fun i hi => by simp [show ¬ i < 128 by omega]
  exact (((hlow.xor ((hhigh.shiftLeft 7).mono hk)).xor ((hhigh.shiftLeft 2).mono (by omega))).xor
    ((hhigh.shiftLeft 1).mono (by omega))).xor (hhigh.mono (by omega))

/-- R56: the bit-by-bit reduction gives the remainder. -/
theorem toField_reduceFrom {p : BitVec 256} (hp : Below p 255) :
    toField (blockOfPoly (reduceFrom p 127)) = AdjoinRoot.mk gcmPoly (bitsPoly p) := by
  obtain ⟨hbelow, hmk⟩ := reduceFrom_spec (n := 127) hp le_rfl
  rw [toField_blockOfPoly hbelow, hmk]

/-- R56: two folds give the remainder. -/
theorem toField_foldHigh {p : BitVec 256} (hp : Below p 255) :
    toField (blockOfPoly (foldHigh (foldHigh p))) = AdjoinRoot.mk gcmPoly (bitsPoly p) := by
  have honce : Below (foldHigh p) (128 + 6) := Below.foldHigh (k := 127) hp (by omega) (by omega)
  rw [toField_blockOfPoly (honce.foldHigh (by omega) (by omega)), mk_bitsPoly_foldHigh, mk_bitsPoly_foldHigh]

/-! ### The Karatsuba product (R56) -/

theorem below_polyOfBlock (b : Block) : Below (polyOfBlock b) 128 := below_setWidth _

theorem below_lowHalf (b : Block) : Below (lowHalf b) 64 := below_setWidth _

theorem below_highHalf (b : Block) : Below (highHalf b) 64 := below_setWidth _

/-- R56: a Block in its two halves. -/
theorem bitsPoly_halves (b : Block) :
    bitsPoly (polyOfBlock b) = bitsPoly (lowHalf b) + bitsPoly (highHalf b) * X ^ 64 := by
  rw [← bitsPoly_shiftLeft (below_highHalf b) (by omega), ← bitsPoly_xor]
  congr 1
  refine BitVec.eq_of_getLsbD_eq fun i hi => ?_
  by_cases hlow : i < 64
  · simp [polyOfBlock, lowHalf, highHalf, hi, hlow]
  · have hbit : 64 + (i - 64) = i := by omega
    by_cases hhigh : i < 128
    · simp [polyOfBlock, lowHalf, highHalf, hi, hlow, hbit, show i - 64 < 64 by omega]
    · simp [polyOfBlock, lowHalf, highHalf, hi, hlow, show ¬ i - 64 < 64 by omega,
        below_width b.reverse i (by omega)]

theorem bitsPoly_polyProduct (x y : Block) :
    bitsPoly (clmul (polyOfBlock x) (polyOfBlock y) 128) = blockPoly x * blockPoly y := by
  rw [bitsPoly_clmul (below_polyOfBlock x) (below_polyOfBlock y) (by omega), bitsPoly_polyOfBlock, bitsPoly_polyOfBlock]

/-- R56: the three 64-by-64 products give the whole product. -/
theorem karatsubaProduct_eq (x y : Block) : karatsubaProduct x y = clmul (polyOfBlock x) (polyOfBlock y) 128 := by
  have hxl := below_lowHalf x
  have hxh := below_highHalf x
  have hyl := below_lowHalf y
  have hyh := below_highHalf y
  have hlo := below_clmul (lowHalf x) hyl 64
  have hhi := below_clmul (highHalf x) hyh 64
  have hmid := ((below_clmul (lowHalf x ^^^ highHalf x) (hyl.xor hyh) 64).xor hlo).xor hhi
  apply bitsPoly_injective
  rw [bitsPoly_clmul (below_polyOfBlock x) (below_polyOfBlock y) (by omega), bitsPoly_halves, bitsPoly_halves,
    karatsubaProduct, bitsPoly_xor, bitsPoly_xor, bitsPoly_shiftLeft hhi (by omega), bitsPoly_shiftLeft hmid (by omega),
    bitsPoly_xor, bitsPoly_xor, bitsPoly_clmul hxl hyl (by omega), bitsPoly_clmul hxh hyh (by omega),
    bitsPoly_clmul (hxl.xor hxh) (hyl.xor hyh) (by omega), bitsPoly_xor, bitsPoly_xor]
  linear_combination (bitsPoly (lowHalf x) * bitsPoly (lowHalf y) + bitsPoly (highHalf x) * bitsPoly (highHalf y)) *
    X ^ 64 * CharTwo.two_eq_zero (R := (ZMod 2)[X])

/-! ### The Mastrovito matrix (R57) -/

/-- R57: a column of the matrix counts where X has its bit, as the loop of R52 adds it. -/
theorem foldl_mastrovitoEntry (x y : Block) (j n : Nat) :
    (List.range n).foldl (fun p i => p ^^ (mastrovitoEntry y j i && x.getMsbD i)) false =
      (gfmulLoop x y n).getMsbD j := by
  induction n with
  | zero => simp [gfmulLoop]
  | succ n ih =>
    rw [List.range_succ, List.foldl_append, ih, gfmulLoop]
    split <;> simp_all [mastrovitoEntry]

theorem mastrovitoBit_eq (x y : Block) (j : Nat) : mastrovitoBit x y j = (gfmul x y).getMsbD j :=
  foldl_mastrovitoEntry x y j 128

/-- The bit shifted in first stands highest. -/
theorem getLsbD_foldl_shiftConcat (f : Nat → Bool) (n i : Nat) :
    ((List.range n).foldl (fun z j => z.shiftConcat (f j)) (0 : Block)).getLsbD i =
      (decide (i < 128) && decide (i < n) && f (n - 1 - i)) := by
  induction n generalizing i with
  | zero => simp
  | succ n ih =>
    rw [List.range_succ, List.foldl_append, List.foldl_cons, List.foldl_nil, BitVec.getLsbD_shiftConcat, ih]
    cases i with
    | zero => simp
    | succ i =>
      rw [Nat.add_sub_cancel, show n + 1 - 1 - (i + 1) = n - 1 - i by omega]
      by_cases hi : i + 1 < 128
      · simp [hi, show i < 128 by omega]
      · simp [hi]

theorem gfmulMastrovito_eq (x y : Block) : gfmulMastrovito x y = gfmul x y := by
  refine BitVec.eq_of_getLsbD_eq fun i hi => ?_
  rw [gfmulMastrovito, getLsbD_foldl_shiftConcat, mastrovitoBit_eq, BitVec.getMsbD]
  simp [hi, show 127 - i < 128 by omega, show 127 - (127 - i) = i by omega]

/-- Settles O54: the product of polynomials reduced in either way, and the matrix column by column. -/
theorem equalFormsOfTheProduct : Obligations.EqualFormsOfTheProduct := by
  intro x y
  have hbelow : Below (clmul (polyOfBlock x) (polyOfBlock y) 128) 255 :=
    below_clmul _ (below_polyOfBlock y) 128
  have hmk : AdjoinRoot.mk gcmPoly (bitsPoly (clmul (polyOfBlock x) (polyOfBlock y) 128)) = toField (gfmul x y) := by
    rw [bitsPoly_polyProduct, map_mul, toField_gfmul, toField, toField]
  have hreduce := toField_injective ((toField_reduceFrom hbelow).trans hmk)
  have hfold := toField_injective ((toField_foldHigh hbelow).trans hmk)
  rw [gfmulPoly, gfmulKaratsuba, gfmulKaratsubaFold, karatsubaProduct_eq]
  exact ⟨hreduce, hreduce, hfold, gfmulMastrovito_eq x y⟩

/-! ### P is irreducible (R53) -/

/-- Rabin's test for a degree that is a power of two. -/
theorem irreducible_of_rabin {f : (ZMod 2)[X]} {k : Nat} (hdeg : f.natDegree = 2 ^ (k + 1))
    (hdvd : f ∣ X ^ 2 ^ 2 ^ (k + 1) - X) (hcop : IsCoprime f (X ^ 2 ^ 2 ^ k - X)) : Irreducible f := by
  have hne : f ≠ 0 := by
    rintro rfl
    exact (pow_pos two_pos _).ne hdeg
  have hunit : ¬ IsUnit f := fun hu =>
    (pow_pos two_pos _).ne ((natDegree_eq_zero_of_isUnit hu).symm.trans hdeg)
  obtain ⟨g, hg, hgf⟩ := WfDvdMonoid.exists_irreducible_factor hunit hne
  have hiff (n : Nat) : g.natDegree ∣ n ↔ g ∣ X ^ 2 ^ n - X := by
    simpa using hg.natDegree_dvd_iff_dvd_X_pow_card_pow_sub_X (n := n)
  obtain ⟨j, hj, hgdeg⟩ := (Nat.dvd_prime_pow Nat.prime_two).1 ((hiff _).2 (hgf.trans hdvd))
  have hjk : ¬ j ≤ k := fun hjk => hg.not_isUnit
    (hcop.isUnit_of_dvd' hgf ((hiff _).1 (hgdeg ▸ pow_dvd_pow 2 hjk)))
  have hle : f.natDegree ≤ g.natDegree := by rw [hdeg, hgdeg, show j = k + 1 by omega]
  exact (associated_of_dvd_of_natDegree_le hgf hne hle).irreducible hg

/-- `A` squared `n` times. -/
def gfSquares (a : Block) : Nat → Block
  | 0 => a
  | n + 1 => gfmul (gfSquares a n) (gfSquares a n)

theorem toField_gfSquares (a : Block) (n : Nat) : toField (gfSquares a n) = toField a ^ 2 ^ n := by
  induction n with
  | zero => simp [gfSquares]
  | succ n ih => rw [gfSquares, toField_gfmul, ih, ← pow_add, pow_succ 2 n, mul_two]

theorem gfSquares_add (a : Block) (m n : Nat) : gfSquares a (m + n) = gfSquares (gfSquares a m) n :=
  toField_injective (by simp only [toField_gfSquares, pow_add, pow_mul])

theorem root_pow_two_pow (n : Nat) : AdjoinRoot.root gcmPoly ^ 2 ^ n = toField (gfSquares gfX n) := by
  rw [toField_gfSquares, toField_gfX]

theorem gcmPoly_dvd_of_gfSquares {n : Nat} (h : gfSquares gfX n = gfX) : gcmPoly ∣ X ^ 2 ^ n - X := by
  rw [← AdjoinRoot.mk_eq_zero, map_sub, map_pow, AdjoinRoot.mk_X, root_pow_two_pow, h, toField_gfX, sub_self]

/-- A Block that inverts `x^(2^n) - x` modulo P gives Bezout's identity. -/
theorem gcmPoly_isCoprime_of_gfmul {n : Nat} {c : Block} (h : gfmul c (gfSquares gfX n ^^^ gfX) = gfOne) :
    IsCoprime gcmPoly (X ^ 2 ^ n - X) := by
  have hmk : AdjoinRoot.mk gcmPoly (blockPoly c * (X ^ 2 ^ n - X)) = AdjoinRoot.mk gcmPoly 1 := by
    rw [CharTwo.sub_eq_add, map_mul, map_add, map_pow, AdjoinRoot.mk_X, root_pow_two_pow, ← toField, map_one,
      ← toField_gfOne, ← h, toField_gfmul, toField_xor, toField_gfX]
  obtain ⟨q, hq⟩ := AdjoinRoot.mk_eq_mk.1 hmk
  exact ⟨-q, blockPoly c, by linear_combination hq⟩

/-- The Block of `x^(2^64)`. -/
def gfX64 : Block := 0x6F9945A9E519A7229D4C1AD657F8A686

theorem gfSquares_gfX_64 : gfSquares gfX 64 = gfX64 := by decide +kernel

theorem gfSquares_gfX64_64 : gfSquares gfX64 64 = gfX := by decide +kernel

theorem gfSquares_gfX_128 : gfSquares gfX (64 + 64) = gfX := by
  rw [gfSquares_add, gfSquares_gfX_64, gfSquares_gfX64_64]

theorem gfmul_inverse_gfX64 : gfmul 0x180DA934BF53158251C13DBB149F5279 (gfSquares gfX 64 ^^^ gfX) = gfOne := by
  rw [gfSquares_gfX_64]
  decide +kernel

theorem gcmPoly_irreducible : Irreducible gcmPoly :=
  irreducible_of_rabin (k := 6) gcmPoly_natDegree (gcmPoly_dvd_of_gfSquares gfSquares_gfX_128)
    (gcmPoly_isCoprime_of_gfmul gfmul_inverse_gfX64)

/-- Settles O53: the Blocks have the product of a field, P being irreducible. -/
theorem noZeroDivisors : Obligations.NoZeroDivisors := by
  intro a b hab
  have : Fact (Irreducible gcmPoly) := ⟨gcmPoly_irreducible⟩
  have hmul : toField a * toField b = 0 := by rw [← toField_gfmul, hab, BitVec.ofNat_eq_ofNat, toField_zero]
  have hzero {c : Block} (hc : toField c = 0) : c = 0 := toField_injective (hc.trans toField_zero.symm)
  exact (mul_eq_zero.1 hmul).imp hzero hzero

end

end Sys2Proof.Machine

/-! ## Proofs of the accumulator family (41_ghash_accumulator.md): GHASH as a polynomial in H (R66), and the accumulation of
a whole session (R67) as FINISH completes it -/

namespace Sys2Proof.Machine

/-! ### Horner's rule (R66) -/

theorem blocksOf_length (d : List Byte) : (blocksOf d).length = d.length / 16 := by simp [blocksOf]

theorem gfmul_gfOne (a : Block) : gfmul a gfOne = a := by rw [gfmul_comm, gfOne_gfmul]

theorem gfmul_gfPow (x h : Block) (n : Nat) : gfmul (gfmul x h) (gfPow h n) = gfmul x (gfPow h (n + 1)) := by
  rw [gfmul_assoc, gfmul_comm h, gfPow]

/-- R66: Horner's rule. Where the loop starts from `y`, the sum has one more term, `y` by the highest power of H. -/
theorem foldl_ghUpdate_eq_sum (h y : Block) (xs : List Block) :
    xs.foldl (ghUpdate h) y =
      (xs.mapIdx fun j x => gfmul x (gfPow h (xs.length - j))).foldl (· ^^^ ·) (gfmul y (gfPow h xs.length)) := by
  induction xs generalizing y with
  | nil => exact (gfmul_gfOne y).symm
  | cons x xs ih =>
    rw [List.foldl_cons, ih, ghUpdate, gfmul_gfPow, gfmul_xor]
    simp only [List.mapIdx_cons, List.foldl_cons, List.length_cons, Nat.sub_zero, Nat.add_sub_add_right]

/-- Settles O57: the loop and its continuation are those of `ghashFrom`, and the closed form is Horner's rule from ZERO,
where the term of the start vanishes. -/
theorem ghashIsAPolynomialInH : Obligations.GhashIsAPolynomialInH := by
  refine ⟨fun h => ghashFrom_nil h 0, fun _ _ _ => rfl, fun h _ d' hd => ghashFrom_append h 0 d' hd, fun h d _ => ?_⟩
  rw [ghash, ghashFrom, foldl_ghUpdate_eq_sum, zero_gfmul, blocksOf_length]

/-! ### The accumulation of a session (R67, R100, R101) -/

/-- R63, R66: GH_LENBLOCK is GHASH continued by the sixteen bytes of the two lengths. -/
theorem ghLenBlock_eq_ghashFrom (h y : Block) (a n : Nat) :
    ghLenBlock h y a n = ghashFrom h y (bigEndian64 a ++ bigEndian64 n) :=
  (ghashFrom_block h y rfl).symm

/-- R67, R100: from an ACC and a BUF that stand for the AAD and the ciphertext, the folds of FINISH give GHASH of both,
padded and length-appended. -/
theorem finalAcc_stream (h : Block) (aad ct : List Byte) (a n : BitVec 64) :
    finalAcc h (ghash h (pad16 aad ++ fullPart ct)) (restPart ct) a n =
      ghash h (pad16 aad ++ pad16 ct ++ bigEndian64 (8 * a.toNat) ++ bigEndian64 (8 * n.toNat)) := by
  have haad := pad16_length_mod aad
  have hboth : (pad16 aad ++ pad16 ct).length % 16 = 0 := by
    rw [List.length_append, Nat.add_mod, haad, pad16_length_mod]
  rw [finalAcc, ghLenBlock_eq_ghashFrom, ghash, ghashFrom_append h 0 _ haad, foldPartial_stream,
    ← ghashFrom_append h 0 _ haad, ← ghashFrom_append h 0 _ hboth, ← List.append_assoc, ghash]

/-- An AAD length that the chip admits (R95), as the 64-bit counter holds it. -/
theorem toNat_ofNat_of_le_maxAad {n : Nat} (h : n ≤ Config.chip.maxAad) : (BitVec.ofNat 64 n).toNat = n := by
  have hmax : Config.chip.maxAad = 2 ^ 61 - 1 := rfl
  rw [BitVec.toNat_ofNat, Nat.mod_eq_of_lt (by omega)]

/-- R100: FINISH computes the tag in DATADONE on an expected tag of the right length, and ends the session with it. -/
theorem execFinish_completes {e : List Byte} {s : State} {d : Dir} {t : BitVec 5} {h acc ek0 : Block} {buf : List Byte}
    {a n : BitVec 64} (hp : s.phase = .dataDone) (hd : s.dir = some d) (ht : s.taglen = some t)
    (hlen : finishLengthOk d t e.length = true) (hh : s.h = some h) (hacc : s.acc = some acc) (hbuf : s.buf = some buf)
    (ha : s.alen = some a) (hn : s.dlen = some n) (hek0 : s.ek0 = some ek0) :
    execFinish e s = .next (conclude .finished d (sessionTag ek0 (finalAcc h acc buf a n) t) e s) := by
  simp [execFinish, hp, transition, hd, ht, hlen, hh, hacc, hbuf, ha, hn, hek0]

/-- R67, R26: what FINISH folds in a session of `m` is what R105 hashes. -/
theorem Message.finalAcc_eq_ghash {m : Message} (h : Block) (haad : m.aad.length ≤ Config.chip.maxAad)
    (hdata : m.data.length ≤ Config.maxData) :
    finalAcc h (ghash h (pad16 m.aad ++ fullPart (m.ciphertext Config.chip))) (restPart (m.ciphertext Config.chip))
      (BitVec.ofNat 64 m.aad.length) (BitVec.ofNat 64 m.data.length) = ghash h (m.hashInput Config.chip) := by
  rw [finalAcc_stream, toNat_ofNat_of_le_maxAad haad, toNat_ofNat_of_le_maxData hdata, hashInput, m.ciphertext_length]

/-- R67, R101, R105: in DATADONE the tag FINISH computes is the tag of the message, in both directions. -/
theorem Message.DataDone.exec_finish {m : Message} {s : State} {e : List Byte} (hm : m.DataDone Config.chip s)
    (hlen : finishLengthOk m.dir m.taglen e.length = true) :
    exec (.finish e) s = .next (conclude .finished m.dir (m.tag Config.chip) e s) := by
  rw [Message.tag, ← finalAcc_eq_ghash _ hm.alen_le hm.dlen_le]
  exact execFinish_completes hm.phase hm.dir hm.taglen hlen hm.h hm.acc hm.buf hm.alen hm.dlen hm.ek0

/-- Settles O44: in an ENC session the empty payload has the right length, and the tag of the message is emitted. -/
theorem finishAnswersTheTagOfTheMessage : Obligations.FinishAnswersTheTagOfTheMessage := by
  intro m s hm hdir
  have hlen : finishLengthOk m.dir m.taglen ([] : List Byte).length = true := by rw [hdir]; rfl
  refine ⟨_, hm.exec_finish hlen, ?_⟩
  rw [hdir]
  exact ⟨rfl, rfl⟩

end Sys2Proof.Machine

/-! ## Proofs of the keystream family (42_ctr_keystream.md): inc32 as a counter on the low 32 bits (R71), its period and
what follows for a session's counters (R76), and XOR_BYTE (R72, R73) -/

namespace Sys2Proof.Machine

/-! ### The counter (R71, R76) -/

/-- R71: the split that inc32 respects: a Block is its upper 96 and its low 32 bits. -/
theorem block_eq_of_halves {x y : Block} (hhigh : x >>> 32 = y >>> 32) (hlow : x.setWidth 32 = y.setWidth 32) : x = y := by
  have hdiv := congrArg BitVec.toNat hhigh
  have hmod := congrArg BitVec.toNat hlow
  rw [BitVec.toNat_ushiftRight, BitVec.toNat_ushiftRight, Nat.shiftRight_eq_div_pow, Nat.shiftRight_eq_div_pow] at hdiv
  rw [BitVec.toNat_setWidth, BitVec.toNat_setWidth] at hmod
  exact BitVec.eq_of_toNat_eq (by omega)

/-- R71: inc32 adds one to the low 32 bits, with wraparound. -/
theorem inc32_setWidth (x : Block) : (inc32 x).setWidth 32 = x.setWidth 32 + 1 := by
  have hmask : (~~~(0xFFFFFFFF#128) : Block).setWidth 32 = 0#32 := by decide
  have hmask' : (0xFFFFFFFF#128 : Block).setWidth 32 = BitVec.allOnes 32 := by decide
  have hone : (1 : Block).setWidth 32 = 1 := by decide
  rw [inc32, BitVec.setWidth_or, BitVec.setWidth_and, BitVec.setWidth_and, hmask, hmask', BitVec.and_zero,
    BitVec.zero_or, BitVec.and_allOnes, BitVec.setWidth_add _ _ (by decide), hone]

theorem inc32Iter_ushiftRight (x : Block) (j : Nat) : inc32Iter x j >>> 32 = x >>> 32 := by
  induction j with
  | zero => rfl
  | succ j ih => rw [inc32Iter_succ, inc32_ushiftRight, ih]

theorem inc32Iter_setWidth (x : Block) (j : Nat) : (inc32Iter x j).setWidth 32 = x.setWidth 32 + BitVec.ofNat 32 j := by
  induction j with
  | zero => exact (BitVec.add_zero _).symm
  | succ j ih => rw [inc32Iter_succ, inc32_setWidth, ih, BitVec.add_assoc, BitVec.ofNat_add]; rfl

/-- R71, R76: two counters of one session agree exactly when their numbers do modulo 2^32. -/
theorem inc32Iter_eq_inc32Iter_iff (x : Block) (j k : Nat) : inc32Iter x j = inc32Iter x k ↔ j % 2 ^ 32 = k % 2 ^ 32 := by
  have hofNat : BitVec.ofNat 32 j = BitVec.ofNat 32 k ↔ j % 2 ^ 32 = k % 2 ^ 32 := by
    rw [← BitVec.toNat_inj, BitVec.toNat_ofNat, BitVec.toNat_ofNat]
  rw [← hofNat]
  constructor
  · intro h
    have hlow := congrArg (BitVec.setWidth 32) h
    rw [inc32Iter_setWidth, inc32Iter_setWidth] at hlow
    exact (BitVec.add_right_inj _).1 hlow
  · intro h
    exact block_eq_of_halves (by rw [inc32Iter_ushiftRight, inc32Iter_ushiftRight])
      (by rw [inc32Iter_setWidth, inc32Iter_setWidth, h])

/-- R71: the period of inc32 on every Block is 2^32. -/
theorem inc32Iter_eq_self_iff (x : Block) (j : Nat) : inc32Iter x j = x ↔ j % 2 ^ 32 = 0 :=
  inc32Iter_eq_inc32Iter_iff x j 0

theorem inc32_injective : Function.Injective inc32 := by
  intro x y h
  have hhigh : x >>> 32 = y >>> 32 := by rw [← inc32_ushiftRight x, h, inc32_ushiftRight]
  have hlow : x.setWidth 32 + 1 = y.setWidth 32 + 1 := by rw [← inc32_setWidth x, h, inc32_setWidth]
  exact block_eq_of_halves hhigh ((BitVec.add_left_inj _).1 hlow)

/-- R71: the Block before `y` is 2^32 - 1 increments after it. -/
theorem inc32_surjective : Function.Surjective inc32 := by
  intro y
  refine ⟨inc32Iter y (2 ^ 32 - 1), ?_⟩
  rw [← inc32Iter_succ, inc32Iter_eq_self_iff]
  decide

/-- Settles O58: on the two parts of a Block inc32 is the identity and the addition of one. -/
theorem inc32IsACounterOn32Bits : Obligations.Inc32IsACounterOn32Bits :=
  ⟨fun x => ⟨inc32_ushiftRight x, inc32_setWidth x⟩, fun _ => rfl, ⟨inc32_injective, inc32_surjective⟩,
    inc32Iter_eq_self_iff, by decide, by decide⟩

/-- Settles O59: numbers below 2^32 that agree modulo 2^32 are equal. -/
theorem counterNeverRepeats : Obligations.CounterNeverRepeats := by
  intro j0 j k hj hk h
  have hmod := (inc32Iter_eq_inc32Iter_iff j0 j k).1 h
  omega

/-! ### XOR_BYTE (R72, R73) -/

theorem cipherByte_eq_ite (dir : Dir) (input output : Byte) :
    cipherByte dir input output = if dir = .enc then output else input := by cases dir <;> rfl

/-- R72, R73: XOR_BYTE with the keystream block it uses named: KS_NEXT writes CTR and requests the cipher, and runs at
BUFLEN = 0 alone. -/
theorem xorByte_eq_xorStore {c : Config} {key : Key} {x : Stream} {ks : Block} (h : Block) (dir : Dir) (b : Byte)
    (hks : x.buf = [] ∧ ks = c.cipher key x.ctr ∨ x.buf ≠ [] ∧ x.ks = some ks) :
    xorByte c key h dir x b = xorStore h dir
      { x with
        ks := some ks, ctr := if x.buf = [] then inc32 x.ctr else x.ctr,
        requests := x.requests ++ if x.buf = [] then [.encrypt x.ctr] else [] } ks b := by
  rcases hks with ⟨hbuf, rfl⟩ | ⟨hbuf, hks⟩
  · simp only [xorByte, hbuf, if_true, ksNext, Option.getD_some]
  · simp only [xorByte, hbuf, if_false, hks, Option.getD_some, List.append_nil]
    rw [← hks]

/-- Settles O29: after KS_NEXT, if it ran, XOR_BYTE stores one byte, and folds BUF exactly when that fills it. -/
theorem xorByteIsTheDatapath : Obligations.XorByteIsTheDatapath := by
  intro c key h dir x b ks _ hks
  refine ⟨_, rfl, ?_⟩
  rw [xorByte_eq_xorStore h dir b hks, ← cipherByte_eq_ite dir b, xorStore]
  by_cases hlast : x.buf.length = 15
  · simp [hlast, ghUpdate]
  · simp [hlast]

end Sys2Proof.Machine

/-! ## Proofs of the session family (43_session_commands.md): the phase table (R80), the six commands one by one (R90 to R103),
the cutting of AAD and data (R97, R104), and the function a session computes (R105), by SEAL and OPEN too (R110, R111) -/

namespace Sys2Proof.Machine

/-! ### The phase table (R80) -/

theorem transition_init (p : Phase) (d : Dir) (n : BitVec 5) (key : List Byte) :
    transition p (.init d n key) = some .created := by simp [transition]

theorem transition_setIv (p : Phase) (iv : List Byte) :
    transition p (.setIv iv) = if p = .created then some .ivSet else none := by cases p <;> rfl

theorem transition_addAad (p : Phase) (aad : List Byte) :
    transition p (.addAad aad) = if p = .ivSet then some .ivSet else none := by cases p <;> rfl

theorem transition_finishAad (p : Phase) :
    transition p .finishAad = if p = .ivSet then some .aadDone else none := by cases p <;> rfl

theorem transition_process_eq (p : Phase) (data : List Byte) : transition p (.process data) =
    if p = .ivSet ∨ p = .aadDone ∨ p = .dataDone then some .dataDone else none := by cases p <;> rfl

theorem transition_finish_eq (p : Phase) (e : List Byte) :
    transition p (.finish e) = if p = .dataDone then some .finished else none := by cases p <;> rfl

/-- R80: a command that answers an error leaves FAILED, and one that answers OK the phase of the table. -/
theorem exec_phase {i : Instr} {s t : State} {r : Response} (hx : exec i s = .next t) (hr : t.rsp = s.rsp ++ [r]) :
    (r.status ≠ .ok ∧ t.phase = .failed) ∨ (r.status = .ok ∧ transition s.phase i = some t.phase) := by
  rcases exec_cases hx with ⟨st, cs, hst, rfl, -⟩ | ⟨d, n, key, rfl, -, -, rfl⟩ | ⟨iv, key, h, rfl, hp, -, -, -, rfl⟩ |
    ⟨aad, rfl, hp, a, h, acc, buf, -, -, -, -, -, rfl⟩ | ⟨rfl, hp, h, acc, buf, -, -, -, rfl⟩ |
    ⟨data, rfl, hp, n, d, key, h, acc, ctr, buf, -, -, -, -, -, -, -, -, -, -, rfl⟩ | ⟨e, o, tag, rfl, hp, rfl, -⟩ <;>
  obtain rfl : _ = r := by simpa using hr
  · exact .inl ⟨hst, rfl⟩
  · exact .inr ⟨rfl, transition_init ..⟩
  · exact .inr ⟨rfl, by simp [transition_setIv, hp]⟩
  · exact .inr ⟨rfl, by simp [transition_addAad, hp]⟩
  · exact .inr ⟨rfl, by simp [transition_finishAad, hp]⟩
  · exact .inr ⟨rfl, transition_process.2 ⟨rfl, hp⟩⟩
  · exact .inr ⟨rfl, transition_finish.2 ⟨rfl, hp⟩⟩

/-- R80, R127: the same for a step on a pair, legal or not. -/
theorem step_phase {s t : State} {h : Header} {p : List Byte} {rest : List HostEvent} {r : Response}
    (hs : s.host = .command h p :: rest) (hx : step s = .next t) (hr : t.rsp = s.rsp ++ [r]) :
    (r.status ≠ .ok ∧ t.phase = .failed) ∨
    (r.status = .ok ∧ ∃ i, decode h p = .ok i ∧ transition s.phase i = some t.phase) := by
  cases hd : decode h p with
  | error e =>
    cases (step_of_decode_error hs hd).symm.trans hx
    obtain rfl : _ = r := by simpa using hr
    exact .inl ⟨by decide, rfl⟩
  | ok i =>
    rcases exec_phase ((step_of_decode_ok hs hd).symm.trans hx) hr with hfail | ⟨hok, ht⟩
    · exact .inl hfail
    · exact .inr ⟨hok, i, rfl, ht⟩

/-- Settles O16: the table entry by entry, and the two cases of `exec_phase` and `step_phase`. -/
theorem phasesFollowTheTable : Obligations.PhasesFollowTheTable := by
  refine ⟨fun p d t key x => ⟨transition_init .., transition_setIv .., transition_addAad .., transition_finishAad _,
    transition_process_eq .., transition_finish_eq ..⟩, fun i s t r hx hr => ?_, fun s t h p rest r hs hx hr => ?_⟩
  · rcases exec_phase hx hr with ⟨hne, hp⟩ | ⟨hok, ht⟩
    · exact ⟨fun hok => absurd hok hne, fun _ => hp⟩
    · exact ⟨fun _ => ht, fun hne => absurd hok hne⟩
  · rcases step_phase hs hx hr with ⟨hne, hp⟩ | ⟨hok, ht⟩
    · exact ⟨fun hok => absurd hok hne, fun _ => hp⟩
    · exact ⟨fun _ => ht, fun hne => absurd hok hne⟩

/-! ### INIT (R90, R91) -/

theorem keyLengthOk_eq_false_iff {c : Config} {len : Nat} : keyLengthOk c len = false ↔ len ∉ c.keyLens := by
  simp [keyLengthOk]

theorem tagLengthOk_eq_false_iff {c : Config} {t : BitVec 5} :
    tagLengthOk c t = false ↔ t.toNat < c.tagMin ∨ 16 < t.toNat := by
  rw [← Bool.not_eq_true, tagLengthOk, Bool.and_eq_true, decide_eq_true_eq, decide_eq_true_eq, not_and_or, not_le, not_le,
    Config.tagMax]

/-- Settles O19: the two checks in their order, then every element is written. -/
theorem initChecksThenCreates : Obligations.InitChecksThenCreates := by
  intro c d t key s
  simp only [execInitIn, keyLengthOk_eq_false_iff, tagLengthOk_eq_false_iff]
  split_ifs <;> rfl

/-- Settles O20: on the chip the key length and the tag length pass both checks. -/
theorem initCompletes : Obligations.InitCompletes := by
  intro d t key s hkey hmin hmax
  have hk : key.length ∈ Config.chip.keyLens := by simpa [Config.chip, Config.withCipher] using hkey
  have ht : ¬ (t.toNat < Config.chip.tagMin ∨ 16 < t.toNat) := fun ht => ht.elim hmin.not_gt hmax.not_gt
  rw [exec_init, initChecksThenCreates, if_neg (not_not.2 hk), if_neg ht]
  rfl

/-- Settles O21: which of its three outcomes INIT has depends on its operands alone, and each writes every element, ERR apart
where INIT is refused. -/
theorem initForgetsTheOldSession : Obligations.InitForgetsTheOldSession := by
  intro d t key s₁ s₂ t₁ t₂ h₁ h₂
  rw [exec_init, initChecksThenCreates] at h₁ h₂
  split_ifs at h₁ h₂ <;> cases h₁ <;> cases h₂
  · exact ⟨rfl, ⟨_, rfl, rfl, rfl, rfl⟩, by simp⟩
  · exact ⟨rfl, ⟨_, rfl, rfl, rfl, rfl⟩, fun _ => rfl⟩
  · exact ⟨rfl, ⟨_, rfl, rfl, rfl, rfl⟩, by simp⟩

/-! ### SET_IV (R92, R93) -/

/-- Settles O22: the phase table, the check of the IV, and the completion. -/
theorem setIvChecksThenDerives : Obligations.SetIvChecksThenDerives := by
  intro iv s
  refine ⟨fun hp => exec_of_not_admitted (by rw [transition_setIv, if_neg hp]), ?_, fun key h hp hiv hk hh => ?_⟩
  · rintro hp rfl
    simp [exec_setIv, execSetIvIn, transition_setIv, hp, ivLengthOk]
  · exact execSetIvIn_completes hp hiv hk hh

/-- R93: the GHASH path micro-operation by micro-operation: the padded IV is its full chunks and a final short one. -/
theorem deriveJ0_eq_ghLenBlock (h : Block) {iv : List Byte} (hlen : iv.length ≠ 12) :
    deriveJ0 h iv = ghLenBlock h (foldPartial h (ghashFrom h 0 (fullPart iv)) (restPart iv)) 0 (8 * iv.length) := by
  rw [deriveJ0, if_neg hlen, ghLenBlock_eq_ghashFrom, foldPartial_stream, ← ghashFrom_append _ _ _ (pad16_length_mod iv),
    ghash, List.append_assoc]

/-- Settles O23: the two paths by definition, the second by its micro-operations too, and the example computed. -/
theorem initialCounterDerivation : Obligations.InitialCounterDerivation := by
  refine ⟨fun h iv _ => ⟨fun hlen => if_pos hlen, fun hlen => ⟨if_neg hlen, deriveJ0_eq_ghLenBlock h hlen⟩⟩, ?_⟩
  decide +kernel

/-! ### ADD_AAD and FINISH_AAD (R94 to R97) -/

/-- R94: the loop of ADD_AAD from any ACC, the waiting bytes being less than a chunk. -/
theorem absorb_eq (h acc : Block) {buf : List Byte} (hbuf : buf.length ≤ 15) (x : List Byte) :
    absorb h (acc, buf) x = (ghashFrom h acc (fullPart (buf ++ x)), restPart (buf ++ x)) := by
  have hstream := absorb_stream h acc buf x
  obtain ⟨hfull, hrest⟩ := fullPart_of_short hbuf
  rwa [hfull, hrest, ghashFrom_nil] at hstream

/-- Settles O24: ADD_AAD completes, and its loop is that of a stream. -/
theorem addAadFoldsCompleteChunks : Obligations.AddAadFoldsCompleteChunks := by
  intro aad s a h acc buf hp ha hfit hh hacc hbuf hlen
  rw [exec_addAad, execAddAadIn_completes hp ha hfit hh hacc hbuf, absorb_eq h acc hlen, ← hp]
  rfl

/-- R95: ADD_AAD past the capacity. -/
theorem execAddAadIn_exceeds {c : Config} {aad : List Byte} {s : State} {a : BitVec 64} (hp : s.phase = .ivSet)
    (ha : s.alen = some a) (hbig : c.maxAad < a.toNat + aad.length) :
    execAddAadIn c aad s = .next (s.raiseError .capacityExceeded) := by
  simp [execAddAadIn, transition_addAad, hp, ha, aadFits, hbig]

/-- R22, R133: `raise` leaves the same registers from any two states outside FAILED. -/
theorem registers_raiseError {s t : State} (hs : s.phase ≠ .failed) (ht : t.phase ≠ .failed) (st : Status) :
    (s.raiseError st).registers = (t.raiseError st).registers := by
  simp [State.raiseError, State.registers, State.respond, State.dropSession, State.stickyErr, hs, ht]

/-- Settles O25: once the first ADD_AAD has succeeded, the second meets the capacity, or goes on with the loop, exactly where
the joined one does. -/
theorem addAadMayBeCut : Obligations.AddAadMayBeCut := by
  intro x y s t u hx hok hy
  rcases execAddAadIn_cases hx with ⟨-, rfl⟩ | ⟨-, _, -, -, rfl⟩ | ⟨hp, a, h, acc, buf, ha, hfit, hh, hacc, hbuf, rfl⟩
  · simp at hok
  · simp at hok
  have hsum : (a + BitVec.ofNat 64 x.length).toNat = a.toNat + x.length :=
    toNat_add_ofNat_of_lt (hfit.trans_lt (by decide))
  rcases execAddAadIn_cases (exec_addAad y _ ▸ hy) with ⟨hno, -⟩ | ⟨-, a', ha', hbig, rfl⟩ |
    ⟨-, a', h', acc', buf', ha', hfit', hh', hacc', hbuf', rfl⟩
  · simp [transition_addAad] at hno
  · cases ha'
    refine ⟨_, execAddAadIn_exceeds hp ha ?_, registers_raiseError (by simp [hp]) (by simp) _, rfl, by simp⟩
    rwa [List.length_append, ← Nat.add_assoc, ← hsum]
  · cases ha'
    cases hacc'
    cases hbuf'
    cases hh.symm.trans hh'
    refine ⟨_, execAddAadIn_completes hp ha ?_ hh hacc hbuf, ?_, rfl, by simp⟩
    · rwa [List.length_append, ← Nat.add_assoc, ← hsum]
    · rw [absorb_append, List.length_append, BitVec.ofNat_add, ← BitVec.add_assoc]
      rfl

/-- R44: the one pair that decodes to FINISH_AAD. -/
theorem decode_eq_finishAad_iff {h : Header} {p : List Byte} :
    decode h p = .ok .finishAad ↔ h = 0x0400000000000000 ∧ p = [] := by
  have henc : encode .finishAad = 0x0400000000000000 := by decide
  constructor
  · intro hd
    obtain ⟨-, rfl, rfl⟩ := encodeOfDecodeGivesThePair h p _ hd
    exact ⟨henc, rfl⟩
  · rintro ⟨rfl, rfl⟩
    exact henc ▸ decodeOfEncodeGivesTheCommand .finishAad rfl

/-- Settles O26: its encoding, the phase table, and the completion. -/
theorem finishAadClosesTheAad : Obligations.FinishAadClosesTheAad :=
  ⟨fun _ _ => decode_eq_finishAad_iff, fun _ => ⟨fun hp => exec_of_not_admitted (by rw [transition_finishAad, if_neg hp]),
    fun _ _ _ hp hh hacc hbuf => execFinishAad_completes hp hh hacc hbuf⟩⟩

/-! ### PROCESS (R98, R99) -/

theorem emitted_eq_ite (d : Dir) (out : List Byte) : emitted d out = if d = .enc then out else [] := by cases d <;> rfl

theorem heldBack_eq_ite (d : Dir) (out : List Byte) : heldBack d out = if d = .dec then out else [] := by cases d <;> rfl

theorem emitted_append (d : Dir) (x y : List Byte) : emitted d (x ++ y) = emitted d x ++ emitted d y := by cases d <;> rfl

theorem heldBack_append (d : Dir) (x y : List Byte) : heldBack d (x ++ y) = heldBack d x ++ heldBack d y := by
  cases d <;> rfl

/-- Settles O28: PROCESS completes, and the loop puts out one byte a byte. -/
theorem processCompletes : Obligations.ProcessCompletes := by
  intro data s n d key h acc ctr buf hp hn hfit hd hhold hk hh hacc hctr hbuf hks
  have hroom : holdFits Config.chip d s.hold.length data.length = true := by
    cases d
    · rfl
    · exact decide_eq_true (hhold rfl)
  have hready : (openStream s.phase h acc ctr s.ks buf).buf = [] ∨
      (openStream s.phase h acc ctr s.ks buf).ks.isSome = true := by
    rw [openStream_buf, openStream_ks]
    split_ifs with hiv
    · exact .inl rfl
    · tauto
  refine ⟨_, rfl, by simp [xorBytes_out_length], ?_⟩
  rw [exec_process, execProcessIn_completes hp hn hfit hd hroom hk hh hacc hctr hbuf hready, ← emitted_eq_ite,
    ← heldBack_eq_ite]
  rfl

/-- R75, R99: PROCESS past one of the two capacities. -/
theorem execProcessIn_exceeds {c : Config} {data : List Byte} {s : State} {n : BitVec 64}
    (hp : s.phase = .ivSet ∨ s.phase = .aadDone ∨ s.phase = .dataDone) (hn : s.dlen = some n)
    (hbig : Config.maxData < n.toNat + data.length ∨ s.dir = some .dec ∧ c.holdCap < s.hold.length + data.length) :
    execProcessIn c data s = .next (s.raiseError .capacityExceeded) := by
  have ht : transition s.phase (.process data) = some .dataDone := transition_process.2 ⟨rfl, hp⟩
  by_cases hfit : n.toNat + data.length ≤ Config.maxData
  · obtain ⟨hd, hhold⟩ := hbig.resolve_left hfit.not_gt
    simp [execProcessIn, ht, hn, hd, holdFits, hhold]
  · simp [execProcessIn, ht, hn, dataFits, hfit]

/-- R98: the first element PROCESS reads is DLEN. -/
theorem exists_dlen_of_execProcessIn {c : Config} {data : List Byte} {s t : State}
    (hp : transition s.phase (.process data) = some .dataDone) (hx : execProcessIn c data s = .next t) :
    ∃ n, s.dlen = some n := by
  rw [execProcessIn, hp] at hx
  obtain ⟨n, hn, -⟩ := readReg_eq_next.1 hx
  exact ⟨n, hn⟩

/-- R97: PROCESS in IVSET starts from the registers FINISH_AAD leaves. -/
theorem openStream_ivSet (h acc ctr : Block) (ks : Option Block) (buf : List Byte) :
    openStream .ivSet h acc ctr ks buf = openStream .aadDone h (foldPartial h acc buf) ctr ks [] := rfl

/-- Settles O27: FINISH_AAD changes none of what PROCESS checks, and leaves the registers PROCESS would make itself. -/
theorem finishAadMayBeOmitted : Obligations.FinishAadMayBeOmitted := by
  intro data s t u hx hok hy
  rcases execFinishAad_cases hx with ⟨-, rfl⟩ | ⟨hp, h, acc, buf, hh, hacc, hbuf, rfl⟩
  · simp at hok
  rw [exec_process] at hy
  rcases execProcessIn_cases hy with ⟨hno, -⟩ | ⟨hadm, rfl, hbig⟩ |
    ⟨-, n, d, key, h', acc', ctr, buf', hn, hfit, hd, hhold, hk, hh', hacc', hctr, hbuf', hks, rfl⟩
  · simp [transition_process_eq] at hno
  · obtain ⟨n, hn⟩ := exists_dlen_of_execProcessIn hadm hy
    refine ⟨_, execProcessIn_exceeds (.inl hp) hn ?_, registers_raiseError (by simp [hp]) (by simp) _, rfl, by simp⟩
    refine hbig.imp_left fun ⟨n', hn', hbig⟩ => ?_
    cases hn.symm.trans hn'
    exact hbig
  · cases hacc'
    cases hbuf'
    cases hh.symm.trans hh'
    refine ⟨_, execProcessIn_completes (.inl hp) hn hfit hd hhold hk hh hacc hctr hbuf ?_, ?_⟩
    · simp [hp]
    · simp only [hp, openStream_ivSet]
      exact ⟨rfl, rfl, by simp⟩

/-! #### Two PROCESS commands and one (R104) -/

/-- A stream with output bytes and cipher requests put in front of its own. -/
def Stream.prepend (out : List Byte) (rs : List CipherRequest) (d : Stream) : Stream :=
  { d with out := out ++ d.out, requests := rs ++ d.requests }

/-- R73: the second half of XOR_BYTE does not look at what was put out or requested before. -/
theorem xorStore_prepend (h : Block) (dir : Dir) (out : List Byte) (rs : List CipherRequest) (d : Stream) (ks : Block)
    (b : Byte) : xorStore h dir (d.prepend out rs) ks b = (xorStore h dir d ks b).prepend out rs := by
  by_cases hlast : d.buf.length = 15 <;> simp [xorStore, Stream.prepend, hlast]

/-- R73: nor does XOR_BYTE. -/
theorem xorByte_prepend (c : Config) (key : Key) (h : Block) (dir : Dir) (out : List Byte) (rs : List CipherRequest)
    (d : Stream) (b : Byte) : xorByte c key h dir (d.prepend out rs) b = (xorByte c key h dir d b).prepend out rs := by
  have hnext : ksNext c key (d.prepend out rs) = (ksNext c key d).prepend out rs := by simp [ksNext, Stream.prepend]
  by_cases hbuf : d.buf = []
  · have hbuf' : (d.prepend out rs).buf = [] := hbuf
    rw [xorByte, if_pos hbuf', xorByte, if_pos hbuf, hnext]
    exact xorStore_prepend ..
  · have hbuf' : (d.prepend out rs).buf ≠ [] := hbuf
    rw [xorByte, if_neg hbuf', xorByte, if_neg hbuf]
    exact xorStore_prepend ..

/-- R98: nor does the loop. -/
theorem xorBytes_prepend (c : Config) (key : Key) (h : Block) (dir : Dir) (out : List Byte) (rs : List CipherRequest)
    (d : Stream) (x : List Byte) : xorBytes c key h dir (d.prepend out rs) x = (xorBytes c key h dir d x).prepend out rs := by
  induction x generalizing d with
  | nil => rfl
  | cons b x ih => exact (congrArg (xorBytes c key h dir · x) (xorByte_prepend ..)).trans (ih _)

/-- R98: in DATADONE PROCESS goes on from the registers of the last PROCESS, its output and its requests apart. -/
theorem prepend_openStream_dataDone (h : Block) (d : Stream) :
    (openStream .dataDone h d.acc d.ctr d.ks d.buf).prepend d.out d.requests = d := by
  simp [openStream, Stream.prepend]

/-- R98, R104: the loop on a joined payload is the loop on the first, then the loop of a PROCESS in DATADONE on the second. -/
theorem xorBytes_joined (c : Config) (key : Key) (h : Block) (dir : Dir) (d d' : Stream) (x y : List Byte)
    (hd' : d' = xorBytes c key h dir d x) :
    xorBytes c key h dir d (x ++ y) =
      (xorBytes c key h dir (openStream .dataDone h d'.acc d'.ctr d'.ks d'.buf) y).prepend d'.out d'.requests := by
  rw [← xorBytes_prepend, prepend_openStream_dataDone, xorBytes_append, hd']

section
variable (s : State) (p : Phase) (dir : Dir) (n : BitVec 64) (k l : Nat) (d d' : Stream)

/-- R98, R104: closing two streams one after the other leaves the registers that closing the joined one does. -/
theorem closeStream_closeStream_registers :
    ((s.closeStream p dir n k d).closeStream p dir (n + BitVec.ofNat 64 k) l d').registers =
      (s.closeStream p dir n (k + l) (d'.prepend d.out d.requests)).registers := by
  simp [State.closeStream, State.registers, State.request, State.respond, Stream.prepend, BitVec.ofNat_add,
    BitVec.add_assoc, heldBack_append]

/-- R35, R104: and the same cipher requests. -/
theorem closeStream_closeStream_ciph :
    ((s.closeStream p dir n k d).closeStream p dir (n + BitVec.ofNat 64 k) l d').ciph =
      (s.closeStream p dir n (k + l) (d'.prepend d.out d.requests)).ciph := by
  simp [Stream.prepend]

end

/-- R99, R104: after a PROCESS that put out one byte a byte, the hold limit for a second payload is that for the joined one. -/
theorem holdFits_heldBack {c : Config} {dir : Dir} {held k : Nat} {out : List Byte} :
    holdFits c dir (held + (heldBack dir out).length) k = holdFits c dir held (out.length + k) := by
  cases dir
  · rfl
  · simp [holdFits, heldBack, Nat.add_assoc]

/-- Settles O31: once the first PROCESS has succeeded, the second meets a capacity, or goes on with the loop, exactly where the
joined one does. -/
theorem processMayBeCut : Obligations.ProcessMayBeCut := by
  intro x y s t u r₁ r₂ hx hr₁ hok hy hr₂
  rcases execProcessIn_cases hx with ⟨-, rfl⟩ | ⟨-, rfl, -⟩ |
    ⟨hadm, n, d, key, h, acc, ctr, buf, hn, hfit, hd, hhold, hk, hh, hacc, hctr, hbuf, hks, rfl⟩ <;>
  obtain rfl : _ = r₁ := by simpa using hr₁
  · cases hok
  · cases hok
  obtain ⟨-, hp⟩ := transition_process.1 hadm
  have hout := xorBytes_out_length Config.chip key h d (openStream s.phase h acc ctr s.ks buf) x
  rw [openStream_out, List.length_nil, Nat.zero_add] at hout
  have hjoin := xorBytes_joined Config.chip key h d (openStream s.phase h acc ctr s.ks buf) _ x y rfl
  generalize xorBytes Config.chip key h d (openStream s.phase h acc ctr s.ks buf) x = X at *
  have hsum : (n + BitVec.ofNat 64 x.length).toNat = n.toNat + x.length :=
    toNat_add_ofNat_of_lt (hfit.trans_lt (by decide))
  rw [exec_process] at hy
  rcases execProcessIn_cases hy with ⟨hno, -⟩ | ⟨-, rfl, hbig⟩ |
    ⟨-, n', d', key', h', acc', ctr', buf', hn', hfit', hd', hhold', hk', hh', hacc', hctr', hbuf', -, rfl⟩
  · simp [transition_process_eq] at hno
  · obtain rfl : _ = r₂ := by simpa using hr₂
    refine ⟨_, _, execProcessIn_exceeds hp hn ?_, State.raiseError_rsp .., registers_raiseError ?_ (by simp) _, rfl, nofun⟩
    · rw [List.length_append, ← Nat.add_assoc, ← hsum]
      refine hbig.imp (fun ⟨n', hn', hbig⟩ => ?_) fun ⟨hdec, hbig⟩ => ?_
      · cases hn'
        exact hbig
      · cases hd.symm.trans hdec
        exact ⟨hd, by simpa [heldBack, hout, Nat.add_assoc] using hbig⟩
    · rcases hp with hp | hp | hp <;> simp [hp]
  · obtain rfl : _ = r₂ := by simpa using hr₂
    cases hn'
    cases hacc'
    cases hctr'
    cases hbuf'
    cases hd.symm.trans hd'
    cases hk.symm.trans hk'
    cases hh.symm.trans hh'
    have hfit'' : n.toNat + (x ++ y).length ≤ Config.maxData := by
      rwa [List.length_append, ← Nat.add_assoc, ← hsum]
    have hhold'' : holdFits Config.chip d s.hold.length (x ++ y).length = true := by
      rwa [List.length_append, ← hout, ← holdFits_heldBack, ← List.length_append]
    refine ⟨_, _, execProcessIn_completes hp hn hfit'' hd hhold'' hk hh hacc hctr hbuf hks, State.closeStream_rsp .., ?_⟩
    rw [hjoin, List.length_append]
    exact ⟨(closeStream_closeStream_registers ..).symm, rfl, fun _ =>
      ⟨emitted_append .., (closeStream_closeStream_ciph ..).symm⟩⟩

/-! ### FINISH (R100 to R103, R106) -/

/-- R100: FINISH on an expected tag of the wrong length. -/
theorem execFinish_wrong_length {e : List Byte} {s : State} {d : Dir} {n : BitVec 5} (hp : s.phase = .dataDone)
    (hd : s.dir = some d) (hn : s.taglen = some n) (hlen : finishLengthOk d n e.length = false) :
    execFinish e s = .next (s.raiseError .invalidTagLength) := by
  simp [execFinish, transition_finish_eq, hp, hd, hn, hlen]

/-- R100: which expected tags do not fit the session. -/
theorem finishLengthOk_eq_false_iff {d : Dir} {n : BitVec 5} {len : Nat} :
    finishLengthOk d n len = false ↔ d = .enc ∧ len ≠ 0 ∨ d = .dec ∧ len ≠ n.toNat := by
  cases d <;> simp [finishLengthOk]

/-- R102, R103: in a DEC session the right tag releases HOLD. -/
theorem conclude_dec_of_eq (p : Phase) {t e : List Byte} (s : State) (h : t = e) :
    conclude p .dec t e s = (s.endSession p).respond .ok s.hold [] := if_pos h

/-- R102, R103: and any other raises AuthenticationError. -/
theorem conclude_dec_of_ne (p : Phase) {t e : List Byte} (s : State) (h : t ≠ e) :
    conclude p .dec t e s = s.raiseError .authenticationError := if_neg h

/-- Settles O33: the phase table, the check of the expected tag, and the end of the session with the tag computed. -/
theorem finishEmitsOrVerifiesTheTag : Obligations.FinishEmitsOrVerifiesTheTag := by
  intro e s
  refine ⟨fun hp => exec_of_not_admitted (by rw [transition_finish_eq, if_neg hp]), fun d n hp hd hn hlen =>
    execFinish_wrong_length hp hd hn (finishLengthOk_eq_false_iff.2 hlen), ?_⟩
  intro n h acc buf a len ek0 hp hn hh hacc hbuf ha hlen hek0
  have hend {d : Dir} (hd : s.dir = some d) (hok : finishLengthOk d n e.length = true) :
      exec (.finish e) s = .next (conclude .finished d (sessionTag ek0 (finalAcc h acc buf a len) n) e s) :=
    execFinish_completes hp hd hn hok hh hacc hbuf ha hlen hek0
  have hdec {k : Nat} (hk : k = n.toNat) : finishLengthOk .dec n k = true := decide_eq_true hk
  refine ⟨sessionTag ek0 (finalAcc h acc buf a len) n, rfl, ?_, fun hd he htag => ?_, fun hd he htag => ?_⟩
  · rintro hd rfl
    exact hend hd rfl
  · rw [hend hd (hdec he), conclude_dec_of_eq _ _ htag]
    rfl
  · rw [hend hd (hdec he), conclude_dec_of_ne _ _ htag]

/-- Settles O34: FINISH compares with the tag of the message, and HOLD is its plaintext. -/
theorem onlyTheRightTagReleasesPlaintext : Obligations.OnlyTheRightTagReleasesPlaintext := by
  intro m s e hm hdir hlen
  have hx := hm.exec_finish (e := e) (by rw [hdir]; exact decide_eq_true hlen)
  rw [hdir] at hx
  refine ⟨fun htag => ⟨_, hx.trans (by rw [conclude_dec_of_eq _ _ htag.symm]), rfl, ?_⟩, fun htag => ?_⟩
  · rw [State.respond_rsp, State.endSession_rsp, hm.hold, if_pos hdir]
    rfl
  · rw [hx, conclude_dec_of_ne _ _ (Ne.symm htag)]

/-! ### A whole session (R104, R105) -/

/-- R100 to R103, R105: how the session of `m` answers a FINISH with the payload `e`. -/
def Message.finishResponse (c : Config) (m : Message) (e : List Byte) : Response :=
  if finishLengthOk m.dir m.taglen e.length = false then ⟨.invalidTagLength, .failed, [], []⟩
  else
    match m.dir with
    | .enc => ⟨.ok, .finished, [], m.tag c⟩
    | .dec =>
      if m.tag c = e then ⟨.ok, .finished, xorKeystream c m.key (m.j0 c) m.data, []⟩
      else ⟨.authenticationError, .failed, [], []⟩

/-- R133, R100: the registers after the last response of a session: those of a core without one, but for PHASE and ERR. -/
def endedRegisters (r : Response) : State := { State.reset with phase := r.phase, err := r.status }

/-- R100: FINISH at the end of the session of `m`. -/
theorem Message.DataDone.finish_response {m : Message} {s : State} (hm : m.DataDone Config.chip s) (e : List Byte) :
    ∃ t, exec (.finish e) s = .next t ∧ t.rsp = s.rsp ++ [m.finishResponse Config.chip e] ∧
      t.registers = endedRegisters (m.finishResponse Config.chip e) := by
  have hraise (st : Status) : (s.raiseError st).registers = endedRegisters ⟨st, .failed, [], []⟩ := by
    simp [State.raiseError, State.registers, State.respond, State.dropSession, State.stickyErr, hm.phase, endedRegisters,
      State.reset]
  have hend (o tag : List Byte) : ((s.endSession .finished).respond .ok o tag).registers =
      endedRegisters ⟨.ok, .finished, o, tag⟩ := by
    simp [State.endSession, State.registers, State.respond, State.dropSession, hm.err, endedRegisters, State.reset]
  cases hlen : finishLengthOk m.dir m.taglen e.length with
  | false =>
    refine ⟨_, execFinish_wrong_length hm.phase hm.dir hm.taglen hlen, ?_⟩
    rw [finishResponse, if_pos hlen]
    exact ⟨rfl, hraise _⟩
  | true =>
    refine ⟨_, hm.exec_finish hlen, ?_⟩
    rw [finishResponse, if_neg (by simp [hlen])]
    rcases conclude_cases .finished m.dir (m.tag Config.chip) e s with ⟨hdir, hc⟩ | ⟨hdir, htag, hc⟩ | ⟨hdir, htag, hc⟩
      <;> rw [hc] <;> simp only [hdir]
    · exact ⟨rfl, hend _ _⟩
    · rw [if_pos htag, hend, hm.hold, if_pos hdir]
      exact ⟨rfl, rfl⟩
    · rw [if_neg htag]
      exact ⟨rfl, hraise _⟩

/-! #### Commands that succeed one after another -/

/-- Issued from `s`, the commands `is` all succeed, put out the bytes `o` and no tag, and lead to `t`. -/
structure Succeeds (is : List Instr) (o : List Byte) (s t : State) : Prop where
  rsp : ∃ rs, t.rsp = s.rsp ++ rs ∧ rs.flatMap Response.dout = o ∧ rs.flatMap Response.tag = []
  run : ∀ js, issueAll exec (is ++ js) s = issueAll exec js t

theorem Succeeds.refl (s : State) : Succeeds [] [] s s := ⟨⟨[], by simp, rfl, rfl⟩, fun _ => rfl⟩

theorem Succeeds.trans {is js : List Instr} {o o' : List Byte} {s t u : State} (hst : Succeeds is o s t)
    (htu : Succeeds js o' t u) : Succeeds (is ++ js) (o ++ o') s u := by
  obtain ⟨⟨rs, hrs, hout, htag⟩, hrun⟩ := hst
  obtain ⟨⟨rs', hrs', hout', htag'⟩, hrun'⟩ := htu
  refine ⟨⟨rs ++ rs', by rw [hrs', hrs, List.append_assoc], ?_, ?_⟩, fun ks => ?_⟩
  · rw [List.flatMap_append, hout, hout']
  · rw [List.flatMap_append, htag, htag', List.append_nil]
  · rw [List.append_assoc, hrun, hrun']

/-- One command that answers OK. -/
theorem succeeds_of_exec {i : Instr} {s t : State} {p : Phase} {o : List Byte} (hx : exec i s = .next t)
    (hr : t.rsp = s.rsp ++ [⟨.ok, p, o, []⟩]) : Succeeds [i] o s t := by
  have hok : t.lastStatus = .ok := by simp [State.lastStatus, hr]
  refine ⟨⟨_, hr, by simp, rfl⟩, fun js => ?_⟩
  simp [issueAll, hx, hok]

/-- R47: INIT, SET_IV, ADD_AAD and FINISH_AAD put out nothing. -/
theorem succeeds_of_exec_silent {i : Instr} {s t : State} (hx : exec i s = .next t) (ht : t.phase ≠ .failed)
    (hdata : ∀ x, i ≠ .process x) (hfin : i.isFinish = false) : Succeeds [i] [] s t := by
  rcases exec_cases hx with ⟨st, cs, -, rfl, -⟩ | ⟨d, n, key, -, -, -, rfl⟩ | ⟨iv, key, h, -, -, -, -, -, rfl⟩ |
    ⟨aad, -, -, a, h, acc, buf, -, -, -, -, -, rfl⟩ | ⟨-, -, h, acc, buf, -, -, -, rfl⟩ |
    ⟨data, hi, -⟩ | ⟨e, o, tag, rfl, -⟩
  · exact absurd rfl ht
  · exact succeeds_of_exec hx rfl
  · exact succeeds_of_exec hx rfl
  · exact succeeds_of_exec hx rfl
  · exact succeeds_of_exec hx rfl
  · exact absurd hi (hdata data)
  · cases hfin

/-- R90, R92: INIT and SET_IV, from any state, with operands that the chip accepts. -/
theorem succeeds_init_setIv (d : Dir) {n : BitVec 5} {key iv : List Byte} (s : State)
    (hkey : key.length = 16 ∨ key.length = 24 ∨ key.length = 32) (hmin : 12 ≤ n.toNat) (hmax : n.toNat ≤ 16)
    (hiv : iv ≠ []) :
    ∃ t, Succeeds [.init d n key, .setIv iv] [] s t ∧ Message.IvSet Config.chip ⟨d, n, key, iv, [], []⟩ t := by
  have hx := initCompletes d n key s hkey hmin hmax
  obtain ⟨t, hx', ht⟩ := (initBeginsAMessage d n key iv s _ hx rfl).exec_setIv hiv
  exact ⟨t, (succeeds_of_exec hx rfl).trans
    (succeeds_of_exec_silent hx' (by simp [ht.phase]) (by simp) rfl), ht⟩

/-- R94, R104: the AAD in pieces. -/
theorem Message.IvSet.succeeds_addAad {m : Message} {s : State} (as : List (List Byte)) (hm : m.IvSet Config.chip s)
    (hfit : m.aad.length + as.flatten.length ≤ 2 ^ 61 - 1) :
    ∃ t, Succeeds (as.map .addAad) [] s t ∧ { m with aad := m.aad ++ as.flatten }.IvSet Config.chip t := by
  induction as generalizing m s with
  | nil => exact ⟨s, .refl s, by simpa using hm⟩
  | cons x as ih =>
    rw [List.flatten_cons, List.length_append, ← Nat.add_assoc] at hfit
    obtain ⟨t, hx, ht⟩ := hm.exec_addAad (x := x) (by omega)
    obtain ⟨u, htu, hu⟩ := ih ht (by rwa [List.length_append])
    refine ⟨u, (succeeds_of_exec_silent hx (by simp [ht.phase]) (by simp) rfl).trans htu, ?_⟩
    rwa [List.flatten_cons, ← List.append_assoc]

/-- R97, R104: FINISH_AAD or not, the session takes data. -/
theorem Message.IvSet.succeeds_finishAad {m : Message} {s : State} (fin : Bool) (hm : m.IvSet Config.chip s) :
    ∃ t, Succeeds (if fin then [.finishAad] else []) [] s t ∧ m.TakesData Config.chip t := by
  cases fin with
  | false => exact ⟨s, .refl s, hm.takesData⟩
  | true =>
    obtain ⟨t, hx, ht⟩ := hm.exec_finishAad
    exact ⟨t, succeeds_of_exec_silent hx (by simp [ht.phase]) (by simp) rfl, ht.takesData⟩

theorem xorKeystreamFrom_append (c : Config) (key : Key) (j0 : Block) (n : Nat) (x y : List Byte) :
    xorKeystreamFrom c key j0 n (x ++ y) = xorKeystreamFrom c key j0 n x ++ xorKeystreamFrom c key j0 (n + x.length) y := by
  simp only [xorKeystreamFrom, List.mapIdx_append, Nat.add_assoc, Nat.add_comm x.length]

/-- R98, R104: the data in pieces, one at least. -/
theorem Message.TakesData.succeeds_process {m : Message} {s : State} (ds : List (List Byte))
    (hm : m.TakesData Config.chip s) (hne : ds ≠ []) (hfit : m.data.length + ds.flatten.length ≤ Config.maxData) :
    ∃ t, Succeeds (ds.map .process)
        (emitted m.dir (xorKeystreamFrom Config.chip m.key (m.j0 Config.chip) m.data.length ds.flatten)) s t ∧
      { m with data := m.data ++ ds.flatten }.DataDone Config.chip t := by
  induction ds generalizing m s with
  | nil => exact absurd rfl hne
  | cons x ds ih =>
    rw [List.flatten_cons, List.length_append, ← Nat.add_assoc] at hfit
    obtain ⟨t, hx, ht, hr⟩ := hm.exec_process (x := x) (by omega)
    have hst := succeeds_of_exec hx hr
    rw [List.flatten_cons, xorKeystreamFrom_append, emitted_append, ← List.append_assoc]
    by_cases hds : ds = []
    · subst hds
      exact ⟨t, by simpa [xorKeystreamFrom, emitted_eq_ite] using hst, by simpa using ht⟩
    · obtain ⟨u, htu, hu⟩ := ih ht.takesData hds (by rwa [List.length_append])
      rw [List.length_append] at htu
      exact ⟨u, hst.trans htu, hu⟩

theorem xorKeystreamFrom_zero (c : Config) (key : Key) (j0 : Block) (x : List Byte) :
    xorKeystreamFrom c key j0 0 x = xorKeystream c key j0 x := by simp [xorKeystreamFrom, xorKeystream]

/-- R104, R105: what the host and the core are left with in `t` once the session of `m`, begun in `s`, has answered a FINISH
with the payload `e`. -/
structure Message.Ended (c : Config) (m : Message) (e : List Byte) (s t : State) : Prop where
  registers : t.registers = endedRegisters (m.finishResponse c e)
  lastStatus : t.lastStatus = (m.finishResponse c e).status
  dout : (newResponses s t).flatMap Response.dout =
    emitted m.dir (xorKeystream c m.key (m.j0 c) m.data) ++ (m.finishResponse c e).dout
  tag : (newResponses s t).flatMap Response.tag = (m.finishResponse c e).tag

/-- R100: FINISH ends the session of a message, all commands of which have succeeded. -/
theorem Message.DataDone.ended {m : Message} {is : List Instr} {s t : State} (hm : m.DataDone Config.chip t)
    (his : Succeeds is (emitted m.dir (xorKeystream Config.chip m.key (m.j0 Config.chip) m.data)) s t) (e : List Byte) :
    ∃ u, issueAll exec (is ++ [.finish e]) s = .next u ∧ m.Ended Config.chip e s u := by
  obtain ⟨⟨rs, hrs, hout, htag⟩, hrun⟩ := his
  obtain ⟨u, hx, hr, hreg⟩ := hm.finish_response e
  have hnew : newResponses s u = rs ++ [m.finishResponse Config.chip e] := by
    rw [newResponses, hr, hrs, List.append_assoc, List.drop_left]
  refine ⟨u, by simp [hrun, issueAll, hx], hreg, by simp [State.lastStatus, hr], ?_, ?_⟩
  · rw [hnew, List.flatMap_append, hout, List.flatMap_singleton]
  · rw [hnew, List.flatMap_append, htag, List.nil_append, List.flatMap_singleton]

/-- R104, R105: the commands after SET_IV, in any pieces, end the session of the message whose AAD and data are the pieces
joined; `pre` are the commands before them. -/
theorem Message.IvSet.run_session {m : Message} {pre : List Instr} {s₀ s : State} (hpre : Succeeds pre [] s₀ s)
    (hm : m.IvSet Config.chip s) (as : List (List Byte)) (fin : Bool) {ds : List (List Byte)} (e : List Byte)
    (hds : ds ≠ []) (haad : m.aad.length + as.flatten.length ≤ 2 ^ 61 - 1) (hdata : ds.flatten.length ≤ Config.maxData) :
    ∃ t, issueAll exec (pre ++ sessionCommands as fin ds e) s₀ = .next t ∧
      { m with aad := m.aad ++ as.flatten, data := ds.flatten }.Ended Config.chip e s₀ t := by
  have hno : m.data = [] := hm.no_data
  obtain ⟨s₁, h₁, hm₁⟩ := hm.succeeds_addAad as haad
  obtain ⟨s₂, h₂, hm₂⟩ := hm₁.succeeds_finishAad fin
  obtain ⟨s₃, h₃, hm₃⟩ := hm₂.succeeds_process ds hds (by simpa [hno] using hdata)
  simp only [hno, List.nil_append, List.length_nil, xorKeystreamFrom_zero] at hm₃ h₃
  obtain ⟨t, ht, hend⟩ := hm₃.ended (hpre.trans (h₁.trans (h₂.trans h₃))) e
  exact ⟨t, by simpa [sessionCommands] using ht, hend⟩

/-- Settles O47: the message is the same however its AAD and data are cut, and it determines the end of the session. -/
theorem chunkingIndependence : Obligations.ChunkingIndependence := by
  intro m s t t' as as' ds ds' fin fin' e hm has hds hne hne' haad hdata ht ht'
  obtain ⟨u, hu, hend⟩ := hm.run_session (.refl s) as fin e hne haad hdata
  obtain ⟨u', hu', hend'⟩ := hm.run_session (.refl s) as' fin' e hne' (has ▸ haad) (hds ▸ hdata)
  cases ht.symm.trans hu
  cases ht'.symm.trans hu'
  rw [← has, ← hds] at hend'
  exact ⟨hend.registers.trans hend'.registers.symm, hend.lastStatus.trans hend'.lastStatus.symm,
    hend.dout.trans hend'.dout.symm, hend.tag.trans hend'.tag.symm⟩

/-! ### SEAL and OPEN (R110, R111) -/

/-- R49, R110: the pieces, joined, are the string. -/
theorem flatten_pieces (n fuel : Nat) (s : List Byte) : (pieces n fuel s).flatten = s := by
  induction fuel generalizing s with
  | zero => simp [pieces]
  | succ fuel ih =>
    rw [pieces]
    split_ifs
    · simp
    · rw [List.flatten_cons, ih, List.take_append_drop]

/-- R110: there is at least one. -/
theorem pieces_ne_nil (n fuel : Nat) (s : List Byte) : pieces n fuel s ≠ [] := by
  cases fuel with
  | zero => simp [pieces]
  | succ fuel => rw [pieces]; split_ifs <;> simp

/-- R49, R110: with a cut for every byte, no piece is longer than `n`. -/
theorem length_le_of_mem_pieces {n fuel : Nat} {s x : List Byte} (hn : 0 < n) (hfuel : s.length ≤ fuel)
    (hx : x ∈ pieces n fuel s) : x.length ≤ n := by
  induction fuel generalizing s with
  | zero =>
    obtain rfl : x = s := by simpa [pieces] using hx
    omega
  | succ fuel ih =>
    rw [pieces] at hx
    split_ifs at hx with hs
    · obtain rfl : x = s := by simpa using hx
      exact hs
    · rcases List.mem_cons.1 hx with rfl | hx
      · exact List.length_take_le ..
      · exact ih (by rw [List.length_drop]; omega) hx

/-- R41, R49: a piece fits in one command. -/
theorem length_lt_of_mem_cut {s x : List Byte} (hx : x ∈ cut s) : x.length < 2 ^ 32 :=
  Nat.lt_of_le_pred (by decide) (length_le_of_mem_pieces (by decide) le_rfl hx)

/-- R9, R40: a command that a header can carry, issued on the command port, is executed. -/
theorem issue_eq_exec {i : Instr} (hi : i.wellFormed = true) (s : State) : issue i s = exec i s :=
  step_of_decode_ok rfl (decodeOfEncodeGivesTheCommand i hi)

theorem issueAll_issue {is : List Instr} (his : ∀ i ∈ is, i.wellFormed = true) (s : State) :
    issueAll issue is s = issueAll exec is s := by
  induction is generalizing s with
  | nil => rfl
  | cons i is ih =>
    obtain ⟨hi, his⟩ := List.forall_mem_cons.1 his
    rw [issueAll, issueAll, issue_eq_exec hi]
    cases exec i s with
    | next t => simp only [ih his]
    | fault f => rfl
    | refused r => rfl

theorem wellFormed_iff {i : Instr} : i.wellFormed = true ↔ i.payload.length < 2 ^ 32 := decide_eq_true_iff

/-- R49, R110: the facade's commands all fit in a header where its key, IV and tag do. -/
theorem wellFormed_facadeCommands {d : Dir} {key iv aad data tag : List Byte} {taglen : Option (BitVec 5)}
    (hkey : key.length < 2 ^ 32) (hiv : iv.length < 2 ^ 32) (htag : tag.length < 2 ^ 32) :
    ∀ i ∈ facadeCommands d key iv aad data tag taglen, i.wellFormed = true := by
  simp only [facadeCommands, List.mem_cons, List.mem_append, List.mem_map, wellFormed_iff, List.not_mem_nil, or_false]
  rintro i (rfl | rfl | ⟨x, hx, rfl⟩ | rfl | ⟨x, hx, rfl⟩ | rfl)
  · exact hkey
  · exact hiv
  · exact length_lt_of_mem_cut hx
  · exact Nat.two_pow_pos 32
  · exact length_lt_of_mem_cut hx
  · exact htag

/-- R110, R111: the facade ends the session of its operands, from any state. -/
theorem facade_ended (d : Dir) {key iv aad data tag : List Byte} {taglen : Option (BitVec 5)} {n : BitVec 5} (s : State)
    (hn : n = taglenOrDefault taglen) (hkey : key.length = 16 ∨ key.length = 24 ∨ key.length = 32) (hmin : 12 ≤ n.toNat)
    (hmax : n.toNat ≤ 16) (hne : iv ≠ []) (hiv : iv.length < 2 ^ 32) (haad : aad.length ≤ 2 ^ 61 - 1)
    (hdata : data.length ≤ Config.maxData) (htag : tag.length < 2 ^ 32) :
    ∃ t, issueAll issue (facadeCommands d key iv aad data tag taglen) s = .next t ∧
      Message.Ended Config.chip ⟨d, n, key, iv, aad, data⟩ tag s t := by
  obtain ⟨u, hpre, hu⟩ := succeeds_init_setIv d s hkey hmin hmax hne
  have hcut (x : List Byte) : (cut x).flatten = x := flatten_pieces ..
  obtain ⟨t, ht, hend⟩ := hu.run_session hpre (cut aad) true (ds := cut data) tag (pieces_ne_nil _ _ _)
    (by simpa [hcut] using haad) (by simpa [hcut] using hdata)
  rw [issueAll_issue (wellFormed_facadeCommands (by omega) hiv htag)]
  refine ⟨t, ?_, by simpa [hcut] using hend⟩
  simpa [facadeCommands, sessionCommands, ← hn] using ht

/-- R20: PHASE at the end of a session is the one its last response carries. -/
theorem Message.Ended.phase {c : Config} {m : Message} {e : List Byte} {s t : State} (h : m.Ended c e s t) :
    t.phase = (m.finishResponse c e).phase := congrArg State.phase h.registers

/-- R100, R101: in an ENC session FINISH with no payload answers the tag. -/
theorem finishResponse_enc_nil {c : Config} {m : Message} (hdir : m.dir = .enc) :
    m.finishResponse c [] = ⟨.ok, .finished, [], m.tag c⟩ := by
  simp [Message.finishResponse, hdir, finishLengthOk]

/-- R100, R102, R103: in a DEC session FINISH checks the length of the expected tag, then the tag. -/
theorem finishResponse_dec {c : Config} {m : Message} (hdir : m.dir = .dec) (e : List Byte) :
    m.finishResponse c e =
      if e.length ≠ m.taglen.toNat then ⟨.invalidTagLength, .failed, [], []⟩
      else if e = m.tag c then ⟨.ok, .finished, xorKeystream c m.key (m.j0 c) m.data, []⟩
      else ⟨.authenticationError, .failed, [], []⟩ := by
  simp [Message.finishResponse, hdir, finishLengthOk, eq_comm]

/-- Settles O45: the session ends with the tag, after the ciphertext. -/
theorem sealComputesTheSessionFunction : Obligations.SealComputesTheSessionFunction := by
  refine ⟨by decide, fun key iv aad plaintext taglen n s hn hkey hmin hmax hne hiv haad hdata => ?_⟩
  obtain ⟨t, ht, hend⟩ := facade_ended .enc s hn hkey hmin hmax hne hiv haad hdata (tag := []) (by simp)
  have hr := finishResponse_enc_nil (c := Config.chip) (m := ⟨.enc, n, key, iv, aad, plaintext⟩) rfl
  refine ⟨t, ht, by rw [hend.phase, hr], ?_⟩
  rw [sealResult, hend.lastStatus, hend.dout, hend.tag, hr, List.append_nil]
  rfl

/-- R105, R106: the ciphertext, decrypted, has the tag of the plaintext. -/
theorem tag_dec_ciphertext (c : Config) (n : BitVec 5) (key : Key) (iv aad plaintext : List Byte) :
    Message.tag c ⟨.dec, n, key, iv, aad, Message.ciphertext c ⟨.enc, n, key, iv, aad, plaintext⟩⟩ =
      Message.tag c ⟨.enc, n, key, iv, aad, plaintext⟩ := rfl

/-- R105: and gives the plaintext back. -/
theorem xorKeystream_dec_ciphertext (c : Config) (n : BitVec 5) (key : Key) (iv aad data plaintext : List Byte) :
    xorKeystream c key (Message.j0 c ⟨.dec, n, key, iv, aad, data⟩)
      (Message.ciphertext c ⟨.enc, n, key, iv, aad, plaintext⟩) = plaintext := xorKeystream_involutive ..

/-- R103, R106: the session that decrypts the ciphertext compares with the tag of the plaintext, and gives the plaintext back. -/
theorem finishResponse_dec_ciphertext (c : Config) (n : BitVec 5) (key : Key) (iv aad plaintext tag : List Byte) :
    Message.finishResponse c ⟨.dec, n, key, iv, aad, Message.ciphertext c ⟨.enc, n, key, iv, aad, plaintext⟩⟩ tag =
      if tag.length ≠ n.toNat then ⟨.invalidTagLength, .failed, [], []⟩
      else if tag = Message.tag c ⟨.enc, n, key, iv, aad, plaintext⟩ then ⟨.ok, .finished, plaintext, []⟩
      else ⟨.authenticationError, .failed, [], []⟩ := by
  simp only [finishResponse_dec, tag_dec_ciphertext, xorKeystream_dec_ciphertext]

/-- Settles O46: the session of the ciphertext ends with one of the three answers of FINISH, and puts out no byte before it. -/
theorem openInvertsSeal : Obligations.OpenInvertsSeal := by
  refine ⟨by decide, fun key iv aad plaintext tag taglen n s hn hkey hmin hmax hne hiv haad hdata htag => ?_⟩
  have hct : (Message.ciphertext Config.chip ⟨.enc, n, key, iv, aad, plaintext⟩).length ≤ Config.maxData := by
    rwa [Message.ciphertext_length]
  obtain ⟨t, ht, hend⟩ := facade_ended .dec s hn hkey hmin hmax hne hiv haad hct htag
  refine ⟨t, ht, ?_⟩
  have hr := finishResponse_dec_ciphertext Config.chip n key iv aad plaintext tag
  rw [openResult, hend.lastStatus, hend.phase, hend.dout]
  by_cases hlen : tag.length ≠ n.toNat
  · rw [if_pos hlen] at hr ⊢
    rw [hr]
    exact ⟨.inr rfl, rfl⟩
  rw [if_neg hlen] at hr ⊢
  by_cases heq : tag = Message.tag Config.chip ⟨.enc, n, key, iv, aad, plaintext⟩
  · rw [if_pos heq] at hr ⊢
    rw [hr]
    exact ⟨.inl rfl, rfl⟩
  · rw [if_neg heq] at hr ⊢
    rw [hr]
    exact ⟨.inr rfl, rfl⟩

end Sys2Proof.Machine

/-! ## Proofs of the exceptions family (60_exceptions.md): `raise` (R133), which error a command answers (R120 to R127, R131),
commands while FAILED (R135), and what an error lets out (R138) -/

namespace Sys2Proof.Machine

/-! ### raise (R133) -/

/-- Settles O11: `raise` drops the session, records the error and responds. -/
theorem raiseForgetsTheSession : Obligations.RaiseForgetsTheSession := fun _ _ => rfl

/-- R47, R120: a response carries the phase after its command, and one with an error carries no bytes and is that of `raise`,
after the cipher requests made by then. -/
theorem exec_response {i : Instr} {s t : State} {r : Response} (hx : exec i s = .next t) (hr : t.rsp = s.rsp ++ [r]) :
    r.phase = t.phase ∧
      (r.status ≠ .ok → r.dout = [] ∧ r.tag = [] ∧ ∃ cs, t = (s.request cs).raiseError r.status) := by
  rcases exec_cases hx with ⟨st, cs, -, rfl, -⟩ | ⟨d, n, key, -, -, -, rfl⟩ | ⟨iv, key, h, -, -, -, -, -, rfl⟩ |
    ⟨aad, -, -, a, h, acc, buf, -, -, -, -, -, rfl⟩ | ⟨-, -, h, acc, buf, -, -, -, rfl⟩ |
    ⟨data, -, -, n, d, key, h, acc, ctr, buf, -, -, -, -, -, -, -, -, -, -, rfl⟩ | ⟨e, o, tag, -, -, rfl, -⟩ <;>
  obtain rfl : _ = r := by simpa using hr
  · exact ⟨rfl, fun _ => ⟨rfl, rfl, cs, rfl⟩⟩
  all_goals exact ⟨rfl, fun hne => absurd rfl hne⟩

/-- Settles O12: one response on the ports by `exec_ports`, which is that of `exec_response`; cipher requests are no
registers. -/
theorem everyErrorIsARaise : Obligations.EveryErrorIsARaise := by
  intro i s t hx
  obtain ⟨hhost, -, r, hr⟩ := exec_ports hx
  obtain ⟨hphase, herr⟩ := exec_response hx hr
  refine ⟨r, hr, hhost, hphase, fun hne => ?_⟩
  obtain ⟨hdout, htag, cs, ht⟩ := herr hne
  exact ⟨(congrArg State.registers ht).trans rfl, hdout, htag⟩

/-! ### The capacity limits (R125) -/

/-- Settles O30: the two checks of PROCESS and the one of ADD_AAD, and the data limit counted in blocks. -/
theorem capacityLimitsAreChecked : Obligations.CapacityLimitsAreChecked := by
  refine ⟨fun c data s n d hp hn hd hbig => execProcessIn_exceeds hp hn (hbig.imp_right ?_),
    fun c aad s a hp ha hbig => execAddAadIn_exceeds hp ha hbig, fun n => ?_⟩
  · rintro ⟨rfl, hhold⟩
    exact ⟨hd, hhold⟩
  · unfold blocksBegun
    omega

/-! ### Each error and its cause (R121 to R127) -/

@[simp] theorem chip_keyLens : Config.chip.keyLens = [16, 24, 32] := rfl

@[simp] theorem chip_tagMin : Config.chip.tagMin = 12 := rfl

@[simp] theorem chip_holdCap : Config.chip.holdCap = Config.maxData := rfl

/-- R80: FAILED admits no command but INIT. -/
theorem transition_failed {i : Instr} (hi : i.isInit = false) : transition .failed i = none := by
  cases i with
  | init d n key => cases hi
  | _ => rfl

/-- R99: HOLD_CAP bounds a DEC session alone. -/
theorem holdFits_eq_true_iff {c : Config} {d : Dir} {held len : Nat} :
    holdFits c d held len = true ↔ (d = .dec → held + len ≤ c.holdCap) := by
  cases d <;> simp [holdFits]

section
variable {s t : State} {r : Response} (hr : t.rsp = s.rsp ++ [r])
include hr

/-- R90: what INIT answers. -/
theorem init_status {d : Dir} {n : BitVec 5} {key : List Byte} (hx : exec (.init d n key) s = .next t) :
    (r.status = .invalidKeyLength ∧ key.length ∉ [16, 24, 32]) ∨
    (r.status = .invalidTagLength ∧ key.length ∈ [16, 24, 32] ∧ (n.toNat < 12 ∨ 16 < n.toNat)) ∨
    (r.status = .ok ∧ key.length ∈ [16, 24, 32] ∧ ¬ (n.toNat < 12 ∨ 16 < n.toNat)) := by
  rw [exec_init, initChecksThenCreates, chip_keyLens, chip_tagMin] at hx
  split_ifs at hx with hkey htag <;> cases hx <;> obtain rfl : _ = r := by simpa using hr
  · exact .inr (.inl ⟨rfl, hkey, htag⟩)
  · exact .inr (.inr ⟨rfl, hkey, htag⟩)
  · exact .inl ⟨rfl, hkey⟩

/-- R92: what SET_IV answers. -/
theorem setIv_status {iv : List Byte} (hx : exec (.setIv iv) s = .next t) :
    (r.status = .sequenceError ∧ s.phase ≠ .created) ∨ (r.status = .invalidIvLength ∧ s.phase = .created ∧ iv = []) ∨
    (r.status = .ok ∧ s.phase = .created ∧ iv ≠ []) := by
  rcases execSetIvIn_cases hx with ⟨hno, rfl⟩ | ⟨hp, hiv, rfl⟩ | ⟨hp, hiv, key, h, -, -, rfl⟩ <;>
  obtain rfl : _ = r := by simpa using hr
  · exact .inl ⟨rfl, by simpa [transition_setIv] using hno⟩
  · exact .inr (.inl ⟨rfl, hp, hiv⟩)
  · exact .inr (.inr ⟨rfl, hp, hiv⟩)

/-- R94: what ADD_AAD answers. -/
theorem addAad_status {aad : List Byte} (hx : exec (.addAad aad) s = .next t) :
    (r.status = .sequenceError ∧ s.phase ≠ .ivSet) ∨
    (s.phase = .ivSet ∧ ∃ a, s.alen = some a ∧
      r.status = if 2 ^ 61 - 1 < a.toNat + aad.length then .capacityExceeded else .ok) := by
  rcases execAddAadIn_cases hx with ⟨hno, rfl⟩ | ⟨hp, a, ha, hbig, rfl⟩ | ⟨hp, a, h, acc, buf, ha, hfit, -, -, -, rfl⟩ <;>
  obtain rfl : _ = r := by simpa using hr
  · exact .inl ⟨rfl, by simpa [transition_addAad] using hno⟩
  · exact .inr ⟨hp, a, ha, (if_pos hbig).symm⟩
  · exact .inr ⟨hp, a, ha, (if_neg hfit.not_gt).symm⟩

/-- R96: what FINISH_AAD answers. -/
theorem finishAad_status (hx : exec .finishAad s = .next t) :
    (r.status = .sequenceError ∧ s.phase ≠ .ivSet) ∨ (r.status = .ok ∧ s.phase = .ivSet) := by
  rcases execFinishAad_cases hx with ⟨hno, rfl⟩ | ⟨hp, h, acc, buf, -, -, -, rfl⟩ <;>
  obtain rfl : _ = r := by simpa using hr
  · exact .inl ⟨rfl, by simpa [transition_finishAad] using hno⟩
  · exact .inr ⟨rfl, hp⟩

/-- R98: what PROCESS answers. -/
theorem process_status {data : List Byte} (hx : exec (.process data) s = .next t) :
    (r.status = .sequenceError ∧ ¬ (s.phase = .ivSet ∨ s.phase = .aadDone ∨ s.phase = .dataDone)) ∨
    ((s.phase = .ivSet ∨ s.phase = .aadDone ∨ s.phase = .dataDone) ∧ ∃ n, s.dlen = some n ∧
      r.status = if Config.maxData < n.toNat + data.length ∨
        s.dir = some .dec ∧ Config.maxData < s.hold.length + data.length then .capacityExceeded else .ok) := by
  rw [exec_process] at hx
  rcases execProcessIn_cases hx with ⟨hno, rfl⟩ | ⟨hadm, rfl, hbig⟩ |
    ⟨hadm, n, d, key, h, acc, ctr, buf, hn, hfit, hd, hhold, -, -, -, -, -, -, rfl⟩ <;>
  obtain rfl : _ = r := by simpa using hr
  · exact .inl ⟨rfl, by simpa [transition_process_eq] using hno⟩
  · obtain ⟨n, hn⟩ := exists_dlen_of_execProcessIn hadm hx
    exact .inr ⟨(transition_process.1 hadm).2, n, hn, (if_pos (by simpa [hn] using hbig)).symm⟩
  · rw [holdFits_eq_true_iff] at hhold
    exact .inr ⟨(transition_process.1 hadm).2, n, hn, (if_neg (by simpa [hd, hfit] using hhold)).symm⟩

/-- R100: what FINISH answers. -/
theorem finish_status {e : List Byte} (hx : exec (.finish e) s = .next t) :
    (r.status = .sequenceError ∧ s.phase ≠ .dataDone) ∨
    (s.phase = .dataDone ∧ ∃ d n, s.dir = some d ∧ s.taglen = some n ∧
      (r.status = .invalidTagLength ∧ (d = .enc ∧ e ≠ [] ∨ d = .dec ∧ e.length ≠ n.toNat) ∨
        r.status = .ok ∧ d = .enc ∧ e = [] ∨
        d = .dec ∧ e.length = n.toNat ∧ ∃ h acc buf a dlen ek0, s.h = some h ∧ s.acc = some acc ∧ s.buf = some buf ∧
          s.alen = some a ∧ s.dlen = some dlen ∧ s.ek0 = some ek0 ∧
          (r.status = .ok ∧ sessionTag ek0 (finalAcc h acc buf a dlen) n = e ∨
            r.status = .authenticationError ∧ sessionTag ek0 (finalAcc h acc buf a dlen) n ≠ e))) := by
  rcases execFinish_cases hx with ⟨hno, rfl⟩ | ⟨hp, d, n, hd, hn, hlen, rfl⟩ |
    ⟨hp, d, n, h, acc, buf, a, dlen, ek0, hd, hn, hlen, hh, hacc, hbuf, ha, hdlen, hek0, rfl⟩
  · obtain rfl : _ = r := by simpa using hr
    exact .inl ⟨rfl, by simpa [transition_finish_eq] using hno⟩
  · obtain rfl : _ = r := by simpa using hr
    exact .inr ⟨hp, d, n, hd, hn, .inl ⟨rfl, by simpa using finishLengthOk_eq_false_iff.1 hlen⟩⟩
  refine .inr ⟨hp, d, n, hd, hn, .inr ?_⟩
  rcases conclude_cases .finished d (sessionTag ek0 (finalAcc h acc buf a dlen) n) e s with
    ⟨rfl, hc⟩ | ⟨rfl, htag, hc⟩ | ⟨rfl, htag, hc⟩ <;> rw [hc] at hr <;> obtain rfl : _ = r := by simpa using hr
  · exact .inl ⟨rfl, rfl, by simpa [finishLengthOk] using hlen⟩
  · exact .inr ⟨rfl, of_decide_eq_true hlen, h, acc, buf, a, dlen, ek0, hh, hacc, hbuf, ha, hdlen, hek0, .inl ⟨rfl, htag⟩⟩
  · exact .inr ⟨rfl, of_decide_eq_true hlen, h, acc, buf, a, dlen, ek0, hh, hacc, hbuf, ha, hdlen, hek0, .inr ⟨rfl, htag⟩⟩

end

/-- Settles O17: command by command, what it answers under the checks of its rule. -/
theorem errorsHaveTheirCauses : Obligations.ErrorsHaveTheirCauses := by
  intro i s t r hx hr
  cases i with
  | init d n key =>
    rcases init_status hr hx with ⟨hst, hkey⟩ | ⟨hst, hkey, htag⟩ | ⟨hst, hkey, htag⟩
    · simp [transition_init, -List.mem_cons, hst, hkey]
    · simp [transition_init, -List.mem_cons, hst, hkey, htag]
    · simp [transition_init, -List.mem_cons, -not_or, hst, hkey, htag]
  | setIv iv =>
    rcases setIv_status hr hx with ⟨hst, hp⟩ | ⟨hst, hp, hiv⟩ | ⟨hst, hp, hiv⟩
    · simp [transition_setIv, hst, hp]
    · simp [transition_setIv, hst, hp, hiv]
    · simp [transition_setIv, hst, hp, hiv]
  | addAad aad =>
    rcases addAad_status hr hx with ⟨hst, hp⟩ | ⟨hp, a, ha, hst⟩
    · simp [transition_addAad, hst, hp]
    · split_ifs at hst with hbig <;> simpa [transition_addAad, hst, hp, ha] using hbig
  | finishAad =>
    rcases finishAad_status hr hx with ⟨hst, hp⟩ | ⟨hst, hp⟩ <;> simp [transition_finishAad, hst, hp]
  | process data =>
    rcases process_status hr hx with ⟨hst, hp⟩ | ⟨hp, n, hn, hst⟩
    · simp [transition_process_eq, hst, hp]
    · split_ifs at hst with hbig <;> simp [transition_process_eq, hst, hp, hn, hbig]
  | finish e =>
    rcases finish_status hr hx with ⟨hst, hp⟩ | ⟨hp, d, n, hd, hn, ⟨hst, ⟨rfl, he⟩ | ⟨rfl, hlen⟩⟩ | ⟨hst, rfl, rfl⟩ |
      ⟨rfl, hlen, h, acc, buf, a, dlen, ek0, hh, hacc, hbuf, ha, hdlen, hek0, htag⟩⟩
    · simp [transition_finish_eq, hst, hp]
    · simp [transition_finish_eq, hst, hp, hd, hn, he]
    · simp [transition_finish_eq, hst, hp, hd, hn, hlen]
    · simp [transition_finish_eq, hst, hp, hd]
    · rw [sessionTag, finalAcc, foldPartial] at htag
      rcases htag with ⟨hst, htag⟩ | ⟨hst, htag⟩ <;>
      simp [transition_finish_eq, hst, hp, hd, hn, hlen, hh, hacc, hbuf, ha, hdlen, hek0, htag]

/-- Settles O15: `exec_of_not_admitted` and its converse in O17; FAILED admits INIT alone, and FINISH_AAD has no other check. -/
theorem sequenceErrorIsExactlyNotAdmitted : Obligations.SequenceErrorIsExactlyNotAdmitted := by
  refine ⟨fun i s => exec_of_not_admitted, fun i s t r hx hr => (errorsHaveTheirCauses i s t r hx hr).1.1,
    fun i => ⟨fun hi => ⟨.failed, transition_failed hi⟩, ?_⟩, fun s t r hx hr => ?_⟩
  · rintro ⟨p, hp⟩
    cases i with
    | init d n key => simp [transition_init] at hp
    | _ => rfl
  · rcases finishAad_status hr hx with ⟨hst, -⟩ | ⟨hst, -⟩
    · exact .inr hst
    · exact .inl hst

/-! ### Commands while FAILED (R135) -/

/-- R22: an error raised in FAILED leaves ERR. -/
theorem stickyErr_of_failed {s : State} (hp : s.phase = .failed) (st : Status) : s.stickyErr st = s.err := if_pos hp

/-- R135: INIT in FAILED begins a session or answers its own error. -/
theorem exec_init_of_failed {s : State} (hp : s.phase = .failed) (d : Dir) (n : BitVec 5) (key : List Byte) :
    ∃ t r, exec (.init d n key) s = .next t ∧ t.rsp = s.rsp ++ [r] ∧
      ((r.status = .ok ∧ t.phase = .created ∧ t.err = .ok) ∨
        ((r.status = .invalidKeyLength ∨ r.status = .invalidTagLength) ∧ t.phase = .failed ∧ t.err = s.err)) := by
  have herr (cs : List CipherRequest) (st : Status) : ((s.request cs).raiseError st).err = s.err :=
    stickyErr_of_failed (s := s.request cs) hp st
  rw [exec_init, initChecksThenCreates]
  split_ifs
  · exact ⟨_, _, rfl, rfl, .inr ⟨.inr rfl, rfl, herr _ _⟩⟩
  · exact ⟨_, _, rfl, rfl, .inl ⟨rfl, rfl, rfl⟩⟩
  · exact ⟨_, _, rfl, rfl, .inr ⟨.inl rfl, rfl, herr _ _⟩⟩

/-- Settles O18: an illegal pair raises IllegalCommand, a command that FAILED does not admit SequenceError, and INIT is
`exec_init_of_failed`. -/
theorem errorsWhileFailed : Obligations.ErrorsWhileFailed := by
  intro s h p rest hp hs
  cases hd : decode h p with
  | error e => exact ⟨_, _, step_of_decode_error hs hd, rfl, fun _ _ => ⟨rfl, rfl, stickyErr_of_failed hp _⟩, nofun, nofun⟩
  | ok i =>
    rw [step_of_decode_ok hs hd]
    cases hi : i.isInit with
    | false =>
      refine ⟨_, _, exec_of_not_admitted (hp ▸ transition_failed hi), rfl, nofun,
        fun _ _ _ => ⟨rfl, rfl, stickyErr_of_failed hp _⟩, ?_⟩
      rintro d n key ⟨⟩
      cases hi
    | true =>
      cases i with
      | init d n key =>
        obtain ⟨t, r, hx, hr, hend⟩ := exec_init_of_failed (s := { s with host := rest }) hp d n key
        refine ⟨t, r, hx, hr, nofun, ?_, fun _ _ _ _ => hend⟩
        rintro _ ⟨⟩ ⟨⟩
      | _ => cases hi

/-! ### What an error lets out (R138) -/

/-- R99, R102: in a DEC session PROCESS emits nothing and no command answers a tag; FINISH releases HOLD. -/
theorem exec_dec_response {i : Instr} {s t : State} {r : Response} (hx : exec i s = .next t) (hr : t.rsp = s.rsp ++ [r])
    (hdec : s.dir = some .dec) :
    r.tag = [] ∧ (r.dout ≠ [] → ∃ e, i = .finish e ∧ r.status = .ok ∧ r.dout = s.hold) := by
  rcases exec_cases hx with ⟨st, cs, -, rfl, -⟩ | ⟨d, n, key, -, -, -, rfl⟩ | ⟨iv, key, h, -, -, -, -, -, rfl⟩ |
    ⟨aad, -, -, a, h, acc, buf, -, -, -, -, -, rfl⟩ | ⟨-, -, h, acc, buf, -, -, -, rfl⟩ |
    ⟨data, -, -, n, d, key, h, acc, ctr, buf, -, -, hd, -, -, -, -, -, -, -, rfl⟩ | ⟨e, o, tag, rfl, -, rfl, hend⟩ <;>
  obtain rfl : _ = r := by simpa using hr
  iterate 5 exact ⟨rfl, nofun⟩
  · cases hdec.symm.trans hd
    exact ⟨rfl, nofun⟩
  · rcases hend with ⟨henc, -⟩ | ⟨-, rfl, rfl⟩
    · cases hdec.symm.trans henc
    · exact ⟨rfl, fun _ => ⟨e, rfl, rfl, rfl⟩⟩

/-- Settles O48: an illegal pair raises, and a decoded command is `exec_response` and `exec_dec_response`. -/
theorem noUnauthenticatedPlaintext : Obligations.NoUnauthenticatedPlaintext := by
  intro s t h p rest r hs hx hr
  cases hd : decode h p with
  | error e =>
    cases (step_of_decode_error hs hd).symm.trans hx
    obtain rfl : _ = r := by simpa using hr
    exact ⟨fun _ => rfl, fun _ => ⟨rfl, nofun⟩⟩
  | ok i =>
    rw [step_of_decode_ok hs hd] at hx
    refine ⟨fun hne => ?_, fun hdec => ?_⟩
    · obtain ⟨-, -, cs, ht⟩ := (exec_response hx hr).2 hne
      exact congrArg State.hold ht
    · simpa using exec_dec_response hx hr hdec

end Sys2Proof.Machine

/-! ## Proofs of the reset and hazards family (70_reset_and_hazards.md): the first command after reset (R151) -/

namespace Sys2Proof.Machine

/-- R9, R31: the step on the header and payload of a well-formed command. -/
theorem step_of_commandEvent {s : State} {i : Instr} {rest : List HostEvent} (hi : i.wellFormed = true)
    (hs : s.host = commandEvent i :: rest) : step s = exec i { s with host := rest } :=
  step_of_decode_ok hs (decodeOfEncodeGivesTheCommand i hi)

/-- R80: IDLE admits no command but INIT. -/
theorem transition_idle {i : Instr} (hi : i.isInit = false) : transition .idle i = none := by
  cases i with
  | init d n key => cases hi
  | _ => rfl

/-- R151: after reset a command other than INIT raises SequenceError, which ERR records. -/
theorem step_of_idle {s : State} {i : Instr} {rest : List HostEvent} (hp : s.phase = .idle) (hi : i.wellFormed = true)
    (hs : s.host = commandEvent i :: rest) (hinit : i.isInit = false) :
    step s = .next ({ s with host := rest }.raiseError .sequenceError) := by
  have hno : transition s.phase i = none := hp ▸ transition_idle hinit
  exact (step_of_commandEvent hi hs).trans (exec_of_not_admitted hno)

/-- Settles O10: IDLE does not admit the command (`step_of_idle`), and INIT completes in every phase (O20). -/
theorem afterResetOnlyInitSucceeds : Obligations.AfterResetOnlyInitSucceeds := by
  refine ⟨fun s i rest hreset hi hs hinit => ?_, fun s d t key rest _ hkey hmin hmax hs => ?_⟩
  · have hidle : s.phase = .idle := congrArg State.phase hreset
    have herr : ({ s with host := rest } : State).stickyErr .sequenceError = .sequenceError :=
      if_neg (by simp [hidle])
    exact ⟨_, step_of_idle hidle hi hs hinit, rfl, herr, rfl, rfl⟩
  · have hlen : key.length = 16 ∨ key.length = 24 ∨ key.length = 32 := by simpa using hkey
    have hi : (Instr.init d t key).wellFormed = true := wellFormed_iff.2 (show key.length < 2 ^ 32 by omega)
    exact ⟨_, (step_of_commandEvent hi hs).trans (initCompletes d t key _ hlen hmin hmax), rfl, rfl, rfl⟩

end Sys2Proof.Machine
